-- ==== Sys2Proof/Word.lean ====
section
/-! DEFINITION. The word and byte types (spec 00_scope R7): a word is a 64-bit unsigned value, bit 63 the most significant. -/

namespace Sys2Proof

/-- A state word: 64 bits, unsigned (R7). -/
abbrev Word := BitVec 64

/-- One byte of a buffer: 8 bits (R61). -/
abbrev Byte := BitVec 8

end Sys2Proof
end

