-- ==== Sys2Proof/Config.lean ====
section
/-! DEFINITION. What an instance fixes (the open parameters of R6) and the free values. The parameters are plain data carried
by State and never written by a step, so every statement about "all states" is a statement about all instances. -/

namespace Sys2Proof.Config

/-- The open parameters of R6. -/
structure Params where
  /-- LENW, the width in bits of the length registers and position counters; R6 asks for at least 20. -/
  lenw : Nat
  /-- ZEROIZE_ON_FAIL (R217). -/
  zeroizeOnFail : Bool
  /-- TRACE_EN (R51). -/
  traceEn : Bool
deriving DecidableEq, Repr

/-- The defaults of R6: LENW = 64, ZEROIZE_ON_FAIL = 0, TRACE_EN = 0. -/
def Params.default : Params := { lenw := 64, zeroizeOnFail := false, traceEn := false }

/-- FREE VALUE. The byte a host reads at an OUT address of which the spec says "any value" (93 U1, U15): after AUTH_FAIL and
after a reset during a call. It is applied to the plain counter `State.freeCtr`, so two reads need not agree. Log entry 6. -/
opaque freeByte : Nat → Byte

end Sys2Proof.Config
end

