-- ==== Sys2Proof/Syntax.lean ====
section
/-! DEFINITION. The 23 operations of the opcode map (R92), one constructor per row of spec/opcode_table.json. -/

namespace Sys2Proof

/-- The operations, in the table's order. Unit functions (R90 layer 1): `addc` to `pad`. Controller steps (layer 2): `init` to
`tagvfy`. Host commands (layer 3): `encrypt`, `decrypt`. Only the immediate operand of the control word is in the syntax (R93):
`c` is `cw[7:0]`, `n` is `cw[3:0]`. -/
inductive Instr where
  | addc (c : BitVec 8)
  | subst
  | ldiff
  | round (c : BitVec 8)
  | p6
  | p12
  | load (n : BitVec 4)
  | store (n : BitVec 4)
  | keep (n : BitVec 4)
  | pad (n : BitVec 4)
  | init
  | adblk
  | adfin
  | domsep
  | final
  | encblk
  | encfin
  | tagout
  | decblk
  | decfin
  | tagvfy
  | encrypt
  | decrypt
deriving DecidableEq, Repr

/-- The three layers of R90. -/
inductive Layer where
  | unitFunction
  | controllerStep
  | hostCommand
deriving DecidableEq, Repr

/-- The layer column of R92. -/
def Instr.layer : Instr → Layer
  | .addc _ | .subst | .ldiff | .round _ | .p6 | .p12 | .load _ | .store _ | .keep _ | .pad _ => .unitFunction
  | .init | .adblk | .adfin | .domsep | .final | .encblk | .encfin | .tagout | .decblk | .decfin | .tagvfy => .controllerStep
  | .encrypt | .decrypt => .hostCommand

end Sys2Proof
end

