-- ==== Sys2Proof/WellFormed.lean ====
section
/-! DEFINITION. Which terms of Instr stand for a legal control word (R92, R93, R94, R144). -/

namespace Sys2Proof

/-- The 12 legal round constants, in the order a 12-round permutation uses them (R124). -/
def roundConstants : List (BitVec 8) :=
  [0xf0, 0xe1, 0xd2, 0xc3, 0xb4, 0xa5, 0x96, 0x87, 0x78, 0x69, 0x5a, 0x4b]

/-- The operand is one R92 allows: a round constant of R124, a count of at most 8, at most 7 for PAD (R144). -/
def Instr.wellFormed : Instr → Bool
  | .addc c | .round c => roundConstants.contains c
  | .load n | .store n | .keep n => decide (n.toNat ≤ 8)
  | .pad n => decide (n.toNat ≤ 7)
  | .subst | .ldiff | .p6 | .p12 | .init | .adblk | .adfin | .domsep | .final | .encblk | .encfin | .tagout
  | .decblk | .decfin | .tagvfy | .encrypt | .decrypt => true

end Sys2Proof
end

