-- ==== Sys2Proof/Decode.lean ====
section
/-! DEFINITION. Control words (R91 to R95): the decoder, total on every 16-bit value and rejecting by name; then the opcode
map as rows; then the encoder. -/

namespace Sys2Proof

/-- Why a 16-bit value is no legal control word: the cases R94 lists. -/
inductive DecodeError where
  /-- unit code 0, 6 to 9 or b to f (R91) -/
  | reservedUnit
  /-- an fn not listed for its unit -/
  | unlistedFn
  /-- ADDC or ROUND with a constant outside the table of R124 -/
  | illegalConstant
  /-- unit 1 fn 4 with arg other than 06 or 0c (93 U3) -/
  | illegalRounds
  /-- a codec word with cw[7:4] not 0, n from 9 to 15, or PAD with n = 8 (93 U4) -/
  | illegalCount
  /-- a non-zero arg on an operation without operand -/
  | nonzeroArg
deriving DecidableEq, Repr

/-- `unit`, bits 15:12 (R91). -/
def unitOf (cw : BitVec 16) : BitVec 4 := cw.extractLsb' 12 4
/-- `fn`, bits 11:8 (R91). -/
def fnOf (cw : BitVec 16) : BitVec 4 := cw.extractLsb' 8 4
/-- `arg`, bits 7:0 (R91). -/
def argOf (cw : BitVec 16) : BitVec 8 := cw.extractLsb' 0 8

/-- An operation without operand: arg must be 00 (R93). -/
def decodeNoArg (i : Instr) (arg : BitVec 8) : Except DecodeError Instr :=
  if arg = 0 then .ok i else .error .nonzeroArg

/-- ADDC and ROUND: c = cw[7:0], one of the 12 constants (R93, R124). -/
def decodeConstant (mk : BitVec 8 → Instr) (arg : BitVec 8) : Except DecodeError Instr :=
  if roundConstants.contains arg then .ok (mk arg) else .error .illegalConstant

/-- The codec functions: n = cw[3:0] at most `max`, cw[7:4] = 0 (R93). -/
def decodeCount (max : Nat) (mk : BitVec 4 → Instr) (arg : BitVec 8) : Except DecodeError Instr :=
  if arg.toNat ≤ max then .ok (mk (arg.extractLsb' 0 4)) else .error .illegalCount

/-- P6 and P12: rounds = arg = 6 or 12 (R92, R125). -/
def decodeRounds (arg : BitVec 8) : Except DecodeError Instr :=
  if arg = 0x06 then .ok .p6 else if arg = 0x0c then .ok .p12 else .error .illegalRounds

/-- Unit 1, PERM. -/
def decodePerm (fn : BitVec 4) (arg : BitVec 8) : Except DecodeError Instr :=
  match fn.toNat with
  | 0 => decodeConstant .addc arg
  | 1 => decodeNoArg .subst arg
  | 2 => decodeNoArg .ldiff arg
  | 3 => decodeConstant .round arg
  | 4 => decodeRounds arg
  | _ => .error .unlistedFn

/-- Unit 2, CODEC. -/
def decodeCodec (fn : BitVec 4) (arg : BitVec 8) : Except DecodeError Instr :=
  match fn.toNat with
  | 0 => decodeCount 8 .load arg
  | 1 => decodeCount 8 .store arg
  | 2 => decodeCount 8 .keep arg
  | 3 => decodeCount 7 .pad arg
  | _ => .error .unlistedFn

/-- Unit 3, SPONGE. -/
def decodeSponge (fn : BitVec 4) (arg : BitVec 8) : Except DecodeError Instr :=
  match fn.toNat with
  | 0 => decodeNoArg .init arg
  | 1 => decodeNoArg .adblk arg
  | 2 => decodeNoArg .adfin arg
  | 3 => decodeNoArg .domsep arg
  | 4 => decodeNoArg .final arg
  | _ => .error .unlistedFn

/-- Unit 4, ENC. -/
def decodeEnc (fn : BitVec 4) (arg : BitVec 8) : Except DecodeError Instr :=
  match fn.toNat with
  | 0 => decodeNoArg .encblk arg
  | 1 => decodeNoArg .encfin arg
  | 2 => decodeNoArg .tagout arg
  | _ => .error .unlistedFn

/-- Unit 5, DEC. -/
def decodeDec (fn : BitVec 4) (arg : BitVec 8) : Except DecodeError Instr :=
  match fn.toNat with
  | 0 => decodeNoArg .decblk arg
  | 1 => decodeNoArg .decfin arg
  | 2 => decodeNoArg .tagvfy arg
  | _ => .error .unlistedFn

/-- Unit a, HOST. -/
def decodeHost (fn : BitVec 4) (arg : BitVec 8) : Except DecodeError Instr :=
  match fn.toNat with
  | 0 => decodeNoArg .encrypt arg
  | 1 => decodeNoArg .decrypt arg
  | _ => .error .unlistedFn

/-- The decoder (R91, R92, R94): every 16-bit value is one of the 76 legal words or is rejected by name. -/
def decode (cw : BitVec 16) : Except DecodeError Instr :=
  let fn := fnOf cw
  let arg := argOf cw
  match (unitOf cw).toNat with
  | 1 => decodePerm fn arg
  | 2 => decodeCodec fn arg
  | 3 => decodeSponge fn arg
  | 4 => decodeEnc fn arg
  | 5 => decodeDec fn arg
  | 10 => decodeHost fn arg
  | _ => .error .reservedUnit

/-- The decoder as the host asks for it: control words are 16 bits, one word, numbered as the table numbers them (R91). A row
narrower than 16 bits would leave the bits above it zero. -/
def decodeTableWord (nbits w : Nat) : Option Instr :=
  if nbits ≤ 16 ∧ w < 2 ^ 16 then
    match decode (BitVec.ofNat 16 w) with
    | .ok i => some i
    | .error _ => none
  else none

/-! ### The opcode map as rows, and the encoder -/

/-- One row of the opcode map (R92): the bits the row fixes, and their values. -/
structure OpRow where
  mnemonic : String
  mask : BitVec 16
  pattern : BitVec 16
deriving DecidableEq, Repr

/-- The row of R92 an instruction belongs to. -/
def Instr.row : Instr → OpRow
  | .addc _ => ⟨"ADDC", 0xff00, 0x1000⟩
  | .subst => ⟨"SUBST", 0xffff, 0x1100⟩
  | .ldiff => ⟨"LDIFF", 0xffff, 0x1200⟩
  | .round _ => ⟨"ROUND", 0xff00, 0x1300⟩
  | .p6 => ⟨"P6", 0xffff, 0x1406⟩
  | .p12 => ⟨"P12", 0xffff, 0x140c⟩
  | .load _ => ⟨"LOAD", 0xfff0, 0x2000⟩
  | .store _ => ⟨"STORE", 0xfff0, 0x2100⟩
  | .keep _ => ⟨"KEEP", 0xfff0, 0x2200⟩
  | .pad _ => ⟨"PAD", 0xfff0, 0x2300⟩
  | .init => ⟨"INIT", 0xffff, 0x3000⟩
  | .adblk => ⟨"ADBLK", 0xffff, 0x3100⟩
  | .adfin => ⟨"ADFIN", 0xffff, 0x3200⟩
  | .domsep => ⟨"DOMSEP", 0xffff, 0x3300⟩
  | .final => ⟨"FINAL", 0xffff, 0x3400⟩
  | .encblk => ⟨"ENCBLK", 0xffff, 0x4000⟩
  | .encfin => ⟨"ENCFIN", 0xffff, 0x4100⟩
  | .tagout => ⟨"TAGOUT", 0xffff, 0x4200⟩
  | .decblk => ⟨"DECBLK", 0xffff, 0x5000⟩
  | .decfin => ⟨"DECFIN", 0xffff, 0x5100⟩
  | .tagvfy => ⟨"TAGVFY", 0xffff, 0x5200⟩
  | .encrypt => ⟨"ENCRYPT", 0xffff, 0xa000⟩
  | .decrypt => ⟨"DECRYPT", 0xffff, 0xa100⟩

/-- The mnemonic of R92 (R97). -/
def Instr.mnemonic (i : Instr) : String := i.row.mnemonic

/-- The rows of R92 in the table's order; the operand in each is only a stand-in, the row does not depend on it. -/
def opcodeRows : List OpRow :=
  [Instr.addc 0, .subst, .ldiff, .round 0, .p6, .p12].map Instr.row
    ++ [Instr.load 0, .store 0, .keep 0, .pad 0].map Instr.row
    ++ [Instr.init, .adblk, .adfin, .domsep, .final].map Instr.row
    ++ [Instr.encblk, .encfin, .tagout, .decblk, .decfin, .tagvfy].map Instr.row
    ++ [Instr.encrypt, .decrypt].map Instr.row

/-- The operand bits of the control word (R93), zero where the operation has none. -/
def Instr.operandBits : Instr → BitVec 16
  | .addc c | .round c => c.setWidth 16
  | .load n | .store n | .keep n | .pad n => n.setWidth 16
  | .subst | .ldiff | .p6 | .p12 | .init | .adblk | .adfin | .domsep | .final | .encblk | .encfin | .tagout
  | .decblk | .decfin | .tagvfy | .encrypt | .decrypt => 0

/-- The control word of an instruction (R92): its row's pattern with the operand bits. -/
def encode (i : Instr) : BitVec 16 := i.row.pattern ||| i.operandBits

end Sys2Proof
end

