-- ==== Sys2Proof/Machine/State.lean ====
section
/-! DEFINITION. The state of one engine and of what the host has lined up for it (spec 10_state, 20_memory), plain data; the
reasons a step can stop; the state after reset (R55). -/

namespace Sys2Proof.Machine

/-- MODE, 1 bit (R27): 0 = ENC, 1 = DEC. -/
inductive Mode where
  | enc
  | dec
deriving DecidableEq, Repr

/-- PHASE, the sequencing state (R23, R24), codes 0 to 8 in this order. The reserved codes 9 to 15 are written by no rule and
have no constructor. -/
inductive Phase where
  | idle
  | init
  | absorbAd
  | domsep
  | process
  | finalize
  | emitTag
  | verifyTag
  | done
deriving DecidableEq, Repr

/-- RESULT, 2 bits (R28), codes 0 to 3 in this order. -/
inductive ResultCode where
  | none
  | ok
  | structErr
  | authFail
deriving DecidableEq, Repr

/-- The two faults of R240. Each is a register write and the end of the call, so a NEXT state (R241, R242, R247). -/
inductive Cause where
  | structErr
  | authFail
deriving DecidableEq, Repr

/-- The SpongeState: five 64-bit words (R20). -/
structure Sponge where
  x0 : Word
  x1 : Word
  x2 : Word
  x3 : Word
  x4 : Word
deriving DecidableEq, Repr

/-- The five disjoint byte-addressed spaces (R61, R62). -/
inductive Space where
  | key
  | nonce
  | ad
  | inp
  | out
deriving DecidableEq, Repr

/-- A byte space: (address, byte) pairs, addresses strictly rising, no entry equal to what an unlisted address reads as. -/
abbrev Memory := List Host.Cell

/-- MODEL'S OWN. The operands and results of the codec functions when a test harness applies one by itself (R93, R96): a byte
sequence and a word in, a word and a byte sequence out. -/
structure CodecPort where
  bytesIn : Vector Byte 8
  wordIn : Word
  wordOut : Word
  bytesOut : List Byte
deriving DecidableEq, Repr

/-- One trace record (R51): the step, PHASE after it, and the five words after it. -/
structure TraceRecord where
  step : Instr
  phase : Phase
  words : Sponge
deriving DecidableEq, Repr

/-- What a host can do to the engine (R40 to R47, R280). -/
inductive HostAct where
  /-- write `value` to the register of that number (R40) -/
  | writeReg (number value : Nat)
  /-- read the register of that number (R40) -/
  | readReg (number : Nat)
  /-- write one byte of a space (R288) -/
  | writeByte (space : Space) (address : Nat) (value : Byte)
  /-- read one byte of a space (R292) -/
  | readByte (space : Space) (address : Nat)
  /-- assert reset (R280) -/
  | reset
deriving DecidableEq, Repr

/-- MODEL'S OWN. Who moves at a step: the engine, the host, or a test harness that applies one control word directly (R96). -/
inductive Turn where
  | engine
  | host (act : HostAct)
  | issue (cw : BitVec 16)
deriving DecidableEq, Repr

/-- The state. -/
structure State where
  /-- the parameters of the instance (R6); no step writes them -/
  params : Config.Params
  /-- x[0..4] (R20, R21); `none` is the spec's "no value" (R11): after reset (R55), after a call (R170) and until INIT -/
  x : Option Sponge
  /-- the key latch (R30); `none` is "no value" (R11), as for `x` -/
  k0 : Option Word
  k1 : Option Word
  /-- DIFF, 8 bits (R29); holds a value only inside TAGVFY -/
  diff : Option Byte
  /-- MODE (R27) -/
  mode : Mode
  /-- PHASE (R24) -/
  phase : Phase
  /-- ad_pos, in_pos, out_pos, LENW bits each (R25) -/
  adPos : Nat
  inPos : Nat
  outPos : Nat
  /-- MLEN, LENW bits (R26) -/
  mLen : Nat
  /-- RESULT (R28) -/
  result : ResultCode
  /-- ADLEN, INLEN, OUTLEN, LENW bits each (R43 to R45) -/
  adLen : Nat
  inLen : Nat
  outLen : Nat
  /-- the spaces KEY, NONCE, AD, IN, OUT (R50, R61) -/
  key : Memory
  nonce : Memory
  ad : Memory
  inp : Memory
  out : Memory
  /-- MODEL'S OWN. The OUT addresses whose byte is any value to the host (93 U1, U15), strictly rising -/
  outAny : List Nat
  /-- the trace output, oldest record first (R51); empty unless TRACE_EN = 1 -/
  trace : List TraceRecord
  /-- MODEL'S OWN. The codec operands and results of a test harness (R96) -/
  port : CodecPort
  /-- MODEL'S OWN. Who moves next, soonest first; when it is empty the engine moves -/
  turns : List Turn
  /-- MODEL'S OWN. What the host's last read returned -/
  readData : Nat
  /-- MODEL'S OWN. How many free values have been drawn -/
  freeCtr : Nat
deriving DecidableEq, Repr

/-- Why the machine stops with a fault. STRUCT_ERR and AUTH_FAIL are not here: they are next states (`Cause`). -/
inductive Fault where
  /-- R11, 93 U14: an operation reads x[0..4], K0 or K1 while it holds no value. Raised by the permutation functions and by the
  controller steps after INIT. The stop is the spec's own: "Reading it is a fault of the model" (R11). Safe: no run the sequencer
  makes reaches it. -/
  | noValue
  /-- R61, R65: a controller step reads or writes an address outside a space. Raised by the steps that access a space. Safe: the
  spec has no such address, and no run the sequencer makes reaches it. -/
  | noSuchAddress
deriving DecidableEq, Repr

/-- Why a step is refused (R12). -/
inductive Refusal where
  /-- an instruction that has no meaning in this model yet; safe -/
  | notModelled (mnemonic : String)
  /-- R94, 93 U3, U4: the control word is illegal. Raised by the step that decodes it; safe. -/
  | illegalWord (why : DecodeError)
  /-- R94, R124: ADDC or ROUND with a constant outside the table, given as a term. Raised by ADDC, ROUND; safe. -/
  | illegalConstant
  /-- R144, 93 U4: a count above 8 (PAD: 7), given as a term. Raised by LOAD, STORE, KEEP, PAD; safe. -/
  | illegalCount
  /-- R96, 93 U12: a controller step whose enabling condition is false. Raised by the controller steps; safe. -/
  | notEnabled
  /-- R41, R43, R44, R295, 93 U6: a command or a length written while a call is in progress. Raised by ENCRYPT, DECRYPT and the
  host's register writes; safe. -/
  | callInProgress
  /-- R41, 93 U5: a CMD write of a word other than a000 or a100. Raised by the host's register writes; safe. -/
  | illegalCommand
  /-- R291, 93 U11: ENCRYPT with INLEN > 2^LENW - 17. Raised by ENCRYPT; safe. -/
  | inputTooLong
  /-- R40: a register number above 4. Raised by the host's register accesses; safe. -/
  | noSuchRegister
  /-- R42, R45: a write to STATUS or OUTLEN. Raised by the host's register writes; safe. -/
  | readOnlyRegister
  /-- R40, R41: a read of CMD, ADLEN or INLEN. Raised by the host's register reads; safe. -/
  | writeOnlyRegister
  /-- R43, R44: a length of more than LENW bits. Raised by the host's register writes; safe. -/
  | valueTooWide
  /-- R66, R289, R290, R292, 93 U8: the host touches a space during a call. Raised by the host's byte accesses; safe. -/
  | spaceInUse
  /-- R61: the host accesses a byte outside a space. Raised by the host's byte accesses; safe. -/
  | hostAddress
  /-- R12, R6: a parameter value without a meaning, LENW below 20. Raised by every step of such an instance; safe. -/
  | illegalParameter
deriving DecidableEq, Repr

/-- What a step of this machine answers. -/
abbrev StepOutcome := Host.Outcome State Fault Refusal

/-- MODEL'S OWN. The harness operands before a harness has set any: zeros. DESIGN CHOICE, log entry 4. -/
def CodecPort.blank : CodecPort :=
  { bytesIn := Vector.replicate 8 0, wordIn := 0, wordOut := 0, bytesOut := [] }

/-- The machine right after reset (R55): no value in x[0..4], K0, K1, DIFF; MODE, PHASE, RESULT, counters and lengths 0; no byte
listed in any space; the parameters at their defaults (R6). -/
def State.reset : State :=
  { params := Config.Params.default
    x := none, k0 := none, k1 := none, diff := none
    mode := .enc, phase := .idle
    adPos := 0, inPos := 0, outPos := 0, mLen := 0
    result := .none
    adLen := 0, inLen := 0, outLen := 0
    key := [], nonce := [], ad := [], inp := [], out := []
    outAny := [], trace := [], port := CodecPort.blank, turns := []
    readData := 0, freeCtr := 0 }

end Sys2Proof.Machine
end

