-- ==== Sys2Proof/Machine/Flags.lean ====
section
/-! DEFINITION. The codes the host sees (R24, R28), STATUS (R42), and the tag comparison that RESULT comes from (R215, R216). -/

namespace Sys2Proof.Machine

/-- The code of MODE (R27). -/
def modeCode : Mode → BitVec 1
  | .enc => 0
  | .dec => 1

/-- The code of PHASE (R24). -/
def phaseCode : Phase → BitVec 4
  | .idle => 0
  | .init => 1
  | .absorbAd => 2
  | .domsep => 3
  | .process => 4
  | .finalize => 5
  | .emitTag => 6
  | .verifyTag => 7
  | .done => 8

/-- The code of RESULT (R28). -/
def resultCode : ResultCode → BitVec 2
  | .none => 0
  | .ok => 1
  | .structErr => 2
  | .authFail => 3

/-- STATUS.BUSY (R42): PHASE is 1 to 7. -/
def busy : Phase → Bool
  | .idle | .done => false
  | .init | .absorbAd | .domsep | .process | .finalize | .emitTag | .verifyTag => true

/-- STATUS (R42): bit 0 BUSY, bit 1 DONE, bits 3:2 RESULT, the rest 0; no storage of its own. -/
def status (s : State) : BitVec 16 :=
  ((resultCode s.result).setWidth 16 <<< 2) |||
    ((BitVec.ofBool (decide (s.phase = .done))).setWidth 16 <<< 1) |||
    (BitVec.ofBool (busy s.phase)).setWidth 16

/-- PHASE after FINAL (R168): the two directions part here. -/
def afterFinal : Mode → Phase
  | .enc => .emitTag
  | .dec => .verifyTag

/-- RESULT after a fault (R240). -/
def causeResult : Cause → ResultCode
  | .structErr => .structErr
  | .authFail => .authFail

/-- The accumulation of R215: DIFF <- DIFF | (T[i] ^ T'[i]) over all positions, no early exit. -/
def accumulate (diff : Byte) : List Byte → List Byte → Byte
  | t :: ts, u :: us => accumulate (diff ||| (t ^^^ u)) ts us
  | _, _ => diff

/-- The collapse of R216, `(((DIFF - 1) >> 8) & 1) - 1`, in 16-bit signed arithmetic: 0 = equal, -1 = different. -/
def collapse (diff : Byte) : BitVec 16 := (((diff.setWidth 16 - 1).sshiftRight 8) &&& 1) - 1

end Sys2Proof.Machine
end

