-- ==== Sys2Proof/Machine/Operands.lean ====
section
/-! DEFINITION. The operand forms: rotation (R9), byte positions (R8) and the four functions of the Byte/Word Codec (41_codec). -/

namespace Sys2Proof.Machine

/-- Rotation right by k, 0 < k < 64 (R9): bit i of the result is bit (i + k) mod 64 of w. -/
def ror (w : Word) (k : Nat) : Word := (w >>> k) ||| (w <<< (64 - k))

/-- Byte position j of a word, 0 the most significant (R8): `w[63-8j : 56-8j]`. -/
def byteAt (w : Word) (j : Nat) : Byte := w.extractLsb' (56 - 8 * j) 8

/-- LOAD (R140): bytes 0 to n-1 of bs go to byte positions 0 to n-1, the rest is zero. -/
def load (bs : List Byte) : Nat → Word
  | 0 => 0
  | n + 1 => load bs n ||| ((bs.getD n 0).setWidth 64 <<< (56 - 8 * n))

/-- STORE (R141): byte positions 0 to n-1 of the word, in that order. -/
def store (w : Word) (n : Nat) : List Byte := (List.range n).map (byteAt w)

/-- KEEP (R142): byte positions 0 to n-1 are kept, the rest becomes zero. -/
def maskKeep (w : Word) (n : Nat) : Word :=
  if n = 0 then 0 else w &&& (0xffffffffffffffff#64 <<< (64 - 8 * n))

/-- PAD (R143): the most significant bit of byte position n, 0 <= n <= 7. -/
def padWord (n : Nat) : Word := 0x80#64 <<< (56 - 8 * n)

end Sys2Proof.Machine
end

