-- ==== Sys2Proof/Machine/Perm.lean ====
section
/-! DEFINITION. The functions of the Permutation Engine on the five words (40_permutation), and the two whole-state transforms
built from them that INIT and FINAL use. -/

namespace Sys2Proof.Machine

/-- ADDC (R120): c into word 2 by exclusive or. -/
def addConstant (c : Byte) (S : Sponge) : Sponge := { S with x2 := S.x2 ^^^ c.setWidth 64 }

/-- SUBST (R121), the word form: all five results come from the five input words. -/
def substitute (S : Sponge) : Sponge :=
  let a0 := S.x0 ^^^ S.x4
  let a1 := S.x1
  let a2 := S.x2 ^^^ S.x1
  let a3 := S.x3
  let a4 := S.x4 ^^^ S.x3
  let t0 := a0 ^^^ (~~~a1 &&& a2)
  let t1 := a1 ^^^ (~~~a2 &&& a3)
  let t2 := a2 ^^^ (~~~a3 &&& a4)
  let t3 := a3 ^^^ (~~~a4 &&& a0)
  let t4 := a4 ^^^ (~~~a0 &&& a1)
  { x0 := t0 ^^^ t4, x1 := t1 ^^^ t0, x2 := ~~~t2, x3 := t3 ^^^ t2, x4 := t4 }

/-- LDIFF (R122). -/
def diffuse (S : Sponge) : Sponge :=
  { x0 := S.x0 ^^^ ror S.x0 19 ^^^ ror S.x0 28
    x1 := S.x1 ^^^ ror S.x1 61 ^^^ ror S.x1 39
    x2 := S.x2 ^^^ ror S.x2 1 ^^^ ror S.x2 6
    x3 := S.x3 ^^^ ror S.x3 10 ^^^ ror S.x3 17
    x4 := S.x4 ^^^ ror S.x4 7 ^^^ ror S.x4 41 }

/-- ROUND (R123): constant, substitution, diffusion. -/
def roundFn (c : Byte) (S : Sponge) : Sponge := diffuse (substitute (addConstant c S))

/-- The constant of the round with index i (R124). -/
def rc (i : Nat) : Byte := BitVec.ofNat 8 (((15 - (12 - i)) <<< 4) ||| (12 - i))

/-- permute (R125): the rounds with index `rounds` down to 1. -/
def permute (S : Sponge) : Nat → Sponge
  | 0 => S
  | i + 1 => permute (roundFn (rc (i + 1)) S) i

/-- x0 with a word XORed in: how every block enters the state (R20). -/
def Sponge.absorb (S : Sponge) (w : Word) : Sponge := { S with x0 := S.x0 ^^^ w }

/-- The key XORed into words 3 and 4 (R162, R168). -/
def Sponge.whiten (S : Sponge) (k0 k1 : Word) : Sponge := { S with x3 := S.x3 ^^^ k0, x4 := S.x4 ^^^ k1 }

/-- The IV (R162). -/
def IV : Word := 0x80400c0600000000

/-- The state INIT leaves (R162), from the key words and the nonce words. -/
def initSponge (k0 k1 n0 n1 : Word) : Sponge :=
  (permute { x0 := IV, x1 := k0, x2 := k1, x3 := n0, x4 := n1 } 12).whiten k0 k1

/-- The state DOMSEP leaves (R167): bit 0 of word 4 is flipped. -/
def domainSeparate (S : Sponge) : Sponge := { S with x4 := S.x4 ^^^ 1 }

/-- The state FINAL leaves (R168). -/
def finalSponge (k0 k1 : Word) (S : Sponge) : Sponge :=
  (permute { S with x1 := S.x1 ^^^ k0, x2 := S.x2 ^^^ k1 } 12).whiten k0 k1

/-- The tag (R168, R214): word 3, then word 4, most significant byte first. -/
def tagBytes (S : Sponge) : List Byte := store S.x3 8 ++ store S.x4 8

end Sys2Proof.Machine
end

