-- ==== Sys2Proof/Machine/Ops.lean ====
section
/-! DEFINITION. The named operations over memory and registers that the meanings share, and the sequencer (R160). -/

namespace Sys2Proof.Machine

/-! ### One byte space -/

/-- What an address nothing has written reads as: 00. The spec gives no value (R55); DESIGN CHOICE, log entry 3. -/
def blankByte : Byte := 0

/-- One byte. -/
def Memory.get : Memory → Nat → Byte
  | [], _ => blankByte
  | (k, v) :: m, a => if k = a then v else Memory.get m a

/-- One byte written; the canonical form is kept: writing `blankByte` removes the entry. -/
def Memory.set : Memory → Nat → Byte → Memory
  | [], a, b => if b = blankByte then [] else [(a, b)]
  | (k, v) :: m, a, b =>
    if a < k then (if b = blankByte then (k, v) :: m else (a, b) :: (k, v) :: m)
    else if a = k then (if b = blankByte then m else (a, b) :: m)
    else (k, v) :: Memory.set m a b

/-- Every address of m is at least `lo` and they rise strictly; no entry is `blankByte`. -/
def Memory.wfFrom (lo : Nat) : Memory → Bool
  | [] => true
  | (k, v) :: m => decide (lo ≤ k) && decide (v ≠ blankByte) && Memory.wfFrom (k + 1) m

/-- The canonical form. -/
def Memory.wf (m : Memory) : Bool := Memory.wfFrom 0 m

/-- The n bytes at a, a+1, ..., a+n-1, in that order (R10). -/
def Memory.bytes (m : Memory) (a n : Nat) : List Byte := (List.range n).map fun j => m.get (a + j)

/-- The bytes bs written at a, a+1, ... in that order (R10). -/
def Memory.write (m : Memory) (a : Nat) : List Byte → Memory
  | [] => m
  | b :: bs => Memory.write (m.set a b) (a + 1) bs

/-! ### The five spaces -/

/-- The contents of a space. -/
def mem (s : State) : Space → Memory
  | .key => s.key
  | .nonce => s.nonce
  | .ad => s.ad
  | .inp => s.inp
  | .out => s.out

/-- The state with a space's contents replaced. -/
def setMem (s : State) (sp : Space) (m : Memory) : State :=
  match sp with
  | .key => { s with key := m }
  | .nonce => { s with nonce := m }
  | .ad => { s with ad := m }
  | .inp => { s with inp := m }
  | .out => { s with out := m }

/-- The size of a space as a call sees it (R61). OUT is the whole LENW-bit address range: log entry 5. -/
def spaceSize (s : State) : Space → Nat
  | .key => 16
  | .nonce => 16
  | .ad => s.adLen
  | .inp => s.inLen
  | .out => 2 ^ s.params.lenw

/-- The addresses of a space the host can reach (R61): a buffer may be filled before its length is written (R288). -/
def hostSize (s : State) : Space → Nat
  | .key => 16
  | .nonce => 16
  | .ad => 2 ^ s.params.lenw
  | .inp => 2 ^ s.params.lenw
  | .out => 2 ^ s.params.lenw

/-- MemRead (R10): n = 0 touches nothing; an address outside the space does not exist. -/
def memRead (sp : Space) (a n : Nat) (s : State) (k : List Byte → StepOutcome) : StepOutcome :=
  if n = 0 ∨ a + n ≤ spaceSize s sp then k ((mem s sp).bytes a n) else .fault .noSuchAddress

/-- MemWrite to OUT (R10), the only space a step writes (R251). -/
def memWriteOut (a : Nat) (bs : List Byte) (s : State) (k : State → StepOutcome) : StepOutcome :=
  if bs.length = 0 ∨ a + bs.length ≤ spaceSize s .out then k { s with out := s.out.write a bs }
  else .fault .noSuchAddress

/-! ### Registers that may hold no value (R11) -/

/-- The five words; reading them while they hold no value is a fault (R11). -/
def readSponge (s : State) (k : Sponge → StepOutcome) : StepOutcome :=
  match s.x with
  | some S => k S
  | none => .fault .noValue

/-- K0 and K1; the same. -/
def readKey (s : State) (k : Word → Word → StepOutcome) : StepOutcome :=
  match s.k0, s.k1 with
  | some k0, some k1 => k k0 k1
  | _, _ => .fault .noValue

/-! ### The sequencer (R24, R160) -/

/-- Bytes of associated data left; on natural numbers, R9. -/
def adLeft (s : State) : Nat := s.adLen - s.adPos
/-- Bytes of message left. -/
def inLeft (s : State) : Nat := s.mLen - s.inPos

/-- The one controller step that is enabled (R160); none in IDLE and DONE. -/
def nextStep (s : State) : Option Instr :=
  match s.phase with
  | .init => some .init
  | .absorbAd => some (if 8 ≤ adLeft s then .adblk else .adfin)
  | .domsep => some .domsep
  | .process =>
    match s.mode with
    | .enc => some (if 8 ≤ inLeft s then .encblk else .encfin)
    | .dec => some (if 8 ≤ inLeft s then .decblk else .decfin)
  | .finalize => some .final
  | .emitTag => some .tagout
  | .verifyTag => some .tagvfy
  | .idle => none
  | .done => none

/-- A parameter value the spec gives no meaning is refused (R12): LENW is at least 20 (R6). -/
def whenParams (s : State) (k : StepOutcome) : StepOutcome :=
  if 20 ≤ s.params.lenw then k else .refused .illegalParameter

/-- A controller step is refused unless it is the enabled one (R96, 93 U12). -/
def whenEnabled (i : Instr) (s : State) (k : StepOutcome) : StepOutcome :=
  if nextStep s = some i then k else .refused .notEnabled

/-- A command is refused while a call is in progress (R41, 93 U6). -/
def whenFree (s : State) (k : StepOutcome) : StepOutcome :=
  if busy s.phase then .refused .callInProgress else k

/-! ### Trace, end of a call, faults, reset -/

/-- The trace record of a controller step, when TRACE_EN = 1 (R51). -/
def emitTrace (i : Instr) (S : Sponge) (s : State) : State :=
  if s.params.traceEn then { s with trace := s.trace ++ [{ step := i, phase := s.phase, words := S }] } else s

/-- The end of a call (R170): x[0..4], K0, K1 and DIFF hold no value. -/
def endCall (s : State) : State := { s with x := none, k0 := none, k1 := none, diff := none }

/-- TAKING A FAULT (R241, R242, R247): RESULT holds the code, OUTLEN = 0, PHASE = DONE, then the end of the call. There is no
handler, no saved pc and no return (R247, R248): the next command overwrites RESULT. -/
def raise (c : Cause) (s : State) : State :=
  endCall { s with result := causeResult c, outLen := 0, phase := .done }

/-- OUT[0 .. n-1] becomes any value to the host (93 U1, U15). -/
def markOut (n : Nat) (l : List Nat) : List Nat := List.range n ++ l.filter fun a => decide (n ≤ a)

/-- OUT[0 .. n-1] is a result (R292). -/
def clearOut (n : Nat) (l : List Nat) : List Nat := l.filter fun a => decide (n ≤ a)

/-- A successful end (R193, R213): RESULT = OK, OUTLEN = n, PHASE = DONE; the host may read OUT[0 .. n-1] (R292). -/
def succeed (n : Nat) (s : State) : State :=
  { s with result := .ok, outLen := n, phase := .done, outAny := clearOut n s.outAny }

/-- Reset (R280, R55): the spaces are not touched; during a call the OUT bytes written so far become any value (93 U15). -/
def resetEngine (s : State) : State :=
  { s with
    x := none, k0 := none, k1 := none, diff := none
    mode := .enc, phase := .idle
    adPos := 0, inPos := 0, outPos := 0, mLen := 0
    result := .none
    adLen := 0, inLen := 0, outLen := 0
    outAny := if busy s.phase then markOut s.outPos s.outAny else s.outAny }

end Sys2Proof.Machine
end

