-- ==== Sys2Proof/Machine/Codec.lean ====
section
/-! DEFINITION. The meanings of the Byte/Word Codec's unit functions (41_codec) applied by themselves: operands from and results
to the harness port (R93, R96); they write no register and no space (R90). -/

namespace Sys2Proof.Machine

/-- A count above the function's range has no meaning (R144, 93 U4). -/
def whenCount (n max : Nat) (k : StepOutcome) : StepOutcome := if n ≤ max then k else .refused .illegalCount

/-- LOAD n (R140): a byte sequence in, a word out. -/
def execLoad (n : BitVec 4) (s : State) : StepOutcome :=
  whenCount n.toNat 8 <| .next { s with port := { s.port with wordOut := load s.port.bytesIn.toList n.toNat } }

/-- STORE n (R141): a word in, n bytes out. -/
def execStore (n : BitVec 4) (s : State) : StepOutcome :=
  whenCount n.toNat 8 <| .next { s with port := { s.port with bytesOut := store s.port.wordIn n.toNat } }

/-- KEEP n (R142): a word in, a word out. -/
def execKeep (n : BitVec 4) (s : State) : StepOutcome :=
  whenCount n.toNat 8 <| .next { s with port := { s.port with wordOut := maskKeep s.port.wordIn n.toNat } }

/-- PAD n (R143): a word out. -/
def execPad (n : BitVec 4) (s : State) : StepOutcome :=
  whenCount n.toNat 7 <| .next { s with port := { s.port with wordOut := padWord n.toNat } }

end Sys2Proof.Machine
end

