-- ==== Sys2Proof/Machine/Decrypt.lean ====
section
/-! DEFINITION. AEAD Decrypt and Verify (44_aead_decrypt_verify): the command DECRYPT and the steps DECBLK, DECFIN, TAGVFY. -/

namespace Sys2Proof.Machine

/-- DECRYPT (R210), refused during a call (R41). INLEN < 16 takes the fault STRUCT_ERR before any state work (R241). -/
def execDecrypt (s : State) : StepOutcome :=
  whenFree s <|
  let s' := { s with mode := .dec, adPos := 0, inPos := 0, outPos := 0, outLen := 0 }
  if s.inLen < 16 then .next (raise .structErr { s' with mLen := 0 })
  else .next { s' with result := .none, mLen := s.inLen - 16, phase := .init }

/-- DECBLK (R211): OUT takes the plaintext block, word 0 the ciphertext block. -/
def execDecblk (s : State) : StepOutcome :=
  whenEnabled .decblk s <|
  readSponge s fun S =>
  memRead .inp s.inPos 8 s fun bs =>
  let c0 := load bs 8
  memWriteOut s.outPos (store (S.x0 ^^^ c0) 8) s fun s' =>
  let S' := permute { S with x0 := c0 } 6
  .next (emitTrace .decblk S' { s' with x := some S', inPos := s.inPos + 8, outPos := s.outPos + 8 })

/-- DECFIN (R212): n = MLEN - in_pos, 0 to 7; the first n byte positions of word 0 become the ciphertext, the rest is kept. -/
def execDecfin (s : State) : StepOutcome :=
  whenEnabled .decfin s <|
  readSponge s fun S =>
  let n := inLeft s
  memRead .inp s.inPos n s fun bs =>
  let p0 := S.x0 ^^^ load bs n
  memWriteOut s.outPos (store p0 n) s fun s' =>
  let S' := (S.absorb (maskKeep p0 n)).absorb (padWord n)
  .next (emitTrace .decfin S'
    { s' with x := some S', inPos := s.inPos + n, outPos := s.outPos + n, phase := .finalize })

/-- OUT[0 .. MLEN-1] after a mismatch (R217): zero bytes when ZEROIZE_ON_FAIL = 1; any value to the host either way. -/
def spoilOut (s : State) (k : State → StepOutcome) : StepOutcome :=
  let s' := { s with outAny := markOut s.mLen s.outAny }
  if s.params.zeroizeOnFail then memWriteOut 0 (List.replicate s.mLen 0) s' k else k s'

/-- TAGVFY (R213): all 16 bytes are compared (R215), the difference collapsed (R216); then success or the fault AUTH_FAIL. -/
def execTagvfy (s : State) : StepOutcome :=
  whenEnabled .tagvfy s <|
  readSponge s fun S =>
  memRead .inp s.mLen 16 s fun received =>
  let diff := accumulate 0 (tagBytes S) received
  let s' := { s with diff := some diff }
  if collapse diff = 0 then .next (emitTrace .tagvfy S (endCall (succeed s.outPos s')))
  else spoilOut s' fun s'' => .next (emitTrace .tagvfy S (raise .authFail s''))

end Sys2Proof.Machine
end

