-- ==== Sys2Proof/Machine/Encrypt.lean ====
section
/-! DEFINITION. AEAD Encrypt (43_aead_encrypt): the command ENCRYPT and the steps ENCBLK, ENCFIN, TAGOUT. -/

namespace Sys2Proof.Machine

/-- ENCRYPT (R190), refused during a call (R41) and when INLEN > 2^LENW - 17 (R291). -/
def execEncrypt (s : State) : StepOutcome :=
  whenFree s <|
  if s.inLen + 17 ≤ 2 ^ s.params.lenw then
    .next { s with
      mode := .enc, mLen := s.inLen
      adPos := 0, inPos := 0, outPos := 0
      result := .none, outLen := 0
      phase := .init }
  else .refused .inputTooLong

/-- ENCBLK (R191): OUT takes word 0 after the XOR and before the permutation. -/
def execEncblk (s : State) : StepOutcome :=
  whenEnabled .encblk s <|
  readSponge s fun S =>
  memRead .inp s.inPos 8 s fun bs =>
  let A := S.absorb (load bs 8)
  memWriteOut s.outPos (store A.x0 8) s fun s' =>
  let S' := permute A 6
  .next (emitTrace .encblk S' { s' with x := some S', inPos := s.inPos + 8, outPos := s.outPos + 8 })

/-- ENCFIN (R192): n = MLEN - in_pos, 0 to 7; OUT takes n bytes of word 0 before the pad; no permutation. -/
def execEncfin (s : State) : StepOutcome :=
  whenEnabled .encfin s <|
  readSponge s fun S =>
  let n := inLeft s
  memRead .inp s.inPos n s fun bs =>
  let A := S.absorb (load bs n)
  memWriteOut s.outPos (store A.x0 n) s fun s' =>
  let S' := A.absorb (padWord n)
  .next (emitTrace .encfin S'
    { s' with x := some S', inPos := s.inPos + n, outPos := s.outPos + n, phase := .finalize })

/-- TAGOUT (R193), then the end of the call (R170). -/
def execTagout (s : State) : StepOutcome :=
  whenEnabled .tagout s <|
  readSponge s fun S =>
  memWriteOut s.outPos (store S.x3 8) s fun s' =>
  memWriteOut (s.outPos + 8) (store S.x4 8) s' fun s'' =>
  .next (emitTrace .tagout S (endCall (succeed (s.outPos + 16) { s'' with outPos := s.outPos + 16 })))

end Sys2Proof.Machine
end

