-- ==== Sys2Proof/Machine/Permutation.lean ====
section
/-! DEFINITION. The meanings of the Permutation Engine's unit functions (40_permutation): each transforms the five words and
touches no other state and no memory. -/

namespace Sys2Proof.Machine

/-- A function of the five words, applied to them. -/
def onSponge (f : Sponge → Sponge) (s : State) : StepOutcome :=
  readSponge s fun S => .next { s with x := some (f S) }

/-- A round constant outside the table of R124 has no meaning (R94). -/
def whenConstant (c : Byte) (k : StepOutcome) : StepOutcome :=
  if roundConstants.contains c then k else .refused .illegalConstant

/-- ADDC c (R120). -/
def execAddc (c : Byte) (s : State) : StepOutcome := whenConstant c (onSponge (addConstant c) s)

/-- SUBST (R121). -/
def execSubst (s : State) : StepOutcome := onSponge substitute s

/-- LDIFF (R122). -/
def execLdiff (s : State) : StepOutcome := onSponge diffuse s

/-- ROUND c (R123). -/
def execRound (c : Byte) (s : State) : StepOutcome := whenConstant c (onSponge (roundFn c) s)

/-- P6 (R125). -/
def execP6 (s : State) : StepOutcome := onSponge (fun S => permute S 6) s

/-- P12 (R125). -/
def execP12 (s : State) : StepOutcome := onSponge (fun S => permute S 12) s

end Sys2Proof.Machine
end

