-- ==== Sys2Proof/Machine/SpongeSteps.lean ====
section
/-! DEFINITION. The controller steps both directions share (42_sponge_controller): INIT, ADBLK, ADFIN, DOMSEP, FINAL. Each is
atomic, reads before it writes, and is refused unless the sequencer enables it (R96). -/

namespace Sys2Proof.Machine

/-- INIT (R162). -/
def execInit (s : State) : StepOutcome :=
  whenEnabled .init s <|
  memRead .key 0 8 s fun kb0 =>
  memRead .key 8 8 s fun kb1 =>
  memRead .nonce 0 8 s fun nb0 =>
  memRead .nonce 8 8 s fun nb1 =>
  let k0 := load kb0 8
  let k1 := load kb1 8
  let S := initSponge k0 k1 (load nb0 8) (load nb1 8)
  .next (emitTrace .init S
    { s with k0 := some k0, k1 := some k1, x := some S, phase := if 0 < s.adLen then .absorbAd else .domsep })

/-- ADBLK (R164). -/
def execAdblk (s : State) : StepOutcome :=
  whenEnabled .adblk s <|
  readSponge s fun S =>
  memRead .ad s.adPos 8 s fun bs =>
  let S' := permute (S.absorb (load bs 8)) 6
  .next (emitTrace .adblk S' { s with x := some S', adPos := s.adPos + 8 })

/-- ADFIN (R165): n = ADLEN - ad_pos, 0 to 7. -/
def execAdfin (s : State) : StepOutcome :=
  whenEnabled .adfin s <|
  readSponge s fun S =>
  let n := adLeft s
  memRead .ad s.adPos n s fun bs =>
  let S' := permute ((S.absorb (load bs n)).absorb (padWord n)) 6
  .next (emitTrace .adfin S' { s with x := some S', adPos := s.adPos + n, phase := .domsep })

/-- DOMSEP (R167). -/
def execDomsep (s : State) : StepOutcome :=
  whenEnabled .domsep s <|
  readSponge s fun S =>
  let S' := domainSeparate S
  .next (emitTrace .domsep S' { s with x := some S', phase := .process })

/-- FINAL (R168). -/
def execFinal (s : State) : StepOutcome :=
  whenEnabled .final s <|
  readSponge s fun S =>
  readKey s fun k0 k1 =>
  let S' := finalSponge k0 k1 S
  .next (emitTrace .final S' { s with x := some S', phase := afterFinal s.mode })

end Sys2Proof.Machine
end

