-- ==== Sys2Proof/Machine/Dispatch.lean ====
section
/-! DEFINITION. One arm per constructor of Instr. -/

namespace Sys2Proof.Machine

def exec (i : Instr) (s : State) : Host.Outcome State Fault Refusal :=
  match i with
  | .addc c => Sys2Proof.Machine.execAddc c s
  | .subst => Sys2Proof.Machine.execSubst s
  | .ldiff => Sys2Proof.Machine.execLdiff s
  | .round c => Sys2Proof.Machine.execRound c s
  | .p6 => Sys2Proof.Machine.execP6 s
  | .p12 => Sys2Proof.Machine.execP12 s
  | .load n => Sys2Proof.Machine.execLoad n s
  | .store n => Sys2Proof.Machine.execStore n s
  | .keep n => Sys2Proof.Machine.execKeep n s
  | .pad n => Sys2Proof.Machine.execPad n s
  | .init => Sys2Proof.Machine.execInit s
  | .adblk => Sys2Proof.Machine.execAdblk s
  | .adfin => Sys2Proof.Machine.execAdfin s
  | .domsep => Sys2Proof.Machine.execDomsep s
  | .final => Sys2Proof.Machine.execFinal s
  | .encblk => Sys2Proof.Machine.execEncblk s
  | .encfin => Sys2Proof.Machine.execEncfin s
  | .tagout => Sys2Proof.Machine.execTagout s
  | .decblk => Sys2Proof.Machine.execDecblk s
  | .decfin => Sys2Proof.Machine.execDecfin s
  | .tagvfy => Sys2Proof.Machine.execTagvfy s
  | .encrypt => Sys2Proof.Machine.execEncrypt s
  | .decrypt => Sys2Proof.Machine.execDecrypt s

end Sys2Proof.Machine
end

