-- ==== Sys2Proof/Machine/HostPort.lean ====
section
/-! DEFINITION. What the host does to the registers and spaces (R40 to R47, R280, R288 to R295), which control word the next step
runs, and how a word is placed so that the next step runs it. -/

namespace Sys2Proof.Machine

/-- A host write of a length register (R43, R44): refused during a call (93 U6), and when it does not fit LENW bits. -/
def writeLength (value : Nat) (s s' : State) : StepOutcome :=
  whenFree s <| if value < 2 ^ s.params.lenw then .next s' else .refused .valueTooWide

/-- A host register write (R40). A CMD write of a000 or a100 never comes here: `fetch` takes it. -/
def hostWriteReg (number value : Nat) (s : State) : StepOutcome :=
  match number with
  | 0 => .refused .illegalCommand
  | 1 => .refused .readOnlyRegister
  | 2 => writeLength value s { s with adLen := value }
  | 3 => writeLength value s { s with inLen := value }
  | 4 => .refused .readOnlyRegister
  | _ => .refused .noSuchRegister

/-- A host register read (R40): STATUS (R42) and OUTLEN (R45) only. -/
def hostReadReg (number : Nat) (s : State) : StepOutcome :=
  match number with
  | 0 => .refused .writeOnlyRegister
  | 1 => .next { s with readData := (status s).toNat }
  | 2 => .refused .writeOnlyRegister
  | 3 => .refused .writeOnlyRegister
  | 4 => .next { s with readData := s.outLen }
  | _ => .refused .noSuchRegister

/-- The spaces belong to the host only between calls (R66, R289, R290, R292, 93 U8). -/
def whenSpaceFree (sp : Space) (a : Nat) (s : State) (k : StepOutcome) : StepOutcome :=
  if busy s.phase then .refused .spaceInUse
  else if a < hostSize s sp then k
  else .refused .hostAddress

/-- A byte the host writes is no longer any value to it. -/
def hostWriteByte (sp : Space) (a : Nat) (b : Byte) (s : State) : StepOutcome :=
  whenSpaceFree sp a s <|
  let s' := setMem s sp ((mem s sp).set a b)
  .next (match sp with
    | .out => { s' with outAny := s.outAny.filter fun x => decide (x ≠ a) }
    | .key | .nonce | .ad | .inp => s')

/-- A byte the host reads: a free value where the spec says any value (93 U1, U15), else the byte. -/
def hostReadByte (sp : Space) (a : Nat) (s : State) : StepOutcome :=
  whenSpaceFree sp a s <|
  if sp = .out ∧ a ∈ s.outAny then
    .next { s with readData := (Config.freeByte s.freeCtr).toNat, freeCtr := s.freeCtr + 1 }
  else .next { s with readData := ((mem s sp).get a).toNat }

/-- A host action other than a legal command. -/
def hostAct (act : HostAct) (s : State) : StepOutcome :=
  match act with
  | .writeReg number value => hostWriteReg number value s
  | .readReg number => hostReadReg number s
  | .writeByte sp a b => hostWriteByte sp a b s
  | .readByte sp a => hostReadByte sp a s
  | .reset => .next (resetEngine s)

/-- The control word the sequencer issues (R98, R160). -/
def sequencerWord (s : State) : Option (BitVec 16) := (nextStep s).map encode

/-- The control word the next step runs, with the state after its turn is taken: the sequencer's on the engine's turn, a legal
command the host writes to CMD (R41), a word a harness applies (R96). -/
def fetch (s : State) : Option (BitVec 16 × State) :=
  match s.turns with
  | [] => (sequencerWord s).map fun w => (w, s)
  | .engine :: rest => (sequencerWord s).map fun w => (w, { s with turns := rest })
  | .issue cw :: rest => some (cw, { s with turns := rest })
  | .host (.writeReg 0 value) :: rest =>
    if value = 0xa000 ∨ value = 0xa100 then some (BitVec.ofNat 16 value, { s with turns := rest }) else none
  | .host _ :: _ => none

/-- A step that runs no control word: a host action, or the engine waiting in IDLE or DONE (R24, R281). -/
def otherTurn (s : State) : StepOutcome :=
  match s.turns with
  | [] => .next s
  | .engine :: rest => .next { s with turns := rest }
  | .issue _ :: rest => .next { s with turns := rest }
  | .host act :: rest => hostAct act { s with turns := rest }

/-! ### Placing a control word -/

/-- The words and key a harness gives an operation that reads them, where the state has none (R96): zeros. -/
def withOperands (s : State) : State :=
  { s with x := some (s.x.getD ⟨0, 0, 0, 0, 0⟩), k0 := some (s.k0.getD 0), k1 := some (s.k1.getD 0) }

/-- The sequencing state in which the sequencer's next step is `i` (R24): PHASE, MODE, lengths and positions of one short call. -/
def sequencingFor (i : Instr) (s : State) : State :=
  match i with
  | .init => { s with phase := .init }
  | .adblk => { s with phase := .absorbAd, adLen := 8, adPos := 0 }
  | .adfin => { s with phase := .absorbAd, adLen := 1, adPos := 0 }
  | .domsep => { s with phase := .domsep }
  | .final => { s with phase := .finalize }
  | .encblk => { s with phase := .process, mode := .enc, inLen := 8, mLen := 8, inPos := 0, outPos := 0 }
  | .encfin => { s with phase := .process, mode := .enc, inLen := 1, mLen := 1, inPos := 0, outPos := 0 }
  | .tagout => { s with phase := .emitTag, mode := .enc, inLen := 1, mLen := 1, inPos := 1, outPos := 1 }
  | .decblk => { s with phase := .process, mode := .dec, inLen := 24, mLen := 8, inPos := 0, outPos := 0 }
  | .decfin => { s with phase := .process, mode := .dec, inLen := 17, mLen := 1, inPos := 0, outPos := 0 }
  | .tagvfy => { s with phase := .verifyTag, mode := .dec, inLen := 17, mLen := 1, inPos := 1, outPos := 1 }
  | .addc _ | .subst | .ldiff | .round _ | .p6 | .p12 | .load _ | .store _ | .keep _ | .pad _ | .encrypt | .decrypt => s

/-- The state in which the very next step runs the control word. A controller step is placed in the sequencing state that plays
the program counter's role (R23), with the engine to move; a host command is a CMD write in IDLE or DONE (R41); a unit function
(and an illegal word, which the step then refuses) is applied by a harness (R96). -/
def placeWord (cw : BitVec 16) (s : State) : State :=
  match decode cw with
  | .ok i =>
    match i.layer with
    | .controllerStep =>
      { sequencingFor i (if i = .init then s else withOperands s) with turns := .engine :: s.turns }
    | .hostCommand =>
      { s with phase := if busy s.phase then .idle else s.phase, turns := .host (.writeReg 0 cw.toNat) :: s.turns }
    | .unitFunction =>
      match i with
      | .load _ | .store _ | .keep _ | .pad _ => { s with turns := .issue cw :: s.turns }
      | _ => { withOperands s with turns := .issue cw :: s.turns }
  | .error _ => { s with turns := .issue cw :: s.turns }

end Sys2Proof.Machine
end

