-- ==== Sys2Proof/Machine/Step.lean ====
section
/-! DEFINITION. One step: the control word that is due is decoded and run; if none is due, the host acts or the engine waits. -/

namespace Sys2Proof.Machine

/-- One step of the machine (R12); an instance whose parameters have no meaning makes none. -/
def step (s : State) : Host.Outcome State Fault Refusal :=
  whenParams s <|
  match fetch s with
  | some (cw, s') =>
    match decode cw with
    | .ok i => exec i s'
    | .error why => .refused (.illegalWord why)
  | none => otherTurn s

/-- s with the control word placed where the next step fetches it; control words are 16 bits, numbered as the table numbers
them. -/
def State.withFetchWord (s : State) (nbits w : Nat) : State := placeWord (BitVec.ofNat 16 (w % 2 ^ nbits)) s

end Sys2Proof.Machine
end

