-- ==== Sys2Proof/Machine/Reference.lean ====
section
/-! DEFINITION. The spec's second statements of what the machine does: the legal words (R92), the S-box by columns (R127), an operation expanded
into others (R98), and a whole call as a function (R195, R218). No step uses them; statements compare the machine with them. -/

namespace Sys2Proof.Machine

/-! ### The legal control words (R92) -/

/-- The 76 legal control words, row by row of R92. -/
def legalWords : List (BitVec 16) :=
  roundConstants.map (fun c => 0x1000#16 ||| c.setWidth 16) ++ [0x1100, 0x1200]
    ++ roundConstants.map (fun c => 0x1300#16 ||| c.setWidth 16) ++ [0x1406, 0x140c]
    ++ (List.range 9).map (BitVec.ofNat 16 <| 0x2000 + ·) ++ (List.range 9).map (BitVec.ofNat 16 <| 0x2100 + ·)
    ++ (List.range 9).map (BitVec.ofNat 16 <| 0x2200 + ·) ++ (List.range 8).map (BitVec.ofNat 16 <| 0x2300 + ·)
    ++ [0x3000, 0x3100, 0x3200, 0x3300, 0x3400] ++ [0x4000, 0x4100, 0x4200] ++ [0x5000, 0x5100, 0x5200]
    ++ [0xa000, 0xa100]

/-! ### The column view of SUBST (R127) -/

/-- The S-box table of R127. -/
def sboxTable : List Nat :=
  [0x04, 0x0b, 0x1f, 0x14, 0x1a, 0x15, 0x09, 0x02, 0x1b, 0x05, 0x08, 0x12, 0x1d, 0x03, 0x06, 0x1c]
    ++ [0x1e, 0x13, 0x07, 0x0e, 0x00, 0x0d, 0x11, 0x18, 0x10, 0x0c, 0x01, 0x19, 0x16, 0x0a, 0x0f, 0x17]

/-- Column j read as a 5-bit number, word 0 the most significant bit (R127). -/
def column (S : Sponge) (j : Nat) : Nat :=
  (S.x0.getLsbD j).toNat * 16 + (S.x1.getLsbD j).toNat * 8 + (S.x2.getLsbD j).toNat * 4 + (S.x3.getLsbD j).toNat * 2
    + (S.x4.getLsbD j).toNat

/-! ### Expansions (R98) -/

/-- Operations applied one after the other, stopping at the first that gives no next state. -/
def execAll : List Instr → State → StepOutcome
  | [], s => .next s
  | i :: is, s =>
    match exec i s with
    | .next t => execAll is t
    | .fault f => .fault f
    | .refused r => .refused r

/-! ### A call as a function (R195, R218) -/

/-- q whole 8-byte blocks of A absorbed, each followed by P6. -/
def absorbBlocks : Nat → Sponge → List Byte → Sponge
  | 0, S, _ => S
  | q + 1, S, A => absorbBlocks q (permute (S.absorb (load A 8)) 6) (A.drop 8)

/-- The associated-data phase: nothing at all when A is empty (R166). -/
def absorbData (S : Sponge) (A : List Byte) : Sponge :=
  if A.length = 0 then S
  else
    let q := A.length / 8
    let R := A.drop (8 * q)
    permute ((absorbBlocks q S A).absorb (load R R.length ^^^ padWord R.length)) 6

/-- q whole blocks of plaintext: the state after them and the ciphertext. -/
def encBlocks : Nat → Sponge → List Byte → Sponge × List Byte
  | 0, S, _ => (S, [])
  | q + 1, S, P =>
    let A := S.absorb (load P 8)
    let r := encBlocks q (permute A 6) (P.drop 8)
    (r.1, store A.x0 8 ++ r.2)

/-- The data phase of ENCRYPT. -/
def encData (S : Sponge) (P : List Byte) : Sponge × List Byte :=
  let q := P.length / 8
  let r := encBlocks q S P
  let R := P.drop (8 * q)
  let A := r.1.absorb (load R R.length)
  (A.absorb (padWord R.length), r.2 ++ store A.x0 R.length)

/-- q whole blocks of ciphertext: the state after them and the plaintext. -/
def decBlocks : Nat → Sponge → List Byte → Sponge × List Byte
  | 0, S, _ => (S, [])
  | q + 1, S, C =>
    let c0 := load C 8
    let r := decBlocks q (permute { S with x0 := c0 } 6) (C.drop 8)
    (r.1, store (S.x0 ^^^ c0) 8 ++ r.2)

/-- The data phase of DECRYPT. -/
def decData (S : Sponge) (C : List Byte) : Sponge × List Byte :=
  let q := C.length / 8
  let r := decBlocks q S C
  let R := C.drop (8 * q)
  let p0 := r.1.x0 ^^^ load R R.length
  ((r.1.absorb (maskKeep p0 R.length)).absorb (padWord R.length), r.2 ++ store p0 R.length)

/-- Initialization, associated data and domain separation, the same for both directions. -/
def startCall (A K N : List Byte) : Sponge :=
  domainSeparate (absorbData (initSponge (load K 8) (load (K.drop 8) 8) (load N 8) (load (N.drop 8) 8)) A)

/-- The tag of the state the data phase leaves. -/
def finishCall (K : List Byte) (S : Sponge) : List Byte :=
  tagBytes (finalSponge (load K 8) (load (K.drop 8) 8) S)

/-- encrypt(P, A, K, N) (R195). -/
def encryptFn (P A K N : List Byte) : List Byte :=
  let r := encData (startCall A K N) P
  r.2 ++ finishCall K r.1

/-- What decrypt returns (R218). -/
inductive CallResult where
  | ok (plaintext : List Byte)
  | structuralError
  | authenticationFailure
deriving DecidableEq, Repr

/-- decrypt(CT, A, K, N) (R218). -/
def decryptFn (CT A K N : List Byte) : CallResult :=
  if CT.length < 16 then .structuralError
  else
    let C := CT.take (CT.length - 16)
    let r := decData (startCall A K N) C
    if finishCall K r.1 = CT.drop (CT.length - 16) then .ok r.2 else .authenticationFailure

end Sys2Proof.Machine
end

