-- ==== Sys2Proof/Safety.lean ====
section
/-! DEFINITION. What a safe run is, in the terms the statements use: the invariant of the reachable states, how many steps a call
still has, and the part of the state that may decide which step comes next (R300). -/

namespace Sys2Proof.Machine

/-- The phases in which x[0..4], K0 and K1 hold a value (R21, R30). -/
def holdsWords : Phase → Bool
  | .idle | .init | .done => false
  | .absorbAd | .domsep | .process | .finalize | .emitTag | .verifyTag => true

/-- Every entry of a space is at an address the space can have (R61). -/
def Memory.below (n : Nat) (m : Memory) : Bool := m.all fun c => decide (c.1 < n)

/-- The lengths of a call in progress (R25, R26, R291). -/
structure State.CallLengths (s : State) : Prop where
  adPos_le : s.adPos ≤ s.adLen
  inPos_le : s.inPos ≤ s.mLen
  enc : s.mode = .enc → s.mLen = s.inLen ∧ s.inLen + 17 ≤ 2 ^ s.params.lenw
  dec : s.mode = .dec → s.mLen + 16 = s.inLen
  result : s.result = .none
  outLen : s.outLen = 0

/-- Where the positions stand in each phase (R25, R63, R163). -/
def State.positionsFit (s : State) : Prop :=
  match s.phase with
  | .init => s.adPos = 0 ∧ s.inPos = 0 ∧ s.outPos = 0
  | .absorbAd => 0 < s.adLen ∧ s.adPos % 8 = 0 ∧ s.inPos = 0 ∧ s.outPos = 0
  | .domsep => s.adPos = s.adLen ∧ s.inPos = 0 ∧ s.outPos = 0
  | .process => s.adPos = s.adLen ∧ s.inPos % 8 = 0 ∧ s.outPos = s.inPos
  | .finalize => s.adPos = s.adLen ∧ s.inPos = s.mLen ∧ s.outPos = s.mLen
  | .emitTag => s.mode = .enc ∧ s.adPos = s.adLen ∧ s.inPos = s.mLen ∧ s.outPos = s.mLen
  | .verifyTag => s.mode = .dec ∧ s.adPos = s.adLen ∧ s.inPos = s.mLen ∧ s.outPos = s.mLen
  | .idle => s.result = .none ∧ s.outLen = 0
  | .done =>
    s.result ≠ .none ∧ (s.result ≠ .ok → s.outLen = 0) ∧
      (s.result = .ok → s.outLen = s.mLen + if s.mode = .enc then 16 else 0)

/-- The invariant of the reachable states. -/
structure State.Inv (s : State) : Prop where
  /-- R6 -/
  lenw : 20 ≤ s.params.lenw
  /-- the spaces are in canonical form, inside their address range (R61) -/
  memWf : ∀ sp, (mem s sp).wf = true
  memBelow : ∀ sp, (mem s sp).below (hostSize s sp) = true
  /-- the LENW-bit registers fit (R25, R26, R43 to R45) -/
  widths : s.adLen < 2 ^ s.params.lenw ∧ s.inLen < 2 ^ s.params.lenw ∧ s.outLen < 2 ^ s.params.lenw ∧
    s.mLen < 2 ^ s.params.lenw ∧ s.adPos < 2 ^ s.params.lenw ∧ s.inPos < 2 ^ s.params.lenw ∧
    s.outPos < 2 ^ s.params.lenw
  /-- which registers hold a value (R21, R29, R30, R55, R170) -/
  words : s.x.isSome = holdsWords s.phase
  keys : s.k0.isSome = holdsWords s.phase ∧ s.k1.isSome = holdsWords s.phase
  diff : s.diff = none
  /-- a call in progress (R25, R26, R28) -/
  lengths : busy s.phase = true → s.CallLengths
  positions : s.positionsFit
  /-- the OUT addresses that are any value to the host, each once -/
  outAny : s.outAny.Pairwise (· < ·)

/-- The host drives the engine through its registers and spaces only: no harness word is lined up (R96). -/
def State.hostOnly (s : State) : Prop := ∀ cw, Turn.issue cw ∉ s.turns

/-- How many controller steps the call in progress still has (R169). -/
def stepsLeft (s : State) : Nat :=
  match s.phase with
  | .idle | .done => 0
  | .init => 5 + s.mLen / 8 + if 0 < s.adLen then s.adLen / 8 + 1 else 0
  | .absorbAd => 5 + s.mLen / 8 + adLeft s / 8
  | .domsep => 4 + s.mLen / 8
  | .process => 3 + inLeft s / 8
  | .finalize => 2
  | .emitTag | .verifyTag => 1

/-- The controller steps of a whole call that passes the length check (R169): A = ADLEN, M = MLEN. -/
def callSteps (A M : Nat) : Nat := 5 + M / 8 + if 0 < A then A / 8 + 1 else 0

/-- Two states that differ only in data: KEY, NONCE, AD, IN, OUT bytes and the values of the words (R300). -/
structure SameControl (s t : State) : Prop where
  params : s.params = t.params
  turns : s.turns = t.turns
  phase : s.phase = t.phase
  mode : s.mode = t.mode
  positions : s.adPos = t.adPos ∧ s.inPos = t.inPos ∧ s.outPos = t.outPos
  lengths : s.adLen = t.adLen ∧ s.inLen = t.inLen ∧ s.mLen = t.mLen
  held : s.x.isSome = t.x.isSome ∧ s.k0.isSome = t.k0.isSome ∧ s.k1.isSome = t.k1.isSome

/-- The addresses a controller step reads, as (space, address, count), in order (R64). -/
def readAddresses (i : Instr) (s : State) : List (Space × Nat × Nat) :=
  match i with
  | .init => [(.key, 0, 8), (.key, 8, 8), (.nonce, 0, 8), (.nonce, 8, 8)]
  | .adblk => [(.ad, s.adPos, 8)]
  | .adfin => [(.ad, s.adPos, adLeft s)]
  | .encblk | .decblk => [(.inp, s.inPos, 8)]
  | .encfin | .decfin => [(.inp, s.inPos, inLeft s)]
  | .tagvfy => [(.inp, s.mLen, 16)]
  | .addc _ | .subst | .ldiff | .round _ | .p6 | .p12 | .load _ | .store _ | .keep _ | .pad _ | .domsep | .final
  | .tagout | .encrypt | .decrypt => []

/-- The OUT addresses an operation writes, as (address, count) (R64), but for the zeroizing of R217. -/
def writeAddresses (i : Instr) (s : State) : Nat × Nat :=
  match i with
  | .encblk | .decblk => (s.outPos, 8)
  | .encfin | .decfin => (s.outPos, inLeft s)
  | .tagout => (s.outPos, 16)
  | .addc _ | .subst | .ldiff | .round _ | .p6 | .p12 | .load _ | .store _ | .keep _ | .pad _ | .init | .adblk
  | .adfin | .domsep | .final | .tagvfy | .encrypt | .decrypt => (s.outPos, 0)

end Sys2Proof.Machine
end

