-- ==== Sys2Proof/Certificates/Slice0/Obligations.lean ====
section
/-! DEFINITION. The statements for the provers. In a statement about one step, `trace := t.trace`, `outAny := t.outAny` and
`out := t.out` in the frame mean that these fields are spoken of elsewhere: the trace in `TraceShowsControllerStepsOnly`, the marks
in `OutMarksFollowTheCall`, OUT in the clauses that follow. A step of an instance whose LENW is below 20 is refused (R6, R12), which
`StepRunsDecodedInstruction` states; what the other statements say of one step, beyond that it is refused, is of instances whose
LENW is at least 20. -/

open Sys2Proof Sys2Proof.Machine

/-! ### Encoding (30_encoding) -/

/-- Decoding the word of a well-formed instruction gives it back, for every operand the encoding admits (R92, R93). -/
def Obligations.DecodeOfEncode : Prop :=
  ∀ i : Instr, i.wellFormed = true → decode (encode i) = .ok i

/-- A word that decodes is the word of the instruction it decodes to, which is well-formed: no two words share a meaning and no
bit of a word is ignored (R92, R94). -/
def Obligations.EncodeOfDecode : Prop :=
  ∀ (cw : BitVec 16) (i : Instr), decode cw = .ok i → i.wellFormed = true ∧ encode i = cw

/-- R92, row by row. -/
def Obligations.OpcodeMapDecodes : Prop :=
  (∀ c ∈ roundConstants, decode (0x1000#16 ||| c.setWidth 16) = .ok (.addc c)) ∧
  decode 0x1100 = .ok .subst ∧ decode 0x1200 = .ok .ldiff ∧
  (∀ c ∈ roundConstants, decode (0x1300#16 ||| c.setWidth 16) = .ok (.round c)) ∧
  decode 0x1406 = .ok .p6 ∧ decode 0x140c = .ok .p12 ∧
  (∀ n : BitVec 4, n.toNat ≤ 8 → decode (0x2000#16 ||| n.setWidth 16) = .ok (.load n)) ∧
  (∀ n : BitVec 4, n.toNat ≤ 8 → decode (0x2100#16 ||| n.setWidth 16) = .ok (.store n)) ∧
  (∀ n : BitVec 4, n.toNat ≤ 8 → decode (0x2200#16 ||| n.setWidth 16) = .ok (.keep n)) ∧
  (∀ n : BitVec 4, n.toNat ≤ 7 → decode (0x2300#16 ||| n.setWidth 16) = .ok (.pad n)) ∧
  decode 0x3000 = .ok .init ∧ decode 0x3100 = .ok .adblk ∧ decode 0x3200 = .ok .adfin ∧
  decode 0x3300 = .ok .domsep ∧ decode 0x3400 = .ok .final ∧
  decode 0x4000 = .ok .encblk ∧ decode 0x4100 = .ok .encfin ∧ decode 0x4200 = .ok .tagout ∧
  decode 0x5000 = .ok .decblk ∧ decode 0x5100 = .ok .decfin ∧ decode 0x5200 = .ok .tagvfy ∧
  decode 0xa000 = .ok .encrypt ∧ decode 0xa100 = .ok .decrypt

/-- R94: the 76 words of R92 are the legal ones; any other is refused by the step that would run it, a CMD write of any word but
a000 and a100 is refused, so neither raises STRUCT_ERR or AUTH_FAIL; the sequencer produces only legal words. -/
def Obligations.IllegalWordsAreRefused : Prop :=
  legalWords.length = 76 ∧ legalWords.Nodup ∧
  (∀ cw, cw ∈ legalWords ↔ ∃ i, decode cw = .ok i) ∧
  (∀ (s s' : State) (cw : BitVec 16), fetch s = some (cw, s') → cw ∉ legalWords →
    ∃ r, step s = .refused r ∧ (20 ≤ s.params.lenw → ∃ why, r = .illegalWord why)) ∧
  (∀ (s : State) (value : Nat) (rest : List Turn), s.turns = .host (.writeReg 0 value) :: rest →
    value ≠ 0xa000 → value ≠ 0xa100 → ∃ r, step s = .refused r ∧ (20 ≤ s.params.lenw → r = .illegalCommand)) ∧
  (∀ (s : State) (i : Instr), nextStep s = some i → encode i ∈ legalWords)

/-- A step runs the decoded instruction: on the state the fetch leaves (its turn taken, nothing else changed), it is exec. With
LENW below 20, a parameter value without a meaning, every step is refused (R6, R12). The queue of turns is the model's own (log
entry 7). -/
def Obligations.StepRunsDecodedInstruction : Prop :=
  (∀ (s s' : State) (cw : BitVec 16) (i : Instr), 20 ≤ s.params.lenw → fetch s = some (cw, s') → decode cw = .ok i →
    step s = exec i s' ∧ s' = { s with turns := s.turns.tail }) ∧
  (∀ s : State, s.params.lenw < 20 → step s = .refused .illegalParameter)

/-- The engine's own turn (R160): the sequencer's step is decoded from its control word and run; with none enabled the engine
waits. The queue of turns is the model's own (log entry 7). -/
def Obligations.EngineTurnRunsSequencerStep : Prop :=
  ∀ (s : State) (rest : List Turn), 20 ≤ s.params.lenw → (s.turns = [] ∧ rest = [] ∨ s.turns = .engine :: rest) →
    (∀ i, nextStep s = some i → step s = exec i { s with turns := rest }) ∧
    (busy s.phase = false → step s = .next { s with turns := rest })

/-! ### Permutation Engine (40_permutation) -/

/-- R120: word 2 takes c by exclusive or, only its bits 7 to 0 can change, nothing else does; a second ADDC c restores it. A
constant outside the table is refused. -/
def Obligations.AddcResult : Prop :=
  ∀ (s : State) (c : BitVec 8),
    (∀ S : Sponge, c ∈ roundConstants → s.x = some S →
      exec (.addc c) s = .next { s with x := some { S with x2 := S.x2 ^^^ c.setWidth 64 } } ∧
      (∀ j, 8 ≤ j → (S.x2 ^^^ c.setWidth 64).getLsbD j = S.x2.getLsbD j) ∧
      exec (.addc c) { s with x := some { S with x2 := S.x2 ^^^ c.setWidth 64 } } = .next s) ∧
    (c ∉ roundConstants → exec (.addc c) s = .refused .illegalConstant)

/-- R127: every column is replaced by its S-box image, by the table and by the five equations; the table has no entry twice.
Only the five words change. -/
def Obligations.SubstReplacesColumns : Prop :=
  sboxTable.Nodup ∧ sboxTable.length = 32 ∧
  ∀ (s : State) (S : Sponge), s.x = some S → ∃ T, exec .subst s = .next { s with x := some T } ∧
    ∀ j, j < 64 → sboxTable[column S j]? = some (column T j) ∧
      (let x0 := S.x0.getLsbD j
       let x1 := S.x1.getLsbD j
       let x2 := S.x2.getLsbD j
       let x3 := S.x3.getLsbD j
       let x4 := S.x4.getLsbD j
       T.x0.getLsbD j = ((x4 && x1) ^^ x3 ^^ (x2 && x1) ^^ x2 ^^ (x1 && x0) ^^ x1 ^^ x0) ∧
       T.x1.getLsbD j = (x4 ^^ (x3 && x2) ^^ (x3 && x1) ^^ x3 ^^ (x2 && x1) ^^ x2 ^^ x1 ^^ x0) ∧
       T.x2.getLsbD j = ((x4 && x3) ^^ x4 ^^ x2 ^^ x1 ^^ true) ∧
       T.x3.getLsbD j = ((x4 && x0) ^^ x4 ^^ (x3 && x0) ^^ x3 ^^ x2 ^^ x1 ^^ x0) ∧
       T.x4.getLsbD j = ((x4 && x1) ^^ x4 ^^ x3 ^^ (x1 && x0) ^^ x1))

/-- R122: each word is XORed with two copies of itself rotated right by that word's amounts, bit by bit; only the five words
change. -/
def Obligations.LdiffRotates : Prop :=
  ∀ (s : State) (S : Sponge), s.x = some S → ∃ T, exec .ldiff s = .next { s with x := some T } ∧
    ∀ j, j < 64 →
      T.x0.getLsbD j = (S.x0.getLsbD j ^^ S.x0.getLsbD ((j + 19) % 64) ^^ S.x0.getLsbD ((j + 28) % 64)) ∧
      T.x1.getLsbD j = (S.x1.getLsbD j ^^ S.x1.getLsbD ((j + 61) % 64) ^^ S.x1.getLsbD ((j + 39) % 64)) ∧
      T.x2.getLsbD j = (S.x2.getLsbD j ^^ S.x2.getLsbD ((j + 1) % 64) ^^ S.x2.getLsbD ((j + 6) % 64)) ∧
      T.x3.getLsbD j = (S.x3.getLsbD j ^^ S.x3.getLsbD ((j + 10) % 64) ^^ S.x3.getLsbD ((j + 17) % 64)) ∧
      T.x4.getLsbD j = (S.x4.getLsbD j ^^ S.x4.getLsbD ((j + 7) % 64) ^^ S.x4.getLsbD ((j + 41) % 64))

/-- R123: ROUND c is ADDC c, then SUBST, then LDIFF; only the five words change. A constant outside the table is refused. -/
def Obligations.RoundIsThreeLayers : Prop :=
  ∀ (s : State) (c : BitVec 8),
    (∀ S : Sponge, c ∈ roundConstants → s.x = some S →
      ∃ T, exec (.round c) s = .next { s with x := some T } ∧
        execAll [.addc c, .subst, .ldiff] s = .next { s with x := some T }) ∧
    (c ∉ roundConstants → exec (.round c) s = .refused .illegalConstant)

/-- R125: P12 is its twelve rounds in order, P6 the last six of them, P12 the first six and then P6; only the five words
change. -/
def Obligations.PermutationsAreTheirRounds : Prop :=
  ∀ (s : State) (S : Sponge), s.x = some S →
    ∃ T U, exec .p12 s = .next { s with x := some T } ∧ exec .p6 s = .next { s with x := some U } ∧
      execAll [.round 0xf0, .round 0xe1, .round 0xd2, .round 0xc3, .round 0xb4, .round 0xa5,
        .round 0x96, .round 0x87, .round 0x78, .round 0x69, .round 0x5a, .round 0x4b] s
        = .next { s with x := some T } ∧
      execAll [.round 0x96, .round 0x87, .round 0x78, .round 0x69, .round 0x5a, .round 0x4b] s
        = .next { s with x := some U } ∧
      execAll [.round 0xf0, .round 0xe1, .round 0xd2, .round 0xc3, .round 0xb4, .round 0xa5, .p6] s
        = .next { s with x := some T }

/-- The permutation is a bijection on the states (R125, from R120, R122, R127). -/
def Obligations.PermutationIsBijective : Prop :=
  Function.Bijective (fun S => permute S 12) ∧ Function.Bijective (fun S => permute S 6)

/-! ### Byte/Word Codec (41_codec) -/

/-- R140: byte j of the sequence goes to byte position j for j < n, the rest is zero; only the harness's result word changes
(the harness port is the model's own, log entry 4). -/
def Obligations.LoadResult : Prop :=
  ∀ (s : State) (n : BitVec 4), n.toNat ≤ 8 →
    ∃ w, exec (.load n) s = .next { s with port := { s.port with wordOut := w } } ∧
      ∀ (j : Nat) (hj : j < 8), byteAt w j = if j < n.toNat then s.port.bytesIn[j] else 0

/-- R141: byte positions 0 to n-1 in that order, n bytes; only the harness's result bytes change
(the harness port is the model's own, log entry 4). -/
def Obligations.StoreResult : Prop :=
  ∀ (s : State) (n : BitVec 4), n.toNat ≤ 8 →
    ∃ bs, exec (.store n) s = .next { s with port := { s.port with bytesOut := bs } } ∧ bs.length = n.toNat ∧
      ∀ j, j < n.toNat → bs[j]? = some (byteAt s.port.wordIn j)

/-- R142: byte positions 0 to n-1 kept, n to 7 zero; only the harness's result word changes
(the harness port is the model's own, log entry 4). -/
def Obligations.KeepResult : Prop :=
  ∀ (s : State) (n : BitVec 4), n.toNat ≤ 8 →
    ∃ w, exec (.keep n) s = .next { s with port := { s.port with wordOut := w } } ∧
      ∀ j, j < 8 → byteAt w j = if j < n.toNat then byteAt s.port.wordIn j else 0

/-- R143: exactly one bit, 63 - 8n; only the harness's result word changes
(the harness port is the model's own, log entry 4). -/
def Obligations.PadResult : Prop :=
  ∀ (s : State) (n : BitVec 4), n.toNat ≤ 7 →
    ∃ w, exec (.pad n) s = .next { s with port := { s.port with wordOut := w } } ∧
      ∀ j, w.getLsbD j = decide (j = 63 - 8 * n.toNat)

/-- R144: a count outside the range is refused, and every count a controller step passes is 8 or a remaining length below 8. -/
def Obligations.CountsAreInRange : Prop :=
  (∀ (s : State) (n : BitVec 4), 8 < n.toNat →
    exec (.load n) s = .refused .illegalCount ∧ exec (.store n) s = .refused .illegalCount ∧
      exec (.keep n) s = .refused .illegalCount) ∧
  (∀ (s : State) (n : BitVec 4), 7 < n.toNat → exec (.pad n) s = .refused .illegalCount) ∧
  (∀ s : State, exec .adfin s ≠ .refused .notEnabled → adLeft s ≤ 7) ∧
  (∀ s : State, exec .encfin s ≠ .refused .notEnabled ∨ exec .decfin s ≠ .refused .notEnabled → inLeft s ≤ 7)

/-- R145, the seven laws. -/
def Obligations.CodecLaws : Prop :=
  ∀ (w : Word) (bs : List Byte) (n m : Nat), n ≤ 8 → m ≤ 8 → bs.length = n →
    store (load bs n) n = bs ∧
    load (store w n) n = maskKeep w n ∧
    maskKeep (load bs n) n = load bs n ∧
    maskKeep (maskKeep w n) m = maskKeep w (min n m) ∧
    (n ≤ 7 → load bs n &&& padWord n = 0) ∧
    store (w ^^^ load bs n) n = List.zipWith (· ^^^ ·) (store w n) bs ∧
    (∀ j, j < 8 → byteAt (w ^^^ maskKeep (w ^^^ load bs n) n) j = if j < n then bs.getD j 0 else byteAt w j)

/-! ### Registers that hold no value (R11) -/

/-- R11: reading a register that holds no value is a fault, in every operation that reads the words or the key latch. -/
def Obligations.ReadingNoValueFaults : Prop :=
  (∀ s : State, s.x = none →
    (∀ c ∈ roundConstants, exec (.addc c) s = .fault .noValue ∧ exec (.round c) s = .fault .noValue) ∧
    exec .subst s = .fault .noValue ∧ exec .ldiff s = .fault .noValue ∧
    exec .p6 s = .fault .noValue ∧ exec .p12 s = .fault .noValue ∧
    (∀ i, nextStep s = some i → i ≠ .init → exec i s = .fault .noValue)) ∧
  (∀ s : State, s.phase = .finalize → s.k0 = none ∨ s.k1 = none → exec .final s = .fault .noValue)

/-! ### Sponge Controller (42_sponge_controller) -/

/-- R160: during a call exactly one controller step is enabled, outside a call none. -/
def Obligations.ExactlyOneStepEnabled : Prop :=
  ∀ s : State,
    (busy s.phase = true → ∃! i : Instr, i.layer = .controllerStep ∧ exec i s ≠ .refused .notEnabled) ∧
    (busy s.phase = false → ∀ i : Instr, i.layer = .controllerStep → exec i s = .refused .notEnabled)

/-- R24, R96, R160: the enabling condition of each controller step; in any other state it is refused. -/
def Obligations.EnablingConditions : Prop :=
  ∀ s : State,
    (exec .init s = .refused .notEnabled ↔ ¬ s.phase = .init) ∧
    (exec .adblk s = .refused .notEnabled ↔ ¬ (s.phase = .absorbAd ∧ 8 ≤ s.adLen - s.adPos)) ∧
    (exec .adfin s = .refused .notEnabled ↔ ¬ (s.phase = .absorbAd ∧ s.adLen - s.adPos < 8)) ∧
    (exec .domsep s = .refused .notEnabled ↔ ¬ s.phase = .domsep) ∧
    (exec .encblk s = .refused .notEnabled ↔ ¬ (s.phase = .process ∧ s.mode = .enc ∧ 8 ≤ s.mLen - s.inPos)) ∧
    (exec .encfin s = .refused .notEnabled ↔ ¬ (s.phase = .process ∧ s.mode = .enc ∧ s.mLen - s.inPos < 8)) ∧
    (exec .decblk s = .refused .notEnabled ↔ ¬ (s.phase = .process ∧ s.mode = .dec ∧ 8 ≤ s.mLen - s.inPos)) ∧
    (exec .decfin s = .refused .notEnabled ↔ ¬ (s.phase = .process ∧ s.mode = .dec ∧ s.mLen - s.inPos < 8)) ∧
    (exec .final s = .refused .notEnabled ↔ ¬ s.phase = .finalize) ∧
    (exec .tagout s = .refused .notEnabled ↔ ¬ s.phase = .emitTag) ∧
    (exec .tagvfy s = .refused .notEnabled ↔ ¬ s.phase = .verifyTag)

/-- R160, the phase transitions: where each operation leaves PHASE. -/
def Obligations.PhaseTransitions : Prop :=
  ∀ (s t : State) (i : Instr), exec i s = .next t →
    match i with
    | .encrypt => (s.phase = .idle ∨ s.phase = .done) ∧ t.phase = .init
    | .decrypt => (s.phase = .idle ∨ s.phase = .done) ∧
        (16 ≤ s.inLen → t.phase = .init) ∧ (s.inLen < 16 → t.phase = .done ∧ t.result = .structErr)
    | .init => s.phase = .init ∧ (0 < s.adLen → t.phase = .absorbAd) ∧ (s.adLen = 0 → t.phase = .domsep)
    | .adblk => s.phase = .absorbAd ∧ t.phase = .absorbAd
    | .adfin => s.phase = .absorbAd ∧ t.phase = .domsep
    | .domsep => s.phase = .domsep ∧ t.phase = .process
    | .encblk | .decblk => s.phase = .process ∧ t.phase = .process
    | .encfin | .decfin => s.phase = .process ∧ t.phase = .finalize
    | .final => s.phase = .finalize ∧ (s.mode = .enc → t.phase = .emitTag) ∧ (s.mode = .dec → t.phase = .verifyTag)
    | .tagout => s.phase = .emitTag ∧ t.phase = .done ∧ t.result = .ok
    | .tagvfy => s.phase = .verifyTag ∧ t.phase = .done ∧ (t.result = .ok ∨ t.result = .authFail)
    | .addc _ | .subst | .ldiff | .round _ | .p6 | .p12 | .load _ | .store _ | .keep _ | .pad _ => t.phase = s.phase

/-- R162: INIT, whole. -/
def Obligations.InitResult : Prop :=
  ∀ s : State, s.phase = .init →
    let K0 := load (s.key.bytes 0 8) 8
    let K1 := load (s.key.bytes 8 8) 8
    let P := permute ⟨0x80400c0600000000, K0, K1, load (s.nonce.bytes 0 8) 8, load (s.nonce.bytes 8 8) 8⟩ 12
    ∃ t, exec .init s = .next t ∧
      t = { s with
        k0 := some K0, k1 := some K1, x := some { P with x3 := P.x3 ^^^ K0, x4 := P.x4 ^^^ K1 }
        phase := if 0 < s.adLen then .absorbAd else .domsep, trace := t.trace }

/-- R164: ADBLK, whole. -/
def Obligations.AdblkResult : Prop :=
  ∀ (s : State) (S : Sponge), s.phase = .absorbAd → s.adPos + 8 ≤ s.adLen → s.x = some S →
    ∃ t, exec .adblk s = .next t ∧
      t = { s with
        x := some (permute { S with x0 := S.x0 ^^^ load (s.ad.bytes s.adPos 8) 8 } 6)
        adPos := s.adPos + 8, trace := t.trace }

/-- R165: ADFIN, whole; with n = 0 no byte is read, the pad bit is XORed and the permutation still runs. -/
def Obligations.AdfinResult : Prop :=
  ∀ (s : State) (S : Sponge) (n : Nat), s.phase = .absorbAd → s.adPos + n = s.adLen → n < 8 → s.x = some S →
    ∃ t, exec .adfin s = .next t ∧
      t = { s with
        x := some (permute { S with x0 := S.x0 ^^^ load (s.ad.bytes s.adPos n) n ^^^ padWord n } 6)
        adPos := s.adLen, phase := .domsep, trace := t.trace }

/-- R167: DOMSEP, whole: exactly bit 0 of word 4 is flipped. -/
def Obligations.DomsepFlipsOneBit : Prop :=
  ∀ (s : State) (S : Sponge), s.phase = .domsep → s.x = some S →
    ∃ t w, exec .domsep s = .next t ∧
      t = { s with x := some { S with x4 := w }, phase := .process, trace := t.trace } ∧
      ∀ j, j < 64 → w.getLsbD j = if j = 0 then !S.x4.getLsbD 0 else S.x4.getLsbD j

/-- R168: FINAL, whole, and the tag of the words it leaves. -/
def Obligations.FinalResult : Prop :=
  ∀ (s : State) (S : Sponge) (K0 K1 : Word), s.phase = .finalize → s.x = some S → s.k0 = some K0 → s.k1 = some K1 →
    let P := permute { S with x1 := S.x1 ^^^ K0, x2 := S.x2 ^^^ K1 } 12
    ∃ t, exec .final s = .next t ∧
      t = { s with
        x := some { P with x3 := P.x3 ^^^ K0, x4 := P.x4 ^^^ K1 }
        phase := if s.mode = .enc then .emitTag else .verifyTag, trace := t.trace } ∧
      (∀ T, t.x = some T → tagBytes T = store (P.x3 ^^^ K0) 8 ++ store (P.x4 ^^^ K1) 8)

/-! ### AEAD Encrypt (43_aead_encrypt) -/

/-- R190: ENCRYPT, whole; refused during a call (R41) and when INLEN > 2^LENW - 17 (R291). -/
def Obligations.EncryptStartsACall : Prop :=
  ∀ s : State,
    (busy s.phase = false → s.inLen + 17 ≤ 2 ^ s.params.lenw →
      exec .encrypt s = .next { s with
        mode := .enc, mLen := s.inLen, adPos := 0, inPos := 0, outPos := 0
        result := .none, outLen := 0, phase := .init }) ∧
    (busy s.phase = true → exec .encrypt s = .refused .callInProgress) ∧
    (busy s.phase = false → 2 ^ s.params.lenw < s.inLen + 17 → exec .encrypt s = .refused .inputTooLong)

/-- R191: ENCBLK, whole: OUT takes word 0 after the XOR and before the permutation; every other byte reads as before. -/
def Obligations.EncblkResult : Prop :=
  ∀ (s : State) (S : Sponge), s.phase = .process → s.mode = .enc → s.inPos + 8 ≤ s.mLen → s.mLen ≤ s.inLen →
    s.outPos + 8 ≤ 2 ^ s.params.lenw → s.x = some S → s.out.wf = true →
    let c := S.x0 ^^^ load (s.inp.bytes s.inPos 8) 8
    ∃ t, exec .encblk s = .next t ∧
      t = { s with
        x := some (permute { S with x0 := c } 6), inPos := s.inPos + 8, outPos := s.outPos + 8
        out := t.out, trace := t.trace } ∧
      t.out.bytes s.outPos 8 = store c 8 ∧
      (∀ a, a < s.outPos ∨ s.outPos + 8 ≤ a → t.out.get a = s.out.get a) ∧ t.out.wf = true

/-- R192: ENCFIN, whole: n bytes, taken after the XOR of the plaintext and before the pad; no permutation. -/
def Obligations.EncfinResult : Prop :=
  ∀ (s : State) (S : Sponge) (n : Nat), s.phase = .process → s.mode = .enc → s.inPos + n = s.mLen → n < 8 →
    s.mLen ≤ s.inLen → s.outPos + n ≤ 2 ^ s.params.lenw → s.x = some S → s.out.wf = true →
    let c := S.x0 ^^^ load (s.inp.bytes s.inPos n) n
    ∃ t, exec .encfin s = .next t ∧
      t = { s with
        x := some { S with x0 := c ^^^ padWord n }, inPos := s.mLen, outPos := s.outPos + n
        phase := .finalize, out := t.out, trace := t.trace } ∧
      t.out.bytes s.outPos n = store c n ∧
      (∀ a, a < s.outPos ∨ s.outPos + n ≤ a → t.out.get a = s.out.get a) ∧ t.out.wf = true

/-- R193: TAGOUT, whole, then the end of the call (R170): 16 bytes of words 3 and 4, OUTLEN, RESULT = OK, PHASE = DONE. -/
def Obligations.TagoutResult : Prop :=
  ∀ (s : State) (S : Sponge), s.phase = .emitTag → s.outPos + 16 ≤ 2 ^ s.params.lenw → s.x = some S →
    s.out.wf = true →
    ∃ t, exec .tagout s = .next t ∧
      t = { s with
        x := none, k0 := none, k1 := none, diff := none
        outPos := s.outPos + 16, outLen := s.outPos + 16, result := .ok, phase := .done
        outAny := t.outAny, out := t.out, trace := t.trace } ∧
      t.out.bytes s.outPos 8 = store S.x3 8 ∧ t.out.bytes (s.outPos + 8) 8 = store S.x4 8 ∧
      (∀ a, a < s.outPos ∨ s.outPos + 16 ≤ a → t.out.get a = s.out.get a) ∧ t.out.wf = true

/-! ### AEAD Decrypt and Verify (44_aead_decrypt_verify) -/

/-- R210: DECRYPT, whole: the length check comes first, and INLEN < 16 raises STRUCT_ERR (R241) with no state work; refused
during a call (R41). After STRUCT_ERR x[0..4], K0, K1 and DIFF hold no value, by the end of the call (R247, R170); R210 and R241 say
that they are not written, and that both leave one state is the model's reading (log entry 8). -/
def Obligations.DecryptStartsACall : Prop :=
  ∀ s : State,
    (busy s.phase = false → 16 ≤ s.inLen →
      exec .decrypt s = .next { s with
        mode := .dec, mLen := s.inLen - 16, adPos := 0, inPos := 0, outPos := 0
        result := .none, outLen := 0, phase := .init }) ∧
    (busy s.phase = false → s.inLen < 16 →
      exec .decrypt s = .next { s with
        mode := .dec, mLen := 0, adPos := 0, inPos := 0, outPos := 0
        result := .structErr, outLen := 0, phase := .done
        x := none, k0 := none, k1 := none, diff := none }) ∧
    (busy s.phase = true → exec .decrypt s = .refused .callInProgress)

/-- R211: DECBLK, whole: OUT takes the plaintext, word 0 the ciphertext block. -/
def Obligations.DecblkResult : Prop :=
  ∀ (s : State) (S : Sponge), s.phase = .process → s.mode = .dec → s.inPos + 8 ≤ s.mLen → s.mLen ≤ s.inLen →
    s.outPos + 8 ≤ 2 ^ s.params.lenw → s.x = some S → s.out.wf = true →
    let c0 := load (s.inp.bytes s.inPos 8) 8
    ∃ t, exec .decblk s = .next t ∧
      t = { s with
        x := some (permute { S with x0 := c0 } 6), inPos := s.inPos + 8, outPos := s.outPos + 8
        out := t.out, trace := t.trace } ∧
      t.out.bytes s.outPos 8 = store (S.x0 ^^^ c0) 8 ∧
      (∀ a, a < s.outPos ∨ s.outPos + 8 ≤ a → t.out.get a = s.out.get a) ∧ t.out.wf = true

/-- R212: DECFIN, whole: byte positions 0 to n-1 of word 0 become the ciphertext bytes, n to 7 are kept, then the pad bit. -/
def Obligations.DecfinResult : Prop :=
  ∀ (s : State) (S : Sponge) (n : Nat), s.phase = .process → s.mode = .dec → s.inPos + n = s.mLen → n < 8 →
    s.mLen ≤ s.inLen → s.outPos + n ≤ 2 ^ s.params.lenw → s.x = some S → s.out.wf = true →
    let bs := s.inp.bytes s.inPos n
    ∃ t w, exec .decfin s = .next t ∧
      t = { s with
        x := some { S with x0 := w ^^^ padWord n }, inPos := s.mLen, outPos := s.outPos + n
        phase := .finalize, out := t.out, trace := t.trace } ∧
      (∀ j, j < 8 → byteAt w j = if j < n then bs.getD j 0 else byteAt S.x0 j) ∧
      t.out.bytes s.outPos n = store (S.x0 ^^^ load bs n) n ∧
      (∀ a, a < s.outPos ∨ s.outPos + n ≤ a → t.out.get a = s.out.get a) ∧ t.out.wf = true

/-- R213 with R214, R217, R242: TAGVFY. The 16 tag bytes equal: RESULT = OK, OUTLEN = out_pos. Any of them different: the fault
AUTH_FAIL, OUTLEN = 0, OUT[0 .. MLEN-1] zero when ZEROIZE_ON_FAIL = 1 and as it was otherwise. Both end the call (R170). -/
def Obligations.TagvfyDecidesTheCall : Prop :=
  ∀ (s : State) (S : Sponge), s.phase = .verifyTag → s.mLen + 16 ≤ s.inLen → s.mLen ≤ 2 ^ s.params.lenw →
    s.x = some S → s.out.wf = true →
    ∃ t, exec .tagvfy s = .next t ∧
      (store S.x3 8 ++ store S.x4 8 = s.inp.bytes s.mLen 16 →
        t = { s with
          x := none, k0 := none, k1 := none, diff := none
          outLen := s.outPos, result := .ok, phase := .done, outAny := t.outAny, trace := t.trace }) ∧
      (store S.x3 8 ++ store S.x4 8 ≠ s.inp.bytes s.mLen 16 →
        t = { s with
          x := none, k0 := none, k1 := none, diff := none
          outLen := 0, result := .authFail, phase := .done, outAny := t.outAny, out := t.out, trace := t.trace } ∧
        (∀ a, t.out.get a = if s.params.zeroizeOnFail = true ∧ a < s.mLen then 0 else s.out.get a) ∧
        t.out.wf = true)

/-- R215: the accumulator holds bit k exactly when some pair of bytes differs in bit k, and is 0 exactly when all are equal. -/
def Obligations.AccumulatorShowsDifferences : Prop :=
  ∀ T U : List Byte, T.length = U.length →
    (∀ k, k < 8 → ((accumulate 0 T U).getLsbD k = true ↔
      ∃ i, ∃ (h : i < T.length) (h' : i < U.length), T[i].getLsbD k ≠ U[i].getLsbD k)) ∧
    (accumulate 0 T U = 0 ↔ T = U)

/-- R216: the collapse is 0 for DIFF = 0 and -1 for every other DIFF. -/
def Obligations.CollapseTable : Prop :=
  ∀ diff : Byte, (diff = 0 → (collapse diff).toInt = 0) ∧ (diff ≠ 0 → (collapse diff).toInt = -1)

/-! ### Host interface (10_state) -/

/-- R42: STATUS by its fields, its values after reset and after each outcome of a call; a write to it is refused. -/
def Obligations.StatusFields : Prop :=
  ∀ s : State,
    ((status s).getLsbD 0 = true ↔ 1 ≤ (phaseCode s.phase).toNat ∧ (phaseCode s.phase).toNat ≤ 7) ∧
    ((status s).getLsbD 1 = true ↔ (phaseCode s.phase).toNat = 8) ∧
    ((status s).extractLsb' 2 2 = resultCode s.result) ∧
    (∀ j, 4 ≤ j → (status s).getLsbD j = false) ∧
    ¬ ((status s).getLsbD 0 = true ∧ (status s).getLsbD 1 = true) ∧
    (s.phase = .idle → s.result = .none → status s = 0x0000) ∧
    (s.phase = .done →
      (s.result = .ok → status s = 0x0006) ∧ (s.result = .structErr → status s = 0x000a) ∧
      (s.result = .authFail → status s = 0x000e)) ∧
    status State.reset = 0x0000 ∧
    (∀ v rest, s.turns = .host (.writeReg 1 v) :: rest →
      ∃ r, step s = .refused r ∧ (20 ≤ s.params.lenw → r = .readOnlyRegister))

/-- R40: the register numbers and who may read or write each; any other number is refused. The writes of CMD are in
`CommandsThroughCmd`. That a read's answer stands in readData is the model's own (log entry 14); that OUTLEN reads as its content in
every phase, and that a read of ADLEN or INLEN and a write of OUTLEN are refused, is the model's reading (log entries 11, 18). -/
def Obligations.RegisterNumbers : Prop :=
  ∀ (s : State) (rest : List Turn) (n v : Nat), 20 ≤ s.params.lenw →
    (s.turns = .host (.readReg n) :: rest →
      (n = 0 ∨ n = 2 ∨ n = 3 → step s = .refused .writeOnlyRegister) ∧
      (n = 1 → step s = .next { s with turns := rest, readData := (status s).toNat }) ∧
      (n = 4 → step s = .next { s with turns := rest, readData := s.outLen }) ∧
      (5 ≤ n → step s = .refused .noSuchRegister)) ∧
    (s.turns = .host (.writeReg n v) :: rest →
      (n = 1 ∨ n = 4 → step s = .refused .readOnlyRegister) ∧
      (5 ≤ n → step s = .refused .noSuchRegister) ∧
      (busy s.phase = false → v < 2 ^ s.params.lenw →
        (n = 2 → step s = .next { s with turns := rest, adLen := v }) ∧
        (n = 3 → step s = .next { s with turns := rest, inLen := v })))

/-- R41: a write of a000 or a100 to CMD in IDLE or DONE issues the command; any other value, any write during a call and any read
is refused. -/
def Obligations.CommandsThroughCmd : Prop :=
  ∀ (s : State) (rest : List Turn),
    (∀ v, s.turns = .host (.writeReg 0 v) :: rest →
      (20 ≤ s.params.lenw → busy s.phase = false → v = 0xa000 → step s = exec .encrypt { s with turns := rest }) ∧
      (20 ≤ s.params.lenw → busy s.phase = false → v = 0xa100 → step s = exec .decrypt { s with turns := rest }) ∧
      (v ≠ 0xa000 → v ≠ 0xa100 → ∃ r, step s = .refused r) ∧
      (busy s.phase = true → ∃ r, step s = .refused r)) ∧
    (s.turns = .host (.readReg 0) :: rest →
      ∃ r, step s = .refused r ∧ (20 ≤ s.params.lenw → r = .writeOnlyRegister))

/-- R43, R44: ADLEN and INLEN take a value of LENW bits in IDLE or DONE; a write during a call and a wider value are refused.
The refusal of a wider value is the model's reading (log entry 18; R43 and R44 give the legal values, R12 refuses what has
no meaning). -/
def Obligations.LengthWrites : Prop :=
  ∀ (s : State) (rest : List Turn) (n v : Nat), 20 ≤ s.params.lenw → n = 2 ∨ n = 3 →
    s.turns = .host (.writeReg n v) :: rest →
    (busy s.phase = false → v < 2 ^ s.params.lenw →
      step s = .next { s with
        turns := rest, adLen := if n = 2 then v else s.adLen, inLen := if n = 3 then v else s.inLen }) ∧
    (busy s.phase = true → step s = .refused .callInProgress) ∧
    (busy s.phase = false → 2 ^ s.params.lenw ≤ v → step s = .refused .valueTooWide)

/-- Between calls a host byte write changes that byte of that space and no other byte of any space (R66, R68); during a call every
host access to a space is refused (R289, R290, R292). The range of an AD, IN or OUT address, the refusal of a read during a call,
the marks and readData are the model's choices (log entries 5, 6, 12, 14). -/
def Obligations.HostByteAccess : Prop :=
  ∀ (s : State) (rest : List Turn) (sp : Space) (a : Nat) (b : Byte), 20 ≤ s.params.lenw →
    (s.turns = .host (.writeByte sp a b) :: rest →
      (busy s.phase = true → step s = .refused .spaceInUse) ∧
      (busy s.phase = false → a < hostSize s sp → (mem s sp).wf = true →
        ∃ t, step s = .next t ∧ (mem t sp).get a = b ∧ (mem t sp).wf = true ∧
          (∀ sp' a', sp' ≠ sp ∨ a' ≠ a → (mem t sp').get a' = (mem s sp').get a') ∧
          t = { s with
            turns := rest, key := t.key, nonce := t.nonce, ad := t.ad, inp := t.inp, out := t.out
            outAny := t.outAny } ∧
          (∀ x, x ∈ t.outAny ↔ x ∈ s.outAny ∧ ¬ (sp = .out ∧ x = a)))) ∧
    (s.turns = .host (.readByte sp a) :: rest →
      (busy s.phase = true → step s = .refused .spaceInUse) ∧
      (busy s.phase = false → a < hostSize s sp → ¬ (sp = .out ∧ a ∈ s.outAny) →
        step s = .next { s with turns := rest, readData := ((mem s sp).get a).toNat }) ∧
      (busy s.phase = false → a < hostSize s sp → sp = .out ∧ a ∈ s.outAny →
        ∃ v, step s = .next { s with turns := rest, readData := v, freeCtr := s.freeCtr + 1 }))

/-- R47: what a host read answers is the same in two states that differ in x[0..4], K0, K1, DIFF, the position counters, MLEN, MODE
or in PHASE beyond BUSY and DONE. A read's answer is readData (log entry 14). -/
def Obligations.HostReadsShowNoSecret : Prop :=
  ∀ (s t : State) (act : HostAct), (∃ n, act = .readReg n) ∨ (∃ sp a, act = .readByte sp a) →
    s.params = t.params → s.result = t.result → s.outLen = t.outLen → busy s.phase = busy t.phase →
    (s.phase = .done ↔ t.phase = .done) → (∀ sp, mem s sp = mem t sp) → s.outAny = t.outAny → s.freeCtr = t.freeCtr →
    (∀ s', hostAct act s = .next s' → ∃ t', hostAct act t = .next t' ∧ t'.readData = s'.readData) ∧
    (∀ r, hostAct act s = .refused r → hostAct act t = .refused r)

/-! ### Reset, the end of a call, the trace (10_state, 60_exceptions, 70_reset_and_hazards) -/

/-- R55: reset (R280), in any state, at any time. The spaces are not touched. That the parameters and the model's own fields
stay is the model's choice (log entry 14), and that the trace stays too (log entries 10, 14). -/
def Obligations.ResetGivesResetState : Prop :=
  ∀ (s : State) (rest : List Turn), 20 ≤ s.params.lenw → s.turns = .host .reset :: rest →
    ∃ t, step s = .next t ∧
      t = { State.reset with
        params := s.params, key := s.key, nonce := s.nonce, ad := s.ad, inp := s.inp, out := s.out
        outAny := t.outAny, trace := s.trace, port := s.port, turns := rest, readData := s.readData
        freeCtr := s.freeCtr } ∧
      status t = 0

/-- The OUT addresses that are any value to the host (93 U1, U15): OUT[0 .. MLEN-1] after AUTH_FAIL, the bytes written so far after
a reset during a call, none of OUT[0 .. OUTLEN-1] after OK; nothing else changes the marks, but for the host's own byte writes
(`HostByteAccess`). The field outAny is the model's own (log entry 6). -/
def Obligations.OutMarksFollowTheCall : Prop :=
  (∀ (s t : State) (i : Instr) (a : Nat), exec i s = .next t →
    (i ≠ .tagout → i ≠ .tagvfy → (a ∈ t.outAny ↔ a ∈ s.outAny)) ∧
    (i = .tagout ∨ (i = .tagvfy ∧ t.result = .ok) → (a ∈ t.outAny ↔ a ∈ s.outAny ∧ t.outLen ≤ a)) ∧
    (i = .tagvfy → t.result = .authFail → (a ∈ t.outAny ↔ a ∈ s.outAny ∨ a < s.mLen))) ∧
  (∀ (s t : State) (rest : List Turn) (a : Nat), s.turns = .host .reset :: rest → step s = .next t →
    (a ∈ t.outAny ↔ a ∈ s.outAny ∨ (busy s.phase = true ∧ a < s.outPos)))

/-- R170, R247: when a step ends a call, x[0..4], K0, K1 and DIFF hold no value, and STATUS reads 0006, 000a or 000e with OUTLEN = 0
after a fault. -/
def Obligations.EndedCallsHoldNoValue : Prop :=
  ∀ (s t : State) (i : Instr), exec i s = .next t → t.phase = .done → s.phase ≠ .done ∨ i = .decrypt →
    t.x = none ∧ t.k0 = none ∧ t.k1 = none ∧ t.diff = none ∧
    ((t.result = .ok ∧ status t = 0x0006) ∨ (t.result = .structErr ∧ status t = 0x000a ∧ t.outLen = 0) ∨
      (t.result = .authFail ∧ status t = 0x000e ∧ t.outLen = 0))

/-- R295: a call in progress ends early only by reset: any other step that leaves BUSY is TAGOUT or TAGVFY. -/
def Obligations.OnlyResetEndsACallEarly : Prop :=
  ∀ s t : State, busy s.phase = true → step s = .next t → busy t.phase = false →
    (∃ rest, s.turns = .host .reset :: rest ∧ t.phase = .idle) ∨
    (∃ cw s', fetch s = some (cw, s') ∧ (decode cw = .ok .tagout ∨ decode cw = .ok .tagvfy) ∧ t.phase = .done)

/-- R51, with the record's form of log entry 10: with TRACE_EN = 1 a controller step adds one record, its own with the words after
it; nothing else adds any, and with TRACE_EN = 0 nothing does. -/
def Obligations.TraceShowsControllerStepsOnly : Prop :=
  ∀ (s t : State) (i : Instr), exec i s = .next t →
    (s.params.traceEn = false ∨ i.layer ≠ .controllerStep → t.trace = s.trace) ∧
    (s.params.traceEn = true → i.layer = .controllerStep →
      ∃ S, t.trace = s.trace ++ [{ step := i, phase := t.phase, words := S }] ∧
        (t.x = some S ∨ (t.x = none ∧ s.x = some S)))

/-- R64, R251: no operation writes KEY, NONCE, AD, IN, ADLEN, INLEN or a parameter, and OUT changes only in the bytes R64 names:
at out_pos, as many as the step writes, and for TAGVFY none, or OUT[0 .. MLEN-1] when it zeroizes. -/
def Obligations.OperationsWriteOnlyOut : Prop :=
  ∀ (s t : State) (i : Instr), exec i s = .next t →
    (t.key = s.key ∧ t.nonce = s.nonce ∧ t.ad = s.ad ∧ t.inp = s.inp ∧ t.adLen = s.adLen ∧ t.inLen = s.inLen ∧
      t.params = s.params ∧ t.turns = s.turns ∧ t.readData = s.readData ∧ t.freeCtr = s.freeCtr) ∧
    (∀ a, a < (writeAddresses i s).1 ∨ (writeAddresses i s).1 + (writeAddresses i s).2 ≤ a →
      ¬ (i = .tagvfy ∧ s.params.zeroizeOnFail = true ∧ t.result = .authFail ∧ a < s.mLen) →
      t.out.get a = s.out.get a)

/-! ### Invariants and safety -/

/-- The reset state meets the invariant. -/
def Obligations.ResetMeetsInvariant : Prop := State.reset.Inv

/-- Every step keeps the invariant: the spaces stay canonical and inside their range, the LENW-bit registers fit, x[0..4], K0, K1
hold a value exactly in the phases between INIT and the end of the call, DIFF at no step boundary, and the positions stand where
the phase says (R20, R21, R25, R26, R28, R29, R30). -/
def Obligations.StepKeepsInvariant : Prop :=
  ∀ s t : State, s.Inv → step s = .next t → t.Inv

/-- From a state that meets the invariant, driven through the host interface, no step faults: no word without a value is ever read
(R20, R126) and no address outside a space is accessed (R65). -/
def Obligations.NoStepFaults : Prop :=
  ∀ s : State, s.Inv → s.hostOnly → ∀ f, step s ≠ .fault f

/-- The engine's own turn always answers a next state: nothing in the lengths or data stops a call (R12, R242, R301). -/
def Obligations.EngineTurnNeverStops : Prop :=
  ∀ s : State, s.Inv → (s.turns = [] ∨ ∃ rest, s.turns = .engine :: rest) → ∃ t, step s = .next t

/-- R169: a call in progress ends after exactly the steps it still has, and is in progress at every step before. -/
def Obligations.CallsTerminate : Prop :=
  ∀ s : State, s.Inv → s.turns = [] → busy s.phase = true →
    (∃ t : State, Host.Core.run core (stepsLeft s) s = .next t ∧ t.phase = .done ∧ t.Inv) ∧
    (∀ k, k < stepsLeft s → ∃ u : State, Host.Core.run core k s = .next u ∧ busy u.phase = true) ∧
    (s.phase = .init → stepsLeft s = callSteps s.adLen s.mLen)

/-- R300: two runs that start from states differing only in data make the same steps, have the same addresses in the tables
`readAddresses` and `writeAddresses` (R64), and stay in states that differ only in data. R300's exception is not in these tables:
with ZEROIZE_ON_FAIL = 1 a TAGVFY whose tags differ writes OUT[0 .. MLEN-1] (R217) and one whose tags are equal does not. -/
def Obligations.ControlIsDataIndependent : Prop :=
  ∀ s t : State, s.Inv → SameControl s t → ∀ (k : Nat) (s' : State), Host.Core.run core k s = .next s' →
    ∃ t' : State, Host.Core.run core k t = .next t' ∧ SameControl s' t' ∧ nextStep s' = nextStep t' ∧
      (∀ i, readAddresses i s' = readAddresses i t' ∧ writeAddresses i s' = writeAddresses i t')

/-! ### The call as a whole (R194, R195, R218, R219) -/

/-- R194, R195: ENCRYPT issued from IDLE or DONE runs to DONE in 1 + callSteps steps; OUT then holds encrypt(P, A, K, N) and no
other byte of OUT has changed, whatever the state held before. -/
def Obligations.EncryptCallComputesEncrypt : Prop :=
  ∀ s : State, s.Inv → busy s.phase = false → s.turns = [.host (.writeReg 0 0xa000)] →
    s.inLen + 17 ≤ 2 ^ s.params.lenw →
    ∃ t : State, Host.Core.run core (1 + callSteps s.adLen s.inLen) s = .next t ∧
      t.phase = .done ∧ t.result = .ok ∧ t.outLen = s.inLen + 16 ∧
      t.out.bytes 0 (s.inLen + 16) =
        encryptFn (s.inp.bytes 0 s.inLen) (s.ad.bytes 0 s.adLen) (s.key.bytes 0 16) (s.nonce.bytes 0 16) ∧
      (∀ a, s.inLen + 16 ≤ a → t.out.get a = s.out.get a)

/-- R218: DECRYPT issued from IDLE or DONE runs to DONE with the outcome of decrypt(CT, A, K, N), in 1 + callSteps steps: the
plaintext in OUT and RESULT = OK, or RESULT = AUTH_FAIL and OUTLEN = 0; with INLEN < 16 the command itself ends the call with
STRUCT_ERR, and OUT is as it was. -/
def Obligations.DecryptCallComputesDecrypt : Prop :=
  ∀ s : State, s.Inv → busy s.phase = false → s.turns = [.host (.writeReg 0 0xa100)] →
    ∃ t : State,
      Host.Core.run core (1 + if s.inLen < 16 then 0 else callSteps s.adLen (s.inLen - 16)) s = .next t ∧
      t.phase = .done ∧
      match decryptFn (s.inp.bytes 0 s.inLen) (s.ad.bytes 0 s.adLen) (s.key.bytes 0 16) (s.nonce.bytes 0 16) with
      | .ok P => t.result = .ok ∧ t.outLen = s.inLen - 16 ∧ t.out.bytes 0 (s.inLen - 16) = P ∧
          (∀ a, s.inLen - 16 ≤ a → t.out.get a = s.out.get a)
      | .authenticationFailure => t.result = .authFail ∧ t.outLen = 0
      | .structuralError => s.inLen < 16 ∧ t.result = .structErr ∧ t.outLen = 0 ∧ t.out = s.out

/-- R219, first law: decrypting what encrypt gives, with the same associated data, key and nonce, gives the plaintext. -/
def Obligations.DecryptInvertsEncrypt : Prop :=
  ∀ P A K N : List Byte, K.length = 16 → N.length = 16 → decryptFn (encryptFn P A K N) A K N = .ok P

/-- R219, the certain part of the second law: with the ciphertext as encrypt gave it, every other tag is rejected. -/
def Obligations.TamperedTagIsRejected : Prop :=
  ∀ P A K N C T : List Byte, K.length = 16 → N.length = 16 → T.length = 16 → C.length = P.length →
    C ++ T ≠ encryptFn P A K N → C = (encryptFn P A K N).take P.length →
    decryptFn (C ++ T) A K N = .authenticationFailure

/-- R211, R212: on the ciphertext bytes the encrypt step wrote, the decrypt step of the same size leaves the same five words and
positions, and writes the plaintext bytes the encrypt step read. -/
def Obligations.DecryptStepUndoesEncryptStep : Prop :=
  ∀ (s t u : State) (e d : Instr), (e = .encblk ∧ d = .decblk) ∨ (e = .encfin ∧ d = .decfin) →
    s.mLen ≤ s.inLen → s.inPos ≤ s.mLen → s.out.wf = true → exec e s = .next t →
    u = { s with mode := .dec, inp := u.inp } →
    u.inp.bytes s.inPos (writeAddresses e s).2 = t.out.bytes s.outPos (writeAddresses e s).2 →
    ∃ v, exec d u = .next v ∧ v.x = t.x ∧ v.inPos = t.inPos ∧ v.outPos = t.outPos ∧ v.phase = t.phase ∧
      v.out.bytes s.outPos (writeAddresses e s).2 = s.inp.bytes s.inPos (writeAddresses e s).2
end

