-- ==== Sys2Proof/Laws/Codec.lean ====
section
/-! SUPPORT. The codec by byte positions: what byte position j of each function's result is. -/

namespace Sys2Proof.Machine

theorem getLsbD_byteAt (w : Word) (j i : Nat) :
    (byteAt w j).getLsbD i = (decide (i < 8) && w.getLsbD (56 - 8 * j + i)) := by
  simp [byteAt, BitVec.getLsbD_extractLsb']

/-- A word is its eight byte positions. -/
theorem word_ext_bytes {w v : Word} (h : ∀ j, j < 8 → byteAt w j = byteAt v j) : w = v := by
  apply BitVec.eq_of_getLsbD_eq
  intro i hi
  have hb := congrArg (BitVec.getLsbD · (i % 8)) (h (7 - i / 8) (by omega))
  simp only [getLsbD_byteAt] at hb
  have e : 56 - 8 * (7 - i / 8) + i % 8 = i := by omega
  have h8 : i % 8 < 8 := Nat.mod_lt _ (by decide)
  simpa [e, h8] using hb

@[simp] theorem byteAt_zero (j : Nat) : byteAt 0#64 j = 0#8 := by
  apply BitVec.eq_of_getLsbD_eq; intro i _; simp [getLsbD_byteAt]

@[simp] theorem byteAt_xor (w v : Word) (j : Nat) : byteAt (w ^^^ v) j = byteAt w j ^^^ byteAt v j := by
  apply BitVec.eq_of_getLsbD_eq; intro i hi
  simp only [getLsbD_byteAt, BitVec.getLsbD_xor, hi, decide_true, Bool.true_and]

@[simp] theorem byteAt_or (w v : Word) (j : Nat) : byteAt (w ||| v) j = byteAt w j ||| byteAt v j := by
  apply BitVec.eq_of_getLsbD_eq; intro i hi
  simp only [getLsbD_byteAt, BitVec.getLsbD_or, hi, decide_true, Bool.true_and]

@[simp] theorem byteAt_and (w v : Word) (j : Nat) : byteAt (w &&& v) j = byteAt w j &&& byteAt v j := by
  apply BitVec.eq_of_getLsbD_eq; intro i hi
  simp only [getLsbD_byteAt, BitVec.getLsbD_and, hi, decide_true, Bool.true_and]

/-- One byte placed at byte position n. -/
theorem byteAt_placed (b : Byte) {j n : Nat} (hj : j < 8) (hn : n < 8) :
    byteAt (b.setWidth 64 <<< (56 - 8 * n)) j = if j = n then b else 0 := by
  apply BitVec.eq_of_getLsbD_eq
  intro i hi
  simp only [getLsbD_byteAt, hi, decide_true, Bool.true_and, BitVec.getLsbD_shiftLeft, BitVec.getLsbD_setWidth]
  by_cases h : j = n
  · subst h
    simp [hi, show 56 - 8 * j + i < 64 by omega, show i < 64 by omega]
  · rw [if_neg h]
    rcases Nat.lt_or_gt_of_ne h with h | h
    · rw [BitVec.getLsbD_of_ge b _ (by omega)]; simp
    · simp [show 56 - 8 * j + i < 56 - 8 * n by omega]

/-- LOAD: bytes 0 to n-1 in the first n byte positions, zero beyond (R140). -/
theorem byteAt_load (bs : List Byte) {n j : Nat} (hn : n ≤ 8) (hj : j < 8) :
    byteAt (load bs n) j = if j < n then bs.getD j 0 else 0 := by
  induction n with
  | zero => simp [load]
  | succ n ih =>
    rw [load, byteAt_or, ih (by omega), byteAt_placed _ hj (by omega)]
    by_cases h : j = n
    · subst h; simp
    · have : j < n + 1 ↔ j < n := by omega
      simp [h, this]

/-- PAD: 80 in byte position n (R143). -/
theorem byteAt_padWord {n j : Nat} (hn : n < 8) (hj : j < 8) :
    byteAt (padWord n) j = if j = n then 0x80 else 0 :=
  byteAt_placed 0x80 hj hn

/-- KEEP: the first n byte positions kept, zero beyond (R142). -/
theorem byteAt_maskKeep (w : Word) {n j : Nat} (hn : n ≤ 8) (hj : j < 8) :
    byteAt (maskKeep w n) j = if j < n then byteAt w j else 0 := by
  unfold maskKeep
  by_cases h0 : n = 0
  · simp [h0]
  · rw [if_neg h0]
    apply BitVec.eq_of_getLsbD_eq
    intro i hi
    have hm : (0xffffffffffffffff#64 : Word) = BitVec.allOnes 64 := by decide
    simp only [getLsbD_byteAt, hi, decide_true, Bool.true_and, BitVec.getLsbD_and, hm, BitVec.getLsbD_shiftLeft,
      BitVec.getLsbD_allOnes]
    by_cases h : j < n
    · rw [if_pos h, getLsbD_byteAt]
      simp [hi, show 56 - 8 * j + i < 64 by omega, show ¬ 56 - 8 * j + i < 64 - 8 * n by omega,
        show 56 - 8 * j + i - (64 - 8 * n) < 64 by omega]
    · simp [h, show 56 - 8 * j + i < 64 - 8 * n by omega]

@[simp] theorem length_store (w : Word) (n : Nat) : (store w n).length = n := by simp [store]

@[simp] theorem getElem_store (w : Word) (n j : Nat) (h : j < (store w n).length) : (store w n)[j] = byteAt w j := by
  simp [store]

theorem getD_store (w : Word) {n j : Nat} (h : j < n) : (store w n).getD j 0 = byteAt w j := by
  have hl : j < (store w n).length := by simpa using h
  rw [List.getD_eq_getElem _ _ hl, getElem_store]

/-- LOAD looks at the first n bytes only (R140). -/
theorem load_congr {bs cs : List Byte} {n : Nat} (h : ∀ j, j < n → bs.getD j 0 = cs.getD j 0) : load bs n = load cs n := by
  induction n with
  | zero => rfl
  | succ n ih => rw [load, load, ih fun j hj => h j (by omega), h n (by omega)]

/-- LOAD of a longer sequence reads its first n bytes (R140). -/
theorem load_append {bs cs : List Byte} {n : Nat} (h : bs.length = n) : load (bs ++ cs) n = load bs n := by
  apply load_congr
  intro j hj
  rw [List.getD_eq_getElem _ _ (by rw [List.length_append]; omega), List.getD_eq_getElem _ _ (by omega),
    List.getElem_append_left]

end Sys2Proof.Machine
end

