-- ==== Sys2Proof/Laws/Memory.lean ====
section
/-! SUPPORT. One byte space: what a write changes and what it leaves, and that every operation keeps the canonical form. -/

namespace Sys2Proof.Machine

@[simp] theorem Memory.get_nil (a : Nat) : Memory.get [] a = blankByte := rfl

theorem Memory.wfFrom_mono {m : Memory} {lo lo' : Nat} (h : m.wfFrom lo = true) (hl : lo' ≤ lo) :
    m.wfFrom lo' = true := by
  cases m with
  | nil => rfl
  | cons c m =>
    simp only [Memory.wfFrom, Bool.and_eq_true, decide_eq_true_eq] at h ⊢
    exact ⟨⟨by omega, h.1.2⟩, h.2⟩

/-- Below its first possible address a canonical memory lists nothing. -/
theorem Memory.get_of_wfFrom_lt {m : Memory} {lo a : Nat} (h : m.wfFrom lo = true) (ha : a < lo) :
    m.get a = blankByte := by
  induction m generalizing lo with
  | nil => rfl
  | cons c m ih =>
    simp only [Memory.wfFrom, Bool.and_eq_true, decide_eq_true_eq] at h
    have hne : c.1 ≠ a := by omega
    simp only [Memory.get, if_neg hne]
    exact ih h.2 (by omega)

/-- A write leaves every other address alone, in any memory. -/
theorem Memory.get_set_ne {m : Memory} {a a' : Nat} (b : Byte) (h : a' ≠ a) : (m.set a b).get a' = m.get a' := by
  induction m with
  | nil => by_cases hb : b = blankByte <;> simp [Memory.set, Memory.get, hb, h.symm]
  | cons c m ih =>
    simp only [Memory.set]
    split
    · split <;> simp [Memory.get, h.symm]
    · split
      · next hk => subst hk; split <;> simp [Memory.get, h.symm]
      · simp only [Memory.get, ih]

/-- A byte written is the byte read, in a canonical memory. -/
theorem Memory.get_set_same {m : Memory} {lo : Nat} (h : m.wfFrom lo = true) (a : Nat) (b : Byte) :
    (m.set a b).get a = b := by
  induction m generalizing lo with
  | nil => by_cases hb : b = blankByte <;> simp [Memory.set, Memory.get, hb]
  | cons c m ih =>
    simp only [Memory.wfFrom, Bool.and_eq_true, decide_eq_true_eq] at h
    simp only [Memory.set]
    split
    · next hlt =>
      split
      · next hb =>
        have hne : c.1 ≠ a := by omega
        simp only [Memory.get, if_neg hne, hb]
        exact Memory.get_of_wfFrom_lt h.2 (by omega)
      · simp [Memory.get]
    · split
      · next heq =>
        split
        · next hb => rw [hb]; exact Memory.get_of_wfFrom_lt h.2 (by omega)
        · simp [Memory.get]
      · next hne =>
        have hne' : c.1 ≠ a := fun e => hne e.symm
        simp only [Memory.get, if_neg hne']
        exact ih h.2

theorem Memory.wfFrom_set {m : Memory} {lo a : Nat} (b : Byte) (h : m.wfFrom lo = true) (ha : lo ≤ a) :
    (m.set a b).wfFrom lo = true := by
  induction m generalizing lo with
  | nil => by_cases hb : b = blankByte <;> simp [Memory.set, Memory.wfFrom, hb, ha]
  | cons c m ih =>
    simp only [Memory.wfFrom, Bool.and_eq_true, decide_eq_true_eq] at h
    obtain ⟨⟨h1, h2⟩, h3⟩ := h
    simp only [Memory.set]
    split
    · next hlt =>
      split
      · simp [Memory.wfFrom, h1, h2, h3]
      · next hb => simp [Memory.wfFrom, ha, hb, h2, h3]; omega
    · split
      · next heq =>
        split
        · exact Memory.wfFrom_mono h3 (by omega)
        · next hb => subst heq; simp [Memory.wfFrom, h1, hb, h3]
      · simp only [Memory.wfFrom, Bool.and_eq_true, decide_eq_true_eq]
        exact ⟨⟨h1, h2⟩, ih h3 (by omega)⟩

/-- One byte written keeps the canonical form. -/
theorem Memory.wf_set {m : Memory} (a : Nat) (b : Byte) (h : m.wf = true) : (m.set a b).wf = true :=
  Memory.wfFrom_set b h (Nat.zero_le a)

/-- Many bytes written keep the canonical form. -/
theorem Memory.wf_write {m : Memory} (a : Nat) (bs : List Byte) (h : m.wf = true) : (m.write a bs).wf = true := by
  induction bs generalizing m a with
  | nil => exact h
  | cons b bs ih => exact ih (a + 1) (Memory.wf_set a b h)

/-- Many bytes written: outside them every address reads as before, in any memory. -/
theorem Memory.get_write_outside {m : Memory} {a a' : Nat} (bs : List Byte) (h : a' < a ∨ a + bs.length ≤ a') :
    (m.write a bs).get a' = m.get a' := by
  induction bs generalizing m a with
  | nil => rfl
  | cons b bs ih =>
    simp only [List.length_cons] at h
    simp only [Memory.write]
    rw [ih (by omega), Memory.get_set_ne b (by omega)]

/-- Many bytes written: inside them each address reads as its byte, in a canonical memory. -/
theorem Memory.get_write_inside {m : Memory} {a j : Nat} {bs : List Byte} (h : m.wf = true) (hj : j < bs.length) :
    (m.write a bs).get (a + j) = bs[j] := by
  induction bs generalizing m a j with
  | nil => exact absurd hj (Nat.not_lt_zero j)
  | cons b bs ih =>
    simp only [Memory.write]
    cases j with
    | zero =>
      rw [Nat.add_zero, Memory.get_write_outside bs (by omega)]
      exact Memory.get_set_same h a b
    | succ j =>
      have hj' : j < bs.length := by simpa using hj
      have := ih (m := m.set a b) (a := a + 1) (Memory.wf_set a b h) hj'
      rw [show a + (j + 1) = a + 1 + j by omega, this]
      rfl

@[simp] theorem Memory.length_bytes (m : Memory) (a n : Nat) : (m.bytes a n).length = n := by simp [Memory.bytes]

@[simp] theorem Memory.getElem_bytes (m : Memory) (a n j : Nat) (h : j < (m.bytes a n).length) :
    (m.bytes a n)[j] = m.get (a + j) := by simp [Memory.bytes]

/-- The bytes just written, read back. -/
theorem Memory.bytes_write_same {m : Memory} (a : Nat) (bs : List Byte) (h : m.wf = true) :
    (m.write a bs).bytes a bs.length = bs := by
  apply List.ext_getElem
  · simp
  · intro j h1 h2
    rw [Memory.getElem_bytes, Memory.get_write_inside h h2]

/-- Adjacent groups of bytes, read as one. -/
theorem Memory.bytes_add (m : Memory) (a n k : Nat) : m.bytes a (n + k) = m.bytes a n ++ m.bytes (a + n) k := by
  simp only [Memory.bytes, List.range_add, List.map_append, List.map_map, List.append_cancel_left_eq]
  apply List.map_congr_left
  intro j _
  simp [Nat.add_assoc]

/-- The bytes after the first k. -/
theorem Memory.bytes_drop (m : Memory) (a k n : Nat) : (m.bytes a (k + n)).drop k = m.bytes (a + k) n := by
  rw [Memory.bytes_add, List.drop_left' (Memory.length_bytes m a k)]

/-- The first k bytes. -/
theorem Memory.bytes_take (m : Memory) (a k n : Nat) : (m.bytes a (k + n)).take k = m.bytes a k := by
  rw [Memory.bytes_add, List.take_left' (Memory.length_bytes m a k)]

theorem Memory.bytes_congr {m m' : Memory} {a n : Nat} (h : ∀ j, j < n → m.get (a + j) = m'.get (a + j)) :
    m.bytes a n = m'.bytes a n := by
  simp only [Memory.bytes]
  exact List.map_congr_left fun j hj => h j (List.mem_range.1 hj)

/-- One byte written inside the address range keeps the memory inside it. -/
theorem Memory.all_set {m : Memory} {a : Nat} {b : Byte} {p : Host.Cell → Bool} (h : m.all p = true)
    (ha : p (a, b) = true) : (m.set a b).all p = true := by
  induction m with
  | nil => by_cases hb : b = blankByte <;> simp [Memory.set, hb, ha]
  | cons c m ih =>
    simp only [List.all_cons, Bool.and_eq_true] at h
    simp only [Memory.set]
    split
    · split <;> simp [h.1, ha, h.2]
    · split
      · split
        · exact h.2
        · simp [ha, h.2]
      · simp only [List.all_cons, Bool.and_eq_true]
        exact ⟨h.1, ih h.2⟩

theorem Memory.all_write {m : Memory} {a : Nat} {bs : List Byte} {p : Host.Cell → Bool} (h : m.all p = true)
    (ha : ∀ k b, a ≤ k → k < a + bs.length → p (k, b) = true) : (m.write a bs).all p = true := by
  induction bs generalizing m a with
  | nil => exact h
  | cons b bs ih =>
    simp only [List.length_cons] at ha
    exact ih (Memory.all_set h (ha a b (by omega) (by omega))) fun k b' h1 h2 => ha k b' (by omega) (by omega)

end Sys2Proof.Machine
end

