-- ==== Sys2Proof/Laws/State.lean ====
section
/-! SUPPORT. One lemma per field and named update of State, so that no later proof unfolds an update. -/

namespace Sys2Proof.Machine

variable (s : State) (i : Instr) (S : Sponge) (c : Cause) (n : Nat) (sp : Space) (m : Memory)

/-! ### emitTrace writes the trace only (R51) -/

@[simp] theorem emitTrace_trace : (emitTrace i S s).trace =
    s.trace ++ if s.params.traceEn then [{ step := i, phase := s.phase, words := S }] else [] := by
  unfold emitTrace; split <;> simp_all

@[simp] theorem emitTrace_params : (emitTrace i S s).params = s.params := by unfold emitTrace; split <;> rfl
@[simp] theorem emitTrace_x : (emitTrace i S s).x = s.x := by unfold emitTrace; split <;> rfl
@[simp] theorem emitTrace_k0 : (emitTrace i S s).k0 = s.k0 := by unfold emitTrace; split <;> rfl
@[simp] theorem emitTrace_k1 : (emitTrace i S s).k1 = s.k1 := by unfold emitTrace; split <;> rfl
@[simp] theorem emitTrace_diff : (emitTrace i S s).diff = s.diff := by unfold emitTrace; split <;> rfl
@[simp] theorem emitTrace_mode : (emitTrace i S s).mode = s.mode := by unfold emitTrace; split <;> rfl
@[simp] theorem emitTrace_phase : (emitTrace i S s).phase = s.phase := by unfold emitTrace; split <;> rfl
@[simp] theorem emitTrace_adPos : (emitTrace i S s).adPos = s.adPos := by unfold emitTrace; split <;> rfl
@[simp] theorem emitTrace_inPos : (emitTrace i S s).inPos = s.inPos := by unfold emitTrace; split <;> rfl
@[simp] theorem emitTrace_outPos : (emitTrace i S s).outPos = s.outPos := by unfold emitTrace; split <;> rfl
@[simp] theorem emitTrace_mLen : (emitTrace i S s).mLen = s.mLen := by unfold emitTrace; split <;> rfl
@[simp] theorem emitTrace_result : (emitTrace i S s).result = s.result := by unfold emitTrace; split <;> rfl
@[simp] theorem emitTrace_adLen : (emitTrace i S s).adLen = s.adLen := by unfold emitTrace; split <;> rfl
@[simp] theorem emitTrace_inLen : (emitTrace i S s).inLen = s.inLen := by unfold emitTrace; split <;> rfl
@[simp] theorem emitTrace_outLen : (emitTrace i S s).outLen = s.outLen := by unfold emitTrace; split <;> rfl
@[simp] theorem emitTrace_key : (emitTrace i S s).key = s.key := by unfold emitTrace; split <;> rfl
@[simp] theorem emitTrace_nonce : (emitTrace i S s).nonce = s.nonce := by unfold emitTrace; split <;> rfl
@[simp] theorem emitTrace_ad : (emitTrace i S s).ad = s.ad := by unfold emitTrace; split <;> rfl
@[simp] theorem emitTrace_inp : (emitTrace i S s).inp = s.inp := by unfold emitTrace; split <;> rfl
@[simp] theorem emitTrace_out : (emitTrace i S s).out = s.out := by unfold emitTrace; split <;> rfl
@[simp] theorem emitTrace_outAny : (emitTrace i S s).outAny = s.outAny := by unfold emitTrace; split <;> rfl
@[simp] theorem emitTrace_port : (emitTrace i S s).port = s.port := by unfold emitTrace; split <;> rfl
@[simp] theorem emitTrace_turns : (emitTrace i S s).turns = s.turns := by unfold emitTrace; split <;> rfl
@[simp] theorem emitTrace_readData : (emitTrace i S s).readData = s.readData := by unfold emitTrace; split <;> rfl
@[simp] theorem emitTrace_freeCtr : (emitTrace i S s).freeCtr = s.freeCtr := by unfold emitTrace; split <;> rfl

/-- The frame of emitTrace in one equation. -/
theorem emitTrace_eq : emitTrace i S s = { s with trace := (emitTrace i S s).trace } := by
  by_cases h : s.params.traceEn = true
  · rw [emitTrace, if_pos h]
  · rw [emitTrace, if_neg h]

/-! ### endCall destroys the words, the key latch and DIFF (R170) -/

@[simp] theorem endCall_params : (endCall s).params = s.params := rfl
@[simp] theorem endCall_x : (endCall s).x = none := rfl
@[simp] theorem endCall_k0 : (endCall s).k0 = none := rfl
@[simp] theorem endCall_k1 : (endCall s).k1 = none := rfl
@[simp] theorem endCall_diff : (endCall s).diff = none := rfl
@[simp] theorem endCall_mode : (endCall s).mode = s.mode := rfl
@[simp] theorem endCall_phase : (endCall s).phase = s.phase := rfl
@[simp] theorem endCall_adPos : (endCall s).adPos = s.adPos := rfl
@[simp] theorem endCall_inPos : (endCall s).inPos = s.inPos := rfl
@[simp] theorem endCall_outPos : (endCall s).outPos = s.outPos := rfl
@[simp] theorem endCall_mLen : (endCall s).mLen = s.mLen := rfl
@[simp] theorem endCall_result : (endCall s).result = s.result := rfl
@[simp] theorem endCall_adLen : (endCall s).adLen = s.adLen := rfl
@[simp] theorem endCall_inLen : (endCall s).inLen = s.inLen := rfl
@[simp] theorem endCall_outLen : (endCall s).outLen = s.outLen := rfl
@[simp] theorem endCall_key : (endCall s).key = s.key := rfl
@[simp] theorem endCall_nonce : (endCall s).nonce = s.nonce := rfl
@[simp] theorem endCall_ad : (endCall s).ad = s.ad := rfl
@[simp] theorem endCall_inp : (endCall s).inp = s.inp := rfl
@[simp] theorem endCall_out : (endCall s).out = s.out := rfl
@[simp] theorem endCall_outAny : (endCall s).outAny = s.outAny := rfl
@[simp] theorem endCall_trace : (endCall s).trace = s.trace := rfl
@[simp] theorem endCall_port : (endCall s).port = s.port := rfl
@[simp] theorem endCall_turns : (endCall s).turns = s.turns := rfl
@[simp] theorem endCall_readData : (endCall s).readData = s.readData := rfl
@[simp] theorem endCall_freeCtr : (endCall s).freeCtr = s.freeCtr := rfl

/-! ### raise (R241, R242, R247) -/

@[simp] theorem raise_params : (raise c s).params = s.params := rfl
@[simp] theorem raise_x : (raise c s).x = none := rfl
@[simp] theorem raise_k0 : (raise c s).k0 = none := rfl
@[simp] theorem raise_k1 : (raise c s).k1 = none := rfl
@[simp] theorem raise_diff : (raise c s).diff = none := rfl
@[simp] theorem raise_mode : (raise c s).mode = s.mode := rfl
@[simp] theorem raise_phase : (raise c s).phase = .done := rfl
@[simp] theorem raise_adPos : (raise c s).adPos = s.adPos := rfl
@[simp] theorem raise_inPos : (raise c s).inPos = s.inPos := rfl
@[simp] theorem raise_outPos : (raise c s).outPos = s.outPos := rfl
@[simp] theorem raise_mLen : (raise c s).mLen = s.mLen := rfl
@[simp] theorem raise_result : (raise c s).result = causeResult c := rfl
@[simp] theorem raise_adLen : (raise c s).adLen = s.adLen := rfl
@[simp] theorem raise_inLen : (raise c s).inLen = s.inLen := rfl
@[simp] theorem raise_outLen : (raise c s).outLen = 0 := rfl
@[simp] theorem raise_key : (raise c s).key = s.key := rfl
@[simp] theorem raise_nonce : (raise c s).nonce = s.nonce := rfl
@[simp] theorem raise_ad : (raise c s).ad = s.ad := rfl
@[simp] theorem raise_inp : (raise c s).inp = s.inp := rfl
@[simp] theorem raise_out : (raise c s).out = s.out := rfl
@[simp] theorem raise_outAny : (raise c s).outAny = s.outAny := rfl
@[simp] theorem raise_trace : (raise c s).trace = s.trace := rfl
@[simp] theorem raise_port : (raise c s).port = s.port := rfl
@[simp] theorem raise_turns : (raise c s).turns = s.turns := rfl
@[simp] theorem raise_readData : (raise c s).readData = s.readData := rfl
@[simp] theorem raise_freeCtr : (raise c s).freeCtr = s.freeCtr := rfl

/-! ### succeed (R193, R213) -/

@[simp] theorem succeed_params : (succeed n s).params = s.params := rfl
@[simp] theorem succeed_x : (succeed n s).x = s.x := rfl
@[simp] theorem succeed_k0 : (succeed n s).k0 = s.k0 := rfl
@[simp] theorem succeed_k1 : (succeed n s).k1 = s.k1 := rfl
@[simp] theorem succeed_diff : (succeed n s).diff = s.diff := rfl
@[simp] theorem succeed_mode : (succeed n s).mode = s.mode := rfl
@[simp] theorem succeed_phase : (succeed n s).phase = .done := rfl
@[simp] theorem succeed_adPos : (succeed n s).adPos = s.adPos := rfl
@[simp] theorem succeed_inPos : (succeed n s).inPos = s.inPos := rfl
@[simp] theorem succeed_outPos : (succeed n s).outPos = s.outPos := rfl
@[simp] theorem succeed_mLen : (succeed n s).mLen = s.mLen := rfl
@[simp] theorem succeed_result : (succeed n s).result = .ok := rfl
@[simp] theorem succeed_adLen : (succeed n s).adLen = s.adLen := rfl
@[simp] theorem succeed_inLen : (succeed n s).inLen = s.inLen := rfl
@[simp] theorem succeed_outLen : (succeed n s).outLen = n := rfl
@[simp] theorem succeed_key : (succeed n s).key = s.key := rfl
@[simp] theorem succeed_nonce : (succeed n s).nonce = s.nonce := rfl
@[simp] theorem succeed_ad : (succeed n s).ad = s.ad := rfl
@[simp] theorem succeed_inp : (succeed n s).inp = s.inp := rfl
@[simp] theorem succeed_out : (succeed n s).out = s.out := rfl
@[simp] theorem succeed_outAny : (succeed n s).outAny = clearOut n s.outAny := rfl
@[simp] theorem succeed_trace : (succeed n s).trace = s.trace := rfl
@[simp] theorem succeed_port : (succeed n s).port = s.port := rfl
@[simp] theorem succeed_turns : (succeed n s).turns = s.turns := rfl
@[simp] theorem succeed_readData : (succeed n s).readData = s.readData := rfl
@[simp] theorem succeed_freeCtr : (succeed n s).freeCtr = s.freeCtr := rfl

/-! ### resetEngine (R55, R280) -/

@[simp] theorem resetEngine_params : (resetEngine s).params = s.params := rfl
@[simp] theorem resetEngine_x : (resetEngine s).x = none := rfl
@[simp] theorem resetEngine_k0 : (resetEngine s).k0 = none := rfl
@[simp] theorem resetEngine_k1 : (resetEngine s).k1 = none := rfl
@[simp] theorem resetEngine_diff : (resetEngine s).diff = none := rfl
@[simp] theorem resetEngine_mode : (resetEngine s).mode = .enc := rfl
@[simp] theorem resetEngine_phase : (resetEngine s).phase = .idle := rfl
@[simp] theorem resetEngine_adPos : (resetEngine s).adPos = 0 := rfl
@[simp] theorem resetEngine_inPos : (resetEngine s).inPos = 0 := rfl
@[simp] theorem resetEngine_outPos : (resetEngine s).outPos = 0 := rfl
@[simp] theorem resetEngine_mLen : (resetEngine s).mLen = 0 := rfl
@[simp] theorem resetEngine_result : (resetEngine s).result = .none := rfl
@[simp] theorem resetEngine_adLen : (resetEngine s).adLen = 0 := rfl
@[simp] theorem resetEngine_inLen : (resetEngine s).inLen = 0 := rfl
@[simp] theorem resetEngine_outLen : (resetEngine s).outLen = 0 := rfl
@[simp] theorem resetEngine_key : (resetEngine s).key = s.key := rfl
@[simp] theorem resetEngine_nonce : (resetEngine s).nonce = s.nonce := rfl
@[simp] theorem resetEngine_ad : (resetEngine s).ad = s.ad := rfl
@[simp] theorem resetEngine_inp : (resetEngine s).inp = s.inp := rfl
@[simp] theorem resetEngine_out : (resetEngine s).out = s.out := rfl
@[simp] theorem resetEngine_outAny : (resetEngine s).outAny = if busy s.phase then markOut s.outPos s.outAny else s.outAny := rfl
@[simp] theorem resetEngine_trace : (resetEngine s).trace = s.trace := rfl
@[simp] theorem resetEngine_port : (resetEngine s).port = s.port := rfl
@[simp] theorem resetEngine_turns : (resetEngine s).turns = s.turns := rfl
@[simp] theorem resetEngine_readData : (resetEngine s).readData = s.readData := rfl
@[simp] theorem resetEngine_freeCtr : (resetEngine s).freeCtr = s.freeCtr := rfl

/-! ### The contents and sizes of the spaces, by name -/

@[simp] theorem mem_key : mem s .key = s.key := by unfold mem; rfl
@[simp] theorem mem_nonce : mem s .nonce = s.nonce := by unfold mem; rfl
@[simp] theorem mem_ad : mem s .ad = s.ad := by unfold mem; rfl
@[simp] theorem mem_inp : mem s .inp = s.inp := by unfold mem; rfl
@[simp] theorem mem_out : mem s .out = s.out := by unfold mem; rfl
@[simp] theorem spaceSize_key : spaceSize s .key = 16 := by unfold spaceSize; rfl
@[simp] theorem spaceSize_nonce : spaceSize s .nonce = 16 := by unfold spaceSize; rfl
@[simp] theorem spaceSize_ad : spaceSize s .ad = s.adLen := by unfold spaceSize; rfl
@[simp] theorem spaceSize_inp : spaceSize s .inp = s.inLen := by unfold spaceSize; rfl
@[simp] theorem spaceSize_out : spaceSize s .out = 2 ^ s.params.lenw := by unfold spaceSize; rfl

/-! ### setMem writes one space -/

@[simp] theorem mem_setMem_same : mem (setMem s sp m) sp = m := by cases sp <;> rfl
theorem mem_setMem_ne {sp' : Space} (h : sp' ≠ sp) : mem (setMem s sp m) sp' = mem s sp' := by
  cases sp <;> cases sp' <;> first | rfl | exact absurd rfl h
@[simp] theorem setMem_params : (setMem s sp m).params = s.params := by cases sp <;> rfl
@[simp] theorem setMem_x : (setMem s sp m).x = s.x := by cases sp <;> rfl
@[simp] theorem setMem_k0 : (setMem s sp m).k0 = s.k0 := by cases sp <;> rfl
@[simp] theorem setMem_k1 : (setMem s sp m).k1 = s.k1 := by cases sp <;> rfl
@[simp] theorem setMem_diff : (setMem s sp m).diff = s.diff := by cases sp <;> rfl
@[simp] theorem setMem_mode : (setMem s sp m).mode = s.mode := by cases sp <;> rfl
@[simp] theorem setMem_phase : (setMem s sp m).phase = s.phase := by cases sp <;> rfl
@[simp] theorem setMem_adPos : (setMem s sp m).adPos = s.adPos := by cases sp <;> rfl
@[simp] theorem setMem_inPos : (setMem s sp m).inPos = s.inPos := by cases sp <;> rfl
@[simp] theorem setMem_outPos : (setMem s sp m).outPos = s.outPos := by cases sp <;> rfl
@[simp] theorem setMem_mLen : (setMem s sp m).mLen = s.mLen := by cases sp <;> rfl
@[simp] theorem setMem_result : (setMem s sp m).result = s.result := by cases sp <;> rfl
@[simp] theorem setMem_adLen : (setMem s sp m).adLen = s.adLen := by cases sp <;> rfl
@[simp] theorem setMem_inLen : (setMem s sp m).inLen = s.inLen := by cases sp <;> rfl
@[simp] theorem setMem_outLen : (setMem s sp m).outLen = s.outLen := by cases sp <;> rfl
@[simp] theorem setMem_outAny : (setMem s sp m).outAny = s.outAny := by cases sp <;> rfl
@[simp] theorem setMem_trace : (setMem s sp m).trace = s.trace := by cases sp <;> rfl
@[simp] theorem setMem_port : (setMem s sp m).port = s.port := by cases sp <;> rfl
@[simp] theorem setMem_turns : (setMem s sp m).turns = s.turns := by cases sp <;> rfl
@[simp] theorem setMem_readData : (setMem s sp m).readData = s.readData := by cases sp <;> rfl
@[simp] theorem setMem_freeCtr : (setMem s sp m).freeCtr = s.freeCtr := by cases sp <;> rfl

end Sys2Proof.Machine
end

