-- ==== Sys2Proof/Laws/Ops.lean ====
section
/-! SUPPORT. One lemma per shared operation: exactly when it goes on and with what; then what the sequencer enables. -/

namespace Sys2Proof.Machine

variable {s t : State}

/-- MemRead goes on exactly when the bytes exist, with those bytes. -/
theorem memRead_eq_next {sp : Space} {a n : Nat} {k : List Byte → StepOutcome} :
    memRead sp a n s k = .next t ↔ (n = 0 ∨ a + n ≤ spaceSize s sp) ∧ k ((mem s sp).bytes a n) = .next t := by
  unfold memRead; split <;> simp_all

/-- MemWrite goes on exactly when the addresses exist, with those bytes written to OUT and nothing else changed. -/
theorem memWriteOut_eq_next {a : Nat} {bs : List Byte} {k : State → StepOutcome} :
    memWriteOut a bs s k = .next t ↔
      (bs.length = 0 ∨ a + bs.length ≤ 2 ^ s.params.lenw) ∧ k { s with out := s.out.write a bs } = .next t := by
  unfold memWriteOut spaceSize
  by_cases h : bs.length = 0 ∨ a + bs.length ≤ 2 ^ s.params.lenw
  · rw [if_pos h]; exact ⟨fun e => ⟨h, e⟩, fun e => e.2⟩
  · rw [if_neg h]; exact ⟨fun e => (nomatch e), fun e => absurd e.1 h⟩

/-- The words are read exactly when they hold a value. -/
theorem readSponge_eq_next {k : Sponge → StepOutcome} :
    readSponge s k = .next t ↔ ∃ S, s.x = some S ∧ k S = .next t := by
  unfold readSponge; split <;> simp_all

/-- K0 and K1 are read exactly when both hold a value. -/
theorem readKey_eq_next {k : Word → Word → StepOutcome} :
    readKey s k = .next t ↔ ∃ a b, s.k0 = some a ∧ s.k1 = some b ∧ k a b = .next t := by
  unfold readKey
  split
  · next a b h1 h2 => simp [h1, h2]
  · next h =>
    constructor
    · intro e; cases e
    · rintro ⟨a, b, h1, h2, -⟩; exact absurd h2 (h a b h1)

/-- A step goes on exactly when LENW is at least 20. -/
@[simp] theorem whenParams_eq_next {k : StepOutcome} :
    whenParams s k = .next t ↔ 20 ≤ s.params.lenw ∧ k = .next t := by
  unfold whenParams; split <;> simp_all

/-- With a legal LENW the check is no check. -/
theorem whenParams_legal {k : StepOutcome} (h : 20 ≤ s.params.lenw) : whenParams s k = k := if_pos h

/-- A controller step goes on exactly when it is the enabled one. -/
theorem whenEnabled_eq_next {i : Instr} {k : StepOutcome} :
    whenEnabled i s k = .next t ↔ nextStep s = some i ∧ k = .next t := by
  unfold whenEnabled; split <;> simp_all

/-- A command goes on exactly when no call is in progress. -/
theorem whenFree_eq_next {k : StepOutcome} : whenFree s k = .next t ↔ busy s.phase = false ∧ k = .next t := by
  unfold whenFree; split <;> simp_all

/-! ### Which step is enabled, by PHASE, MODE and the bytes left (R24) -/

theorem nextStep_eq_init : nextStep s = some .init ↔ s.phase = .init := by
  unfold nextStep; split <;> (try split) <;> (try split) <;> simp_all

theorem nextStep_eq_adblk : nextStep s = some .adblk ↔ s.phase = .absorbAd ∧ 8 ≤ adLeft s := by
  unfold nextStep; split <;> (try split) <;> (try split) <;> simp_all

theorem nextStep_eq_adfin : nextStep s = some .adfin ↔ s.phase = .absorbAd ∧ adLeft s < 8 := by
  unfold nextStep; split <;> (try split) <;> (try split) <;> simp_all

theorem nextStep_eq_domsep : nextStep s = some .domsep ↔ s.phase = .domsep := by
  unfold nextStep; split <;> (try split) <;> (try split) <;> simp_all

theorem nextStep_eq_final : nextStep s = some .final ↔ s.phase = .finalize := by
  unfold nextStep; split <;> (try split) <;> (try split) <;> simp_all

theorem nextStep_eq_encblk : nextStep s = some .encblk ↔ s.phase = .process ∧ s.mode = .enc ∧ 8 ≤ inLeft s := by
  unfold nextStep; split <;> (try split) <;> (try split) <;> simp_all

theorem nextStep_eq_encfin : nextStep s = some .encfin ↔ s.phase = .process ∧ s.mode = .enc ∧ inLeft s < 8 := by
  unfold nextStep; split <;> (try split) <;> (try split) <;> simp_all

theorem nextStep_eq_tagout : nextStep s = some .tagout ↔ s.phase = .emitTag := by
  unfold nextStep; split <;> (try split) <;> (try split) <;> simp_all

theorem nextStep_eq_decblk : nextStep s = some .decblk ↔ s.phase = .process ∧ s.mode = .dec ∧ 8 ≤ inLeft s := by
  unfold nextStep; split <;> (try split) <;> (try split) <;> simp_all

theorem nextStep_eq_decfin : nextStep s = some .decfin ↔ s.phase = .process ∧ s.mode = .dec ∧ inLeft s < 8 := by
  unfold nextStep; split <;> (try split) <;> (try split) <;> simp_all

theorem nextStep_eq_tagvfy : nextStep s = some .tagvfy ↔ s.phase = .verifyTag := by
  unfold nextStep; split <;> (try split) <;> (try split) <;> simp_all

/-- No step is enabled exactly when no call is in progress. -/
theorem nextStep_eq_none : nextStep s = none ↔ busy s.phase = false := by
  unfold nextStep; split <;> (try split) <;> (try split) <;> simp_all [busy]

/-! ### The OUT marks -/

theorem markOut_pairwise (n : Nat) {l : List Nat} (h : l.Pairwise (· < ·)) : (markOut n l).Pairwise (· < ·) := by
  simp only [markOut, List.pairwise_append]
  refine ⟨List.pairwise_lt_range, h.filter _, ?_⟩
  intro a ha b hb
  simp only [List.mem_range] at ha
  simp only [List.mem_filter, decide_eq_true_eq] at hb
  omega

theorem clearOut_pairwise (n : Nat) {l : List Nat} (h : l.Pairwise (· < ·)) : (clearOut n l).Pairwise (· < ·) :=
  h.filter _

theorem mem_markOut (n a : Nat) (l : List Nat) : a ∈ markOut n l ↔ a < n ∨ a ∈ l := by
  simp only [markOut, List.mem_append, List.mem_range, List.mem_filter, decide_eq_true_eq]
  by_cases h : a < n
  · simp [h]
  · simp [h, show n ≤ a by omega]

theorem mem_clearOut (n a : Nat) (l : List Nat) : a ∈ clearOut n l ↔ n ≤ a ∧ a ∈ l := by
  simp [clearOut, and_comm]

end Sys2Proof.Machine
end

