-- ==== Sys2Proof/Laws/Exec.lean ====
section
/-! SUPPORT. One lemma per meaning: exactly when it answers a next state, and which. Later proofs cite these and never unfold a
meaning. -/

namespace Sys2Proof.Machine

variable {s t : State}

theorem next_eq_next {a : State} : (Host.Outcome.next a : StepOutcome) = .next t ↔ t = a := by
  constructor
  · intro h; exact (Host.Outcome.next.inj h).symm
  · intro h; rw [h]

/-! ### Unit functions -/

theorem onSponge_eq_next {f : Sponge → Sponge} :
    onSponge f s = .next t ↔ ∃ S, s.x = some S ∧ t = { s with x := some (f S) } := by
  simp [onSponge, readSponge_eq_next, next_eq_next, -Host.Outcome.next.injEq]

theorem whenConstant_eq_next {c : Byte} {k : StepOutcome} :
    whenConstant c k = .next t ↔ roundConstants.contains c = true ∧ k = .next t := by
  unfold whenConstant; split <;> simp_all

theorem whenCount_eq_next {n max : Nat} {k : StepOutcome} : whenCount n max k = .next t ↔ n ≤ max ∧ k = .next t := by
  unfold whenCount; split <;> simp_all

theorem execAddc_eq_next {c : Byte} : execAddc c s = .next t ↔
    roundConstants.contains c = true ∧ ∃ S, s.x = some S ∧ t = { s with x := some (addConstant c S) } := by
  rw [execAddc, whenConstant_eq_next, onSponge_eq_next]

theorem execSubst_eq_next : execSubst s = .next t ↔ ∃ S, s.x = some S ∧ t = { s with x := some (substitute S) } :=
  onSponge_eq_next

theorem execLdiff_eq_next : execLdiff s = .next t ↔ ∃ S, s.x = some S ∧ t = { s with x := some (diffuse S) } :=
  onSponge_eq_next

theorem execRound_eq_next {c : Byte} : execRound c s = .next t ↔
    roundConstants.contains c = true ∧ ∃ S, s.x = some S ∧ t = { s with x := some (roundFn c S) } := by
  rw [execRound, whenConstant_eq_next, onSponge_eq_next]

theorem execP6_eq_next : execP6 s = .next t ↔ ∃ S, s.x = some S ∧ t = { s with x := some (permute S 6) } :=
  onSponge_eq_next

theorem execP12_eq_next : execP12 s = .next t ↔ ∃ S, s.x = some S ∧ t = { s with x := some (permute S 12) } :=
  onSponge_eq_next

theorem execLoad_eq_next {n : BitVec 4} : execLoad n s = .next t ↔ n.toNat ≤ 8 ∧
    t = { s with port := { s.port with wordOut := load s.port.bytesIn.toList n.toNat } } := by
  simp [execLoad, whenCount_eq_next, next_eq_next, -Host.Outcome.next.injEq]

theorem execStore_eq_next {n : BitVec 4} : execStore n s = .next t ↔ n.toNat ≤ 8 ∧
    t = { s with port := { s.port with bytesOut := store s.port.wordIn n.toNat } } := by
  simp [execStore, whenCount_eq_next, next_eq_next, -Host.Outcome.next.injEq]

theorem execKeep_eq_next {n : BitVec 4} : execKeep n s = .next t ↔ n.toNat ≤ 8 ∧
    t = { s with port := { s.port with wordOut := maskKeep s.port.wordIn n.toNat } } := by
  simp [execKeep, whenCount_eq_next, next_eq_next, -Host.Outcome.next.injEq]

theorem execPad_eq_next {n : BitVec 4} : execPad n s = .next t ↔ n.toNat ≤ 7 ∧
    t = { s with port := { s.port with wordOut := padWord n.toNat } } := by
  simp [execPad, whenCount_eq_next, next_eq_next, -Host.Outcome.next.injEq]

/-! ### Controller steps both directions share -/

theorem execInit_eq_next : execInit s = .next t ↔ s.phase = .init ∧
    t = emitTrace .init
      (initSponge (load (s.key.bytes 0 8) 8) (load (s.key.bytes 8 8) 8) (load (s.nonce.bytes 0 8) 8)
        (load (s.nonce.bytes 8 8) 8))
      { s with
        k0 := some (load (s.key.bytes 0 8) 8), k1 := some (load (s.key.bytes 8 8) 8)
        x := some (initSponge (load (s.key.bytes 0 8) 8) (load (s.key.bytes 8 8) 8) (load (s.nonce.bytes 0 8) 8)
          (load (s.nonce.bytes 8 8) 8))
        phase := if 0 < s.adLen then .absorbAd else .domsep } := by
  simp [execInit, whenEnabled_eq_next, nextStep_eq_init, memRead_eq_next, next_eq_next, -Host.Outcome.next.injEq]

theorem execAdblk_eq_next : execAdblk s = .next t ↔ (s.phase = .absorbAd ∧ 8 ≤ adLeft s) ∧ ∃ S, s.x = some S ∧
    s.adPos + 8 ≤ s.adLen ∧
    t = emitTrace .adblk (permute (S.absorb (load (s.ad.bytes s.adPos 8) 8)) 6)
      { s with x := some (permute (S.absorb (load (s.ad.bytes s.adPos 8) 8)) 6), adPos := s.adPos + 8 } := by
  simp [execAdblk, whenEnabled_eq_next, nextStep_eq_adblk, readSponge_eq_next, memRead_eq_next, next_eq_next, -Host.Outcome.next.injEq]

theorem execAdfin_eq_next : execAdfin s = .next t ↔ (s.phase = .absorbAd ∧ adLeft s < 8) ∧ ∃ S, s.x = some S ∧
    (adLeft s = 0 ∨ s.adPos + adLeft s ≤ s.adLen) ∧
    t = emitTrace .adfin
      (permute ((S.absorb (load (s.ad.bytes s.adPos (adLeft s)) (adLeft s))).absorb (padWord (adLeft s))) 6)
      { s with
        x := some (permute
          ((S.absorb (load (s.ad.bytes s.adPos (adLeft s)) (adLeft s))).absorb (padWord (adLeft s))) 6)
        adPos := s.adPos + adLeft s, phase := .domsep } := by
  simp [execAdfin, whenEnabled_eq_next, nextStep_eq_adfin, readSponge_eq_next, memRead_eq_next, next_eq_next, -Host.Outcome.next.injEq]

theorem execDomsep_eq_next : execDomsep s = .next t ↔ s.phase = .domsep ∧ ∃ S, s.x = some S ∧
    t = emitTrace .domsep (domainSeparate S) { s with x := some (domainSeparate S), phase := .process } := by
  simp [execDomsep, whenEnabled_eq_next, nextStep_eq_domsep, readSponge_eq_next, next_eq_next, -Host.Outcome.next.injEq]

theorem execFinal_eq_next : execFinal s = .next t ↔ s.phase = .finalize ∧ ∃ S, s.x = some S ∧
    ∃ a b, s.k0 = some a ∧ s.k1 = some b ∧
    t = emitTrace .final (finalSponge a b S)
      { s with x := some (finalSponge a b S), phase := afterFinal s.mode } := by
  simp [execFinal, whenEnabled_eq_next, nextStep_eq_final, readSponge_eq_next, readKey_eq_next, next_eq_next, -Host.Outcome.next.injEq]

/-! ### AEAD Encrypt -/

theorem execEncrypt_eq_next : execEncrypt s = .next t ↔ busy s.phase = false ∧ s.inLen + 17 ≤ 2 ^ s.params.lenw ∧
    t = { s with
      mode := .enc, mLen := s.inLen, adPos := 0, inPos := 0, outPos := 0, result := .none, outLen := 0
      phase := .init } := by
  rw [execEncrypt, whenFree_eq_next]
  by_cases h : s.inLen + 17 ≤ 2 ^ s.params.lenw
  · rw [if_pos h]; simp [h, next_eq_next, -Host.Outcome.next.injEq]
  · rw [if_neg h]; simp [h]

theorem execEncblk_eq_next : execEncblk s = .next t ↔ (s.phase = .process ∧ s.mode = .enc ∧ 8 ≤ inLeft s) ∧
    ∃ S, s.x = some S ∧ s.inPos + 8 ≤ s.inLen ∧ s.outPos + 8 ≤ 2 ^ s.params.lenw ∧
    t = emitTrace .encblk (permute (S.absorb (load (s.inp.bytes s.inPos 8) 8)) 6)
      { s with
        out := s.out.write s.outPos (store (S.absorb (load (s.inp.bytes s.inPos 8) 8)).x0 8)
        x := some (permute (S.absorb (load (s.inp.bytes s.inPos 8) 8)) 6)
        inPos := s.inPos + 8, outPos := s.outPos + 8 } := by
  simp [execEncblk, whenEnabled_eq_next, nextStep_eq_encblk, readSponge_eq_next, memRead_eq_next, memWriteOut_eq_next, store, next_eq_next, -Host.Outcome.next.injEq]

theorem execEncfin_eq_next : execEncfin s = .next t ↔ (s.phase = .process ∧ s.mode = .enc ∧ inLeft s < 8) ∧
    ∃ S, s.x = some S ∧ (inLeft s = 0 ∨ s.inPos + inLeft s ≤ s.inLen) ∧
    (inLeft s = 0 ∨ s.outPos + inLeft s ≤ 2 ^ s.params.lenw) ∧
    t = emitTrace .encfin
      ((S.absorb (load (s.inp.bytes s.inPos (inLeft s)) (inLeft s))).absorb (padWord (inLeft s)))
      { s with
        out := s.out.write s.outPos
          (store (S.absorb (load (s.inp.bytes s.inPos (inLeft s)) (inLeft s))).x0 (inLeft s))
        x := some ((S.absorb (load (s.inp.bytes s.inPos (inLeft s)) (inLeft s))).absorb (padWord (inLeft s)))
        inPos := s.inPos + inLeft s, outPos := s.outPos + inLeft s, phase := .finalize } := by
  simp [execEncfin, whenEnabled_eq_next, nextStep_eq_encfin, readSponge_eq_next, memRead_eq_next, memWriteOut_eq_next, store, next_eq_next, -Host.Outcome.next.injEq]

theorem execTagout_eq_next : execTagout s = .next t ↔ s.phase = .emitTag ∧ ∃ S, s.x = some S ∧
    s.outPos + 16 ≤ 2 ^ s.params.lenw ∧
    t = emitTrace .tagout S (endCall (succeed (s.outPos + 16)
      { s with
        out := (s.out.write s.outPos (store S.x3 8)).write (s.outPos + 8) (store S.x4 8)
        outPos := s.outPos + 16 })) := by
  simp only [execTagout, whenEnabled_eq_next, nextStep_eq_tagout, readSponge_eq_next, memWriteOut_eq_next]
  constructor
  · rintro ⟨h, S, hS, -, h2, e⟩
    refine ⟨h, S, hS, ?_, (Host.Outcome.next.inj e).symm⟩
    simpa [store, Nat.add_assoc] using h2
  · rintro ⟨h, S, hS, h2, e⟩
    refine ⟨h, S, hS, ?_, ?_, congrArg _ e.symm⟩ <;> simp [store] <;> omega

/-! ### AEAD Decrypt and Verify -/

theorem execDecrypt_eq_next : execDecrypt s = .next t ↔ busy s.phase = false ∧
    t = if s.inLen < 16 then
        raise .structErr { s with mode := .dec, adPos := 0, inPos := 0, outPos := 0, outLen := 0, mLen := 0 }
      else
        { s with
          mode := .dec, adPos := 0, inPos := 0, outPos := 0, outLen := 0, result := .none
          mLen := s.inLen - 16, phase := .init } := by
  rw [execDecrypt, whenFree_eq_next]
  by_cases h : s.inLen < 16
  · simp only [if_pos h, next_eq_next]
  · simp only [if_neg h, next_eq_next]

theorem execDecblk_eq_next : execDecblk s = .next t ↔ (s.phase = .process ∧ s.mode = .dec ∧ 8 ≤ inLeft s) ∧
    ∃ S, s.x = some S ∧ s.inPos + 8 ≤ s.inLen ∧ s.outPos + 8 ≤ 2 ^ s.params.lenw ∧
    t = emitTrace .decblk (permute { S with x0 := load (s.inp.bytes s.inPos 8) 8 } 6)
      { s with
        out := s.out.write s.outPos (store (S.x0 ^^^ load (s.inp.bytes s.inPos 8) 8) 8)
        x := some (permute { S with x0 := load (s.inp.bytes s.inPos 8) 8 } 6)
        inPos := s.inPos + 8, outPos := s.outPos + 8 } := by
  simp [execDecblk, whenEnabled_eq_next, nextStep_eq_decblk, readSponge_eq_next, memRead_eq_next, memWriteOut_eq_next, store, next_eq_next, -Host.Outcome.next.injEq]

theorem execDecfin_eq_next : execDecfin s = .next t ↔ (s.phase = .process ∧ s.mode = .dec ∧ inLeft s < 8) ∧
    ∃ S, s.x = some S ∧ (inLeft s = 0 ∨ s.inPos + inLeft s ≤ s.inLen) ∧
    (inLeft s = 0 ∨ s.outPos + inLeft s ≤ 2 ^ s.params.lenw) ∧
    t = emitTrace .decfin
      ((S.absorb (maskKeep (S.x0 ^^^ load (s.inp.bytes s.inPos (inLeft s)) (inLeft s)) (inLeft s))).absorb
        (padWord (inLeft s)))
      { s with
        out := s.out.write s.outPos
          (store (S.x0 ^^^ load (s.inp.bytes s.inPos (inLeft s)) (inLeft s)) (inLeft s))
        x := some
          ((S.absorb (maskKeep (S.x0 ^^^ load (s.inp.bytes s.inPos (inLeft s)) (inLeft s)) (inLeft s))).absorb
            (padWord (inLeft s)))
        inPos := s.inPos + inLeft s, outPos := s.outPos + inLeft s, phase := .finalize } := by
  simp [execDecfin, whenEnabled_eq_next, nextStep_eq_decfin, readSponge_eq_next, memRead_eq_next, memWriteOut_eq_next, store, next_eq_next, -Host.Outcome.next.injEq]

/-- What OUT holds and how it is marked after a mismatch (R217). -/
theorem spoilOut_eq_next {k : State → StepOutcome} : spoilOut s k = .next t ↔
    (s.params.zeroizeOnFail = true → s.mLen = 0 ∨ s.mLen ≤ 2 ^ s.params.lenw) ∧
    k { s with
      outAny := markOut s.mLen s.outAny
      out := if s.params.zeroizeOnFail then s.out.write 0 (List.replicate s.mLen 0) else s.out } = .next t := by
  unfold spoilOut
  cases hz : s.params.zeroizeOnFail <;> simp [memWriteOut_eq_next]

theorem execTagvfy_eq_next : execTagvfy s = .next t ↔ s.phase = .verifyTag ∧ ∃ S, s.x = some S ∧
    s.mLen + 16 ≤ s.inLen ∧
    ((collapse (accumulate 0 (tagBytes S) (s.inp.bytes s.mLen 16)) = 0 ∧
      t = emitTrace .tagvfy S (endCall (succeed s.outPos s))) ∨
    (collapse (accumulate 0 (tagBytes S) (s.inp.bytes s.mLen 16)) ≠ 0 ∧
      (s.params.zeroizeOnFail = true → s.mLen = 0 ∨ s.mLen ≤ 2 ^ s.params.lenw) ∧
      t = emitTrace .tagvfy S (raise .authFail
        { s with
          outAny := markOut s.mLen s.outAny
          out := if s.params.zeroizeOnFail then s.out.write 0 (List.replicate s.mLen 0) else s.out }))) := by
  simp only [execTagvfy, whenEnabled_eq_next, nextStep_eq_tagvfy, readSponge_eq_next, memRead_eq_next,
    spaceSize_inp, mem_inp]
  constructor
  · rintro ⟨h, S, hS, hl, e⟩
    refine ⟨h, S, hS, by simpa using hl, ?_⟩
    by_cases hc : collapse (accumulate 0 (tagBytes S) (s.inp.bytes s.mLen 16)) = 0
    · rw [if_pos hc] at e
      exact .inl ⟨hc, (Host.Outcome.next.inj e).symm⟩
    · rw [if_neg hc] at e
      obtain ⟨h1, h2⟩ := spoilOut_eq_next.1 e
      exact .inr ⟨hc, h1, (Host.Outcome.next.inj h2).symm⟩
  · rintro ⟨h, S, hS, hl, h2⟩
    refine ⟨h, S, hS, .inr hl, ?_⟩
    rcases h2 with ⟨hc, e⟩ | ⟨hc, h1, e⟩
    · rw [if_pos hc]; exact congrArg _ e.symm
    · rw [if_neg hc]; exact spoilOut_eq_next.2 ⟨h1, congrArg _ e.symm⟩


/-- A unit function changes the five words or the harness port, nothing else, and makes no word hold or lose its value (R90). -/
theorem exec_unitFunction {i : Instr} (hl : i.layer = .unitFunction) (h : exec i s = .next t) :
    ∃ x p, t = { s with x := x, port := p } ∧ x.isSome = s.x.isSome := by
  cases i with
  | addc c =>
    obtain ⟨-, S, hS, rfl⟩ := execAddc_eq_next.1 h
    exact ⟨_, s.port, rfl, by rw [hS]; rfl⟩
  | subst =>
    obtain ⟨S, hS, rfl⟩ := execSubst_eq_next.1 h
    exact ⟨_, s.port, rfl, by rw [hS]; rfl⟩
  | ldiff =>
    obtain ⟨S, hS, rfl⟩ := execLdiff_eq_next.1 h
    exact ⟨_, s.port, rfl, by rw [hS]; rfl⟩
  | round c =>
    obtain ⟨-, S, hS, rfl⟩ := execRound_eq_next.1 h
    exact ⟨_, s.port, rfl, by rw [hS]; rfl⟩
  | p6 =>
    obtain ⟨S, hS, rfl⟩ := execP6_eq_next.1 h
    exact ⟨_, s.port, rfl, by rw [hS]; rfl⟩
  | p12 =>
    obtain ⟨S, hS, rfl⟩ := execP12_eq_next.1 h
    exact ⟨_, s.port, rfl, by rw [hS]; rfl⟩
  | load n =>
    obtain ⟨-, rfl⟩ := execLoad_eq_next.1 h
    exact ⟨s.x, _, rfl, rfl⟩
  | store n =>
    obtain ⟨-, rfl⟩ := execStore_eq_next.1 h
    exact ⟨s.x, _, rfl, rfl⟩
  | keep n =>
    obtain ⟨-, rfl⟩ := execKeep_eq_next.1 h
    exact ⟨s.x, _, rfl, rfl⟩
  | pad n =>
    obtain ⟨-, rfl⟩ := execPad_eq_next.1 h
    exact ⟨s.x, _, rfl, rfl⟩
  | init | adblk | adfin | domsep | final | encblk | encfin | tagout | decblk | decfin | tagvfy | encrypt | decrypt =>
    cases hl

end Sys2Proof.Machine
end

