-- ==== Sys2Proof/Laws/PerInstr.lean ====
section
/-! SUPPORT. Statements made for every instruction as syntax, one lemma per constructor; and the rows of the opcode map, apart. -/

namespace Sys2Proof.Laws.EncodeMatchesRow

/-- The word of an instruction has the bits its row of R92 fixes at their values, whatever its operand. -/
def Statement (i : Instr) : Prop := encode i &&& i.row.mask = i.row.pattern

theorem addc (c : BitVec 8) : Statement (.addc c) := by
  have h : ∀ c : BitVec 8, (0x1000#16 ||| c.setWidth 16) &&& 0xff00#16 = 0x1000#16 := by decide
  exact h c

theorem subst : Statement .subst := by unfold Statement; decide

theorem ldiff : Statement .ldiff := by unfold Statement; decide

theorem round (c : BitVec 8) : Statement (.round c) := by
  have h : ∀ c : BitVec 8, (0x1300#16 ||| c.setWidth 16) &&& 0xff00#16 = 0x1300#16 := by decide
  exact h c

theorem p6 : Statement .p6 := by unfold Statement; decide

theorem p12 : Statement .p12 := by unfold Statement; decide

theorem load (n : BitVec 4) : Statement (.load n) := by
  have h : ∀ n : BitVec 4, (0x2000#16 ||| n.setWidth 16) &&& 0xfff0#16 = 0x2000#16 := by decide
  exact h n

theorem store (n : BitVec 4) : Statement (.store n) := by
  have h : ∀ n : BitVec 4, (0x2100#16 ||| n.setWidth 16) &&& 0xfff0#16 = 0x2100#16 := by decide
  exact h n

theorem keep (n : BitVec 4) : Statement (.keep n) := by
  have h : ∀ n : BitVec 4, (0x2200#16 ||| n.setWidth 16) &&& 0xfff0#16 = 0x2200#16 := by decide
  exact h n

theorem pad (n : BitVec 4) : Statement (.pad n) := by
  have h : ∀ n : BitVec 4, (0x2300#16 ||| n.setWidth 16) &&& 0xfff0#16 = 0x2300#16 := by decide
  exact h n

theorem init : Statement .init := by unfold Statement; decide

theorem adblk : Statement .adblk := by unfold Statement; decide

theorem adfin : Statement .adfin := by unfold Statement; decide

theorem domsep : Statement .domsep := by unfold Statement; decide

theorem final : Statement .final := by unfold Statement; decide

theorem encblk : Statement .encblk := by unfold Statement; decide

theorem encfin : Statement .encfin := by unfold Statement; decide

theorem tagout : Statement .tagout := by unfold Statement; decide

theorem decblk : Statement .decblk := by unfold Statement; decide

theorem decfin : Statement .decfin := by unfold Statement; decide

theorem tagvfy : Statement .tagvfy := by unfold Statement; decide

theorem encrypt : Statement .encrypt := by unfold Statement; decide

theorem decrypt : Statement .decrypt := by unfold Statement; decide

end Sys2Proof.Laws.EncodeMatchesRow

namespace Sys2Proof.Laws

/-- No word belongs to two rows of the opcode map: any two differ in a bit that both fix (R92, R94). -/
theorem opcodeRows_apart :
    opcodeRows.Pairwise fun r q => r.pattern &&& (r.mask &&& q.mask) ≠ q.pattern &&& (r.mask &&& q.mask) := by
  decide

/-- The map has 23 rows (R92). -/
theorem opcodeRows_length : opcodeRows.length = 23 := rfl

/-- Every instruction's row is in the map. -/
theorem row_mem_opcodeRows (i : Instr) : i.row ∈ opcodeRows := by
  cases i <;> simp [opcodeRows, Instr.row]

end Sys2Proof.Laws
end

