-- ==== Sys2Proof/Laws/Run.lean ====
section
/-! SUPPORT. Runs of several steps, one step at a time. -/

namespace Sys2Proof.Machine

/-- The first step of a run, for any machine. -/
theorem core_run_succ (M : Host.Core) (k : Nat) {s t : M.State} (h : M.step s = .next t) :
    M.run (k + 1) s = M.run k t := by
  rw [Host.Core.run, h]

theorem run_zero (s : State) : Host.Core.run core 0 s = .next s := rfl

/-- The first step of a run. -/
theorem run_succ (k : Nat) {s t : State} (h : step s = .next t) :
    Host.Core.run core (k + 1) s = Host.Core.run core k t :=
  core_run_succ core k h

/-- A run in two parts, for any machine. -/
theorem core_run_add (M : Host.Core) (j k : Nat) {s t : M.State} (h : M.run j s = .next t) :
    M.run (j + k) s = M.run k t := by
  induction j generalizing s with
  | zero =>
    rw [Host.Core.run] at h
    rw [Nat.zero_add, Host.Outcome.next.inj h]
  | succ j ih =>
    rw [Nat.succ_add]
    rw [Host.Core.run] at h ⊢
    cases hs : M.step s with
    | next u => rw [hs] at h; exact ih h
    | fault f => rw [hs] at h; cases h
    | refused r => rw [hs] at h; cases h

/-- A run in two parts. -/
theorem run_add (j k : Nat) {s t : State} (h : Host.Core.run core j s = .next t) :
    Host.Core.run core (j + k) s = Host.Core.run core k t :=
  core_run_add core j k h

end Sys2Proof.Machine
end

