-- ==== Sys2Proof/Laws/Step.lean ====
section
/-! SUPPORT. What a step can do, said once; and the encoder undone by the decoder, for the words the sequencer issues. -/

namespace Sys2Proof.Machine

variable {s t : State}

/-- The sequencer's step is a controller step. -/
theorem nextStep_layer {i : Instr} (h : nextStep s = some i) : i.layer = .controllerStep := by
  unfold nextStep at h
  split at h <;> (try split at h) <;> (try split at h) <;> simp at h <;> subst h <;> rfl

/-- A controller step's word decodes to it. -/
theorem decode_encode_controllerStep {i : Instr} (h : i.layer = .controllerStep) : decode (encode i) = .ok i := by
  cases i <;> first | rfl | cases h

/-- The turns do not matter to the sequencer. -/
@[simp] theorem nextStep_turns (l : List Turn) : nextStep { s with turns := l } = nextStep s := rfl

/-- An instance whose LENW has no meaning makes no step. -/
theorem step_illegalParameter (h : s.params.lenw < 20) : step s = .refused .illegalParameter :=
  if_neg (Nat.not_le.2 h)

/-- With a legal LENW a step is what its turn asks for. -/
theorem step_legal (hp : 20 ≤ s.params.lenw) :
    step s = match fetch s with
      | some (cw, s') =>
        match decode cw with
        | .ok i => exec i s'
        | .error why => .refused (.illegalWord why)
      | none => otherTurn s :=
  whenParams_legal hp

/-- Only an instance with a legal LENW makes a step. -/
theorem lenw_of_step (h : step s = .next t) : 20 ≤ s.params.lenw := (whenParams_eq_next.1 h).1

/-- The engine's turn runs the sequencer's step, or waits. -/
theorem step_engine {rest : List Turn} (hp : 20 ≤ s.params.lenw) (h : s.turns = [] ∧ rest = [] ∨ s.turns = .engine :: rest) :
    step s = match nextStep s with
      | some i => exec i { s with turns := rest }
      | none => .next { s with turns := rest } := by
  have hs : s.turns = [] → { s with turns := [] } = s := fun e => by rw [← e]
  rcases h with ⟨h, rfl⟩ | h
  · cases hn : nextStep s with
    | none => simp [step_legal hp, fetch, h, sequencerWord, hn, otherTurn, hs h]
    | some i => simp [step_legal hp, fetch, h, sequencerWord, hn, decode_encode_controllerStep (nextStep_layer hn), hs h]
  · cases hn : nextStep s with
    | none => simp [step_legal hp, fetch, h, sequencerWord, hn, otherTurn]
    | some i => simp [step_legal hp, fetch, h, sequencerWord, hn, decode_encode_controllerStep (nextStep_layer hn)]

/-- A host action other than a legal command. -/
theorem step_hostAct {act : HostAct} {rest : List Turn} (hp : 20 ≤ s.params.lenw) (h : s.turns = .host act :: rest)
    (hc : act ≠ .writeReg 0 0xa000) (hd : act ≠ .writeReg 0 0xa100) :
    step s = hostAct act { s with turns := rest } := by
  have hf : fetch s = none := by
    unfold fetch
    rw [h]
    cases act with
    | writeReg n v =>
      cases n with
      | zero =>
        have h1 : v ≠ 0xa000 := fun e => hc (by rw [e])
        have h2 : v ≠ 0xa100 := fun e => hd (by rw [e])
        simp [h1, h2]
      | succ n => rfl
    | readReg n => rfl
    | writeByte sp a b => rfl
    | readByte sp a => rfl
    | reset => rfl
  simp [step_legal hp, hf, otherTurn, h]

/-- The command ENCRYPT through CMD. -/
theorem step_encrypt {rest : List Turn} (hp : 20 ≤ s.params.lenw) (h : s.turns = .host (.writeReg 0 0xa000) :: rest) :
    step s = exec .encrypt { s with turns := rest } := by
  simp [step_legal hp, fetch, h, show decode (0xa000#16) = .ok .encrypt from rfl]

/-- The command DECRYPT through CMD. -/
theorem step_decrypt {rest : List Turn} (hp : 20 ≤ s.params.lenw) (h : s.turns = .host (.writeReg 0 0xa100) :: rest) :
    step s = exec .decrypt { s with turns := rest } := by
  simp [step_legal hp, fetch, h, show decode (0xa100#16) = .ok .decrypt from rfl]

/-- A word a harness applies. -/
theorem step_issue {cw : BitVec 16} {rest : List Turn} (hp : 20 ≤ s.params.lenw) (h : s.turns = .issue cw :: rest) :
    step s = match decode cw with
      | .ok i => exec i { s with turns := rest }
      | .error why => .refused (.illegalWord why) := by
  have hf : fetch s = some (cw, { s with turns := rest }) := by unfold fetch; rw [h]
  cases hd : decode cw <;> simp only [step_legal hp, hf, hd]

/-- Everything a step can do: on the state whose turn is taken it runs an instruction (the sequencer's, a host command, or a
harness's), or the engine waits outside a call, or the host acts. -/
theorem step_cases (h : step s = .next t) :
    20 ≤ s.params.lenw ∧ ∃ u : State, u = { s with turns := s.turns.tail } ∧
      ((∃ i, exec i u = .next t ∧
          (nextStep s = some i ∨ (i = .encrypt ∧ s.turns = .host (.writeReg 0 0xa000) :: u.turns) ∨
            (i = .decrypt ∧ s.turns = .host (.writeReg 0 0xa100) :: u.turns) ∨ ∃ cw, s.turns = .issue cw :: u.turns)) ∨
        (busy s.phase = false ∧ t = u ∧ (s.turns = [] ∨ s.turns = .engine :: u.turns)) ∨
        (∃ act, s.turns = .host act :: u.turns ∧ act ≠ .writeReg 0 0xa000 ∧ act ≠ .writeReg 0 0xa100 ∧
          hostAct act u = .next t)) := by
  have hp := lenw_of_step h
  refine ⟨hp, _, rfl, ?_⟩
  rcases hl : s.turns with _ | ⟨tn, rest⟩
  · rw [step_engine hp (.inl ⟨hl, rfl⟩)] at h
    split at h
    · next i hn => exact .inl ⟨i, h, .inl hn⟩
    · next hn => exact .inr (.inl ⟨nextStep_eq_none.1 hn, (Host.Outcome.next.inj h).symm, .inl rfl⟩)
  · cases tn with
    | engine =>
      rw [step_engine hp (.inr hl)] at h
      split at h
      · next i hn => exact .inl ⟨i, h, .inl hn⟩
      · next hn => exact .inr (.inl ⟨nextStep_eq_none.1 hn, (Host.Outcome.next.inj h).symm, .inr rfl⟩)
    | issue cw =>
      rw [step_issue hp hl] at h
      split at h
      · next i hd => exact .inl ⟨i, h, .inr (.inr (.inr ⟨cw, rfl⟩))⟩
      · cases h
    | host act =>
      by_cases h1 : act = .writeReg 0 0xa000
      · subst h1
        rw [step_encrypt hp hl] at h
        exact .inl ⟨_, h, .inr (.inl ⟨rfl, rfl⟩)⟩
      · by_cases h2 : act = .writeReg 0 0xa100
        · subst h2
          rw [step_decrypt hp hl] at h
          exact .inl ⟨_, h, .inr (.inr (.inl ⟨rfl, rfl⟩))⟩
        · rw [step_hostAct hp hl h1 h2] at h
          exact .inr (.inr ⟨act, rfl, h1, h2, h⟩)

/-- A host action answers a next state only as these say. -/
theorem hostAct_eq_next {act : HostAct} (h : hostAct act s = .next t) :
    (∃ v, t = { s with readData := v }) ∨ (∃ v, busy s.phase = false ∧ t = { s with readData := v, freeCtr := s.freeCtr + 1 }) ∨
    (∃ v, busy s.phase = false ∧ v < 2 ^ s.params.lenw ∧ (t = { s with adLen := v } ∨ t = { s with inLen := v })) ∨
    (∃ sp a b l, busy s.phase = false ∧ a < hostSize s sp ∧
      t = { setMem s sp ((mem s sp).set a b) with outAny := l } ∧ List.Sublist l s.outAny) ∨
    (act = .reset ∧ t = resetEngine s) := by
  cases act with
  | reset => exact .inr (.inr (.inr (.inr ⟨rfl, (Host.Outcome.next.inj h).symm⟩)))
  | readReg n =>
    refine .inl ?_
    simp only [hostAct, hostReadReg] at h
    split at h <;> first | exact ⟨_, (Host.Outcome.next.inj h).symm⟩ | cases h
  | writeReg n v =>
    refine .inr (.inr (.inl ⟨v, ?_⟩))
    simp only [hostAct, hostWriteReg] at h
    split at h <;> try cases h
    all_goals
      rw [writeLength, whenFree_eq_next] at h
      obtain ⟨hb, h⟩ := h
      split at h
      · next hv => exact ⟨hb, hv, by have := Host.Outcome.next.inj h; tauto⟩
      · cases h
  | writeByte sp a b =>
    refine .inr (.inr (.inr (.inl ?_)))
    simp only [hostAct, hostWriteByte, whenSpaceFree] at h
    split at h
    · cases h
    · next hb =>
      split at h
      · next ha =>
        have h' := (Host.Outcome.next.inj h).symm
        cases sp with
        | out => exact ⟨_, a, b, _, by simpa using hb, ha, h', List.filter_sublist⟩
        | key => exact ⟨.key, a, b, s.outAny, by simpa using hb, ha, h', List.Sublist.refl _⟩
        | nonce => exact ⟨.nonce, a, b, s.outAny, by simpa using hb, ha, h', List.Sublist.refl _⟩
        | ad => exact ⟨.ad, a, b, s.outAny, by simpa using hb, ha, h', List.Sublist.refl _⟩
        | inp => exact ⟨.inp, a, b, s.outAny, by simpa using hb, ha, h', List.Sublist.refl _⟩
      · cases h
  | readByte sp a =>
    simp only [hostAct, hostReadByte, whenSpaceFree] at h
    split at h
    · cases h
    · next hb =>
      split at h
      · by_cases hc : sp = .out ∧ a ∈ s.outAny
        · rw [if_pos hc] at h
          exact .inr (.inl ⟨_, by simpa using hb, (Host.Outcome.next.inj h).symm⟩)
        · rw [if_neg hc] at h
          exact .inl ⟨_, (Host.Outcome.next.inj h).symm⟩
      · cases h

end Sys2Proof.Machine
end

