-- ==== Sys2Proof/Tests/Slice0.lean ====
section
/-! SUPPORT. The model's own tests: the WellFormed smoke, words written out from the encoding rules, one step per instruction against
the values 95_test_vectors and the rules give, and for each obligation with hypotheses a state and operands that meet them. -/

namespace Sys2Proof.Tests

open Sys2Proof.Machine

/-! ### States -/

/-- MIX of 95 section 2.1. -/
def mix : Sponge :=
  ⟨0x0123456789abcdef, 0xfedcba9876543210, 0x0f1e2d3c4b5a6978, 0x8796a5b4c3d2e1f0, 0xdeadbeefcafef00d⟩

/-- ZERO of 95 section 2.1. -/
def zero : Sponge := ⟨0, 0, 0, 0, 0⟩

/-- The words after INIT with KEY = NONCE = 00 .. 0f (R162). -/
def afterInit : Sponge :=
  ⟨0xbc830fbef3a1651b, 0x487a66865036b909, 0xa031b0c5810c1cd6, 0xdd7ce72083702217, 0x9b17156ede557ce7⟩

/-- The words before ENCBLK in the example of R191. -/
def beforeData : Sponge :=
  ⟨0x0276097285ef98bc, 0xac4b7a46f4254dfd, 0x42809f1a4cd78e4f, 0x0eb2fbccda49bddd, 0xd8e7b440bf18eda4⟩

/-- The words after ENCBLK in the example of R191. -/
def afterBlock : Sponge :=
  ⟨0x0dffe5f315c97788, 0x1453fdac72db6126, 0xe24397068a15c481, 0x2aba752c8e79fe59, 0xa943870c5cec4dc0⟩

/-- The bytes 00 01 .. 0f. -/
def counting : Memory :=
  [(1, 1), (2, 2), (3, 3), (4, 4), (5, 5), (6, 6), (7, 7), (8, 8)]
    ++ [(9, 9), (10, 10), (11, 11), (12, 12), (13, 13), (14, 14), (15, 15)]

/-- Bytes from an address on; none may be 00. -/
def place : Nat → List Byte → Memory
  | _, [] => []
  | a, b :: bs => (a, b) :: place (a + 1) bs

/-- A state inside a call, with the words S and the key of 95. -/
def inCall (S : Sponge) (p : Phase) (m : Mode) : State :=
  { State.reset with x := some S, k0 := some 0x0001020304050607, k1 := some 0x08090a0b0c0d0e0f, phase := p, mode := m }

/-- The outcome is a next state with this property. -/
def answers (o : StepOutcome) (p : State → Bool) : Bool :=
  match o with
  | .next t => p t
  | .fault _ => false
  | .refused _ => false

/-- The outcome's next state, if it is one. -/
def after (o : StepOutcome) : State :=
  match o with
  | .next t => t
  | .fault _ => State.reset
  | .refused _ => State.reset

/-! ### WellFormed: one ill-formed term for each check -/

theorem test_addc_illformed : (Instr.addc 0x00).wellFormed = false := by decide
theorem test_round_illformed : (Instr.round 0x0f).wellFormed = false := by decide
theorem test_load_illformed : (Instr.load 9).wellFormed = false := by decide
theorem test_store_illformed : (Instr.store 9).wellFormed = false := by decide
theorem test_keep_illformed : (Instr.keep 15).wellFormed = false := by decide
theorem test_pad_illformed : (Instr.pad 8).wellFormed = false := by decide

/-! ### Decoding: words written bit by bit from R91 and R92 -/

theorem test_decode_addc : decodeTableWord 16 0b0001000011110000 = some (.addc 0xf0) := by decide
theorem test_decode_subst : decodeTableWord 16 0b0001000100000000 = some (.subst) := by decide
theorem test_decode_ldiff : decodeTableWord 16 0b0001001000000000 = some (.ldiff) := by decide
theorem test_decode_round : decodeTableWord 16 0b0001001101001011 = some (.round 0x4b) := by decide
theorem test_decode_p6 : decodeTableWord 16 0b0001010000000110 = some (.p6) := by decide
theorem test_decode_p12 : decodeTableWord 16 0b0001010000001100 = some (.p12) := by decide
theorem test_decode_load : decodeTableWord 16 0b0010000000001000 = some (.load 8) := by decide
theorem test_decode_store : decodeTableWord 16 0b0010000100000011 = some (.store 3) := by decide
theorem test_decode_keep : decodeTableWord 16 0b0010001000000000 = some (.keep 0) := by decide
theorem test_decode_pad : decodeTableWord 16 0b0010001100000111 = some (.pad 7) := by decide
theorem test_decode_init : decodeTableWord 16 0b0011000000000000 = some (.init) := by decide
theorem test_decode_adblk : decodeTableWord 16 0b0011000100000000 = some (.adblk) := by decide
theorem test_decode_adfin : decodeTableWord 16 0b0011001000000000 = some (.adfin) := by decide
theorem test_decode_domsep : decodeTableWord 16 0b0011001100000000 = some (.domsep) := by decide
theorem test_decode_final : decodeTableWord 16 0b0011010000000000 = some (.final) := by decide
theorem test_decode_encblk : decodeTableWord 16 0b0100000000000000 = some (.encblk) := by decide
theorem test_decode_encfin : decodeTableWord 16 0b0100000100000000 = some (.encfin) := by decide
theorem test_decode_tagout : decodeTableWord 16 0b0100001000000000 = some (.tagout) := by decide
theorem test_decode_decblk : decodeTableWord 16 0b0101000000000000 = some (.decblk) := by decide
theorem test_decode_decfin : decodeTableWord 16 0b0101000100000000 = some (.decfin) := by decide
theorem test_decode_tagvfy : decodeTableWord 16 0b0101001000000000 = some (.tagvfy) := by decide
theorem test_decode_encrypt : decodeTableWord 16 0b1010000000000000 = some (.encrypt) := by decide
theorem test_decode_decrypt : decodeTableWord 16 0b1010000100000000 = some (.decrypt) := by decide

/-- R91, R94: the all-zero word is no operation. -/
theorem test_decode_zero : decode 0x0000 = .error .reservedUnit := by rfl
theorem test_decode_reserved_units :
    ([0x0, 0x6, 0x7, 0x8, 0x9, 0xb, 0xc, 0xd, 0xe, 0xf] : List (BitVec 4)).all
      (fun u => decodeTableWord 16 (u.toNat * 4096) == none) = true := by decide
theorem test_decode_unlisted_fn : decode 0x3500 = .error .unlistedFn := by rfl
theorem test_decode_illegal_constant : decode 0x1000 = .error .illegalConstant := by rfl
theorem test_decode_illegal_rounds : decode 0x1408 = .error .illegalRounds := by rfl
theorem test_decode_illegal_count : decode 0x2009 = .error .illegalCount := by rfl
theorem test_decode_pad_8 : decode 0x2308 = .error .illegalCount := by rfl
theorem test_decode_high_count_bits : decode 0x2010 = .error .illegalCount := by rfl
theorem test_decode_nonzero_arg : decode 0x3001 = .error .nonzeroArg := by rfl

/-! ### One step per instruction -/

/-- 95 section 2.1 -/
theorem test_addc :
    answers (exec (.addc 0xf0) (inCall mix .idle .enc)) (fun t =>
      decide (t.x = some ⟨0x0123456789abcdef, 0xfedcba9876543210, 0x0f1e2d3c4b5a6988, 0x8796a5b4c3d2e1f0, 0xdeadbeefcafef00d⟩)) = true := by
  decide

/-- 95 section 2.1 -/
theorem test_subst :
    answers (exec (.subst) (inCall mix .idle .enc)) (fun t =>
      decide (t.x = some ⟨0xa7e7e5e777736767, 0x26446424fedbe60a, 0x56147210caddb49a, 0xa8f9c8dbb4a18697, 0x796b1b4b3d2c13ed⟩)) = true := by
  decide

/-- 95 section 2.1 -/
theorem test_ldiff :
    answers (exec (.ldiff) (inCall mix .idle .enc)) (fun t =>
      decide (t.x = some ⟨0xe2227bb3f3336aa2, 0x38d5c63fe5081be2, 0xe8ad43169fda3461, 0x8b4f03d6fc3874a1, 0xb2f59aea13845b32⟩)) = true := by
  decide

/-- 95 section 2.1 -/
theorem test_round :
    answers (exec (.round 0xf0) (inCall mix .idle .enc)) (fun t =>
      decide (t.x = some ⟨0xbc216961f5b1d71e, 0x5d9af2cf3c485e03, 0xd4461ad0ec98188e, 0xf22022d566217456, 0x06075b745deafe47⟩)) = true := by
  decide

/-- 95 section 2.1 -/
theorem test_p6 :
    answers (exec (.p6) (inCall mix .idle .enc)) (fun t =>
      decide (t.x = some ⟨0x4755200ecd2f6091, 0xdfea9b406aea7b31, 0x286f9d71e2adbff5, 0x496bd0284a0307cf, 0xabf923fd8f4f6a4a⟩)) = true := by
  decide

/-- 95 section 2.1 -/
theorem test_p12 :
    answers (exec (.p12) (inCall mix .idle .enc)) (fun t =>
      decide (t.x = some ⟨0xb8d6dda6cf3ccd98, 0xc78f4c4a91fc1ad1, 0x25a12813dd67d4f5, 0x3d6a5b3bc8b8b0d7, 0x60657fb14cb3946e⟩)) = true := by
  decide

/-- 95 section 2.1 -/
theorem test_p12_zero :
    answers (exec (.p12) (inCall zero .idle .enc)) (fun t =>
      decide (t.x = some ⟨0x78ea7ae5cfebb108, 0x9b9bfb8513b560f7, 0x6937f83e03d11a50, 0x3fe53f36f2c1178c, 0x045d648e4def12c9⟩)) = true := by
  decide

/-- The harness operands of 95 section 2.2. -/
def codecState : State :=
  { State.reset with
    port := { CodecPort.blank with
      bytesIn := #v[0x01, 0x23, 0x45, 0x67, 0x89, 0xab, 0xcd, 0xef]
      wordIn := 0x0123456789abcdef } }

/-- 95 section 2.2 -/
theorem test_load :
    answers (exec (.load 3) codecState) (fun t => decide (t.port.wordOut = 0x0123450000000000)) = true := by decide
theorem test_load_8 :
    answers (exec (.load 8) codecState) (fun t => decide (t.port.wordOut = 0x0123456789abcdef)) = true := by decide
theorem test_store :
    answers (exec (.store 3) codecState) (fun t => decide (t.port.bytesOut = [0x01, 0x23, 0x45])) = true := by decide
theorem test_keep :
    answers (exec (.keep 3) codecState) (fun t => decide (t.port.wordOut = 0x0123450000000000)) = true := by decide
theorem test_keep_0 :
    answers (exec (.keep 0) codecState) (fun t => decide (t.port.wordOut = 0)) = true := by decide
theorem test_pad :
    answers (exec (.pad 1) codecState) (fun t => decide (t.port.wordOut = 0x0080000000000000)) = true := by decide
theorem test_pad_7 :
    answers (exec (.pad 7) codecState) (fun t => decide (t.port.wordOut = 0x0000000000000080)) = true := by decide

/-- R162, the example; ADLEN = 1. -/
theorem test_init :
    answers (exec .init { State.reset with phase := .init, key := counting, nonce := counting, adLen := 1 }) (fun t =>
      decide (t.x = some afterInit ∧ t.k0 = some 0x0001020304050607 ∧ t.k1 = some 0x08090a0b0c0d0e0f ∧
        t.phase = .absorbAd)) = true := by
  decide

/-- R166: ADLEN = 0 skips the phase. -/
theorem test_init_no_ad :
    answers (exec .init { State.reset with phase := .init }) (fun t => decide (t.phase = .domsep)) = true := by decide

/-- R164, the example. -/
theorem test_adblk :
    answers (exec .adblk { inCall afterInit .absorbAd .enc with
      adLen := 8, ad := place 0 [0x10, 0x11, 0x12, 0x13, 0x14, 0x15, 0x16, 0x17] }) (fun t =>
        decide (t.x = some ⟨0xb2f08137bf0931c8, 0x7974813396488cdc, 0xa79d92b0be1ad8e8, 0x8da61b3912d81aa7,
          0xa9401057adc58728⟩ ∧ t.adPos = 8 ∧ t.phase = .absorbAd)) = true := by
  decide

/-- R165, the example. -/
theorem test_adfin :
    answers (exec .adfin { inCall afterInit .absorbAd .enc with adLen := 1, ad := place 0 [0xa5] }) (fun t =>
      decide (t.x = some ⟨0x0276097285ef98bc, 0xac4b7a46f4254dfd, 0x42809f1a4cd78e4f, 0x0eb2fbccda49bddd,
        0xd8e7b440bf18eda5⟩ ∧ t.adPos = 1 ∧ t.phase = .domsep)) = true := by
  decide

/-- 95 section 2.3: n = 0 after a whole block. -/
theorem test_adfin_empty :
    answers (exec .adfin { inCall ⟨0xb2f08137bf0931c8, 0x7974813396488cdc, 0xa79d92b0be1ad8e8, 0x8da61b3912d81aa7,
      0xa9401057adc58728⟩ .absorbAd .enc with adLen := 8, adPos := 8 }) (fun t =>
        decide (t.x = some ⟨0x6e65a3c240621ce3, 0xe19e96d71044d4d3, 0x751fa532374c7ae1, 0x305c7432e27b24a6,
          0x1c348e9cb6ace196⟩ ∧ t.adPos = 8)) = true := by
  decide

/-- R167, the example. -/
theorem test_domsep :
    answers (exec .domsep (inCall afterInit .domsep .enc)) (fun t =>
      decide (t.x = some { afterInit with x4 := 0x9b17156ede557ce6 } ∧ t.phase = .process)) = true := by
  decide

/-- R168, the example. -/
theorem test_final :
    answers (exec .final (inCall ⟨0x3c830fbef3a1651b, 0x487a66865036b909, 0xa031b0c5810c1cd6, 0xdd7ce72083702217,
      0x9b17156ede557ce6⟩ .finalize .enc)) (fun t =>
        decide (t.x = some ⟨0x318951aa8731d1ae, 0xdcd1ad55dc02c52c, 0xa9bdc1fa5ebde2cb, 0xe355159f292911f7,
          0x94cb1432a0103a8a⟩ ∧ t.phase = .emitTag)) = true := by
  decide

/-- R190, the example: INLEN = 9, ADLEN = 1. -/
theorem test_encrypt :
    answers (exec .encrypt { State.reset with inLen := 9, adLen := 1, phase := .done, result := .authFail, mode := .dec })
      (fun t => decide (t.mode = .enc ∧ t.mLen = 9 ∧ t.result = .none ∧ t.phase = .init ∧ t.inPos = 0)) = true := by
  decide

/-- R191, the example. -/
theorem test_encblk :
    answers (exec .encblk { inCall beforeData .process .enc with
      inLen := 9, mLen := 9, inp := place 0 [0x41, 0x53, 0x43, 0x4f, 0x4e, 0x2d, 0x31, 0x32, 0x38] }) (fun t =>
        decide (t.x = some afterBlock ∧ t.inPos = 8 ∧ t.outPos = 8 ∧
          t.out = place 0 [0x43, 0x25, 0x4a, 0x3d, 0xcb, 0xc2, 0xa9, 0x8e])) = true := by
  decide

/-- R192, the example. -/
theorem test_encfin :
    answers (exec .encfin { inCall afterBlock .process .enc with
      inLen := 9, mLen := 9, inPos := 8, outPos := 8, inp := place 8 [0x38] }) (fun t =>
        decide (t.x = some { afterBlock with x0 := 0x357fe5f315c97788 } ∧ t.inPos = 9 ∧ t.outPos = 9 ∧
          t.out = place 8 [0x35] ∧ t.phase = .finalize)) = true := by
  decide

/-- 95 section 2.3: n = 0. -/
theorem test_encfin_empty :
    answers (exec .encfin (inCall { afterInit with x0 := 0x6e65a3c240621ce3 } .process .enc)) (fun t =>
      decide (t.x = some { afterInit with x0 := 0xee65a3c240621ce3 } ∧ t.out = [])) = true := by
  decide

/-- R193, the example. -/
theorem test_tagout :
    answers (exec .tagout (inCall { zero with x3 := 0xe355159f292911f7, x4 := 0x94cb1432a0103a8a } .emitTag .enc)) (fun t =>
      decide (t.outLen = 16 ∧ t.result = .ok ∧ t.phase = .done ∧ t.x = none ∧ t.out = place 0
        ([0xe3, 0x55, 0x15, 0x9f, 0x29, 0x29, 0x11, 0xf7] ++ [0x94, 0xcb, 0x14, 0x32, 0xa0, 0x10, 0x3a, 0x8a]))) =
      true := by
  decide

/-- R210, the example: INLEN = 15. -/
theorem test_decrypt_short :
    answers (exec .decrypt { State.reset with inLen := 15 }) (fun t =>
      decide (t.result = .structErr ∧ t.phase = .done ∧ status t = 0x000a ∧ t.outLen = 0)) = true := by
  decide

/-- R210: INLEN = 16 is legal, MLEN = 0. -/
theorem test_decrypt_16 :
    answers (exec .decrypt { State.reset with inLen := 16 }) (fun t =>
      decide (t.mode = .dec ∧ t.mLen = 0 ∧ t.phase = .init ∧ t.result = .none)) = true := by
  decide

/-- R211, the example. -/
theorem test_decblk :
    answers (exec .decblk { inCall beforeData .process .dec with
      inLen := 24, mLen := 8, inp := place 0 [0x43, 0x25, 0x4a, 0x3d, 0xcb, 0xc2, 0xa9, 0x8e] }) (fun t =>
        decide (t.x = some afterBlock ∧ t.out = place 0 [0x41, 0x53, 0x43, 0x4f, 0x4e, 0x2d, 0x31, 0x32])) = true := by
  decide

/-- R212, the example. -/
theorem test_decfin :
    answers (exec .decfin { inCall afterBlock .process .dec with
      inLen := 25, mLen := 9, inPos := 8, outPos := 8, inp := place 8 [0x35] }) (fun t =>
        decide (t.x = some { afterBlock with x0 := 0x357fe5f315c97788 } ∧ t.out = place 8 [0x38] ∧
          t.phase = .finalize)) = true := by
  decide

/-- The state before TAGVFY in the example of R213, with the last tag byte received given. -/
def verifying (last : Byte) : State :=
  { inCall { zero with x3 := 0xbdd3f63dc324f4c1, x4 := 0x673d14a2ad1713d0 } .verifyTag .dec with
    inLen := 17, mLen := 1, inPos := 1, outPos := 1, out := place 0 [0x41]
    inp := place 1 ([0xbd, 0xd3, 0xf6, 0x3d, 0xc3, 0x24, 0xf4, 0xc1]
      ++ [0x67, 0x3d, 0x14, 0xa2, 0xad, 0x17, 0x13, last]) }

/-- R213, the example: the last byte differs in bit 0. -/
theorem test_tagvfy_differs :
    answers (exec .tagvfy (verifying 0xd1)) (fun t =>
      decide (t.result = .authFail ∧ status t = 0x000e ∧ t.outLen = 0 ∧ t.x = none ∧ t.outAny = [0])) = true := by
  decide

/-- R213: the tag as expected. -/
theorem test_tagvfy_equal :
    answers (exec .tagvfy (verifying 0xd0)) (fun t =>
      decide (t.result = .ok ∧ status t = 0x0006 ∧ t.outLen = 1 ∧ t.out = place 0 [0x41])) = true := by
  decide

/-! ### Hypotheses met

For each obligation with hypotheses, `meets_<Name>` gives a state and operands that meet them together; where it has clauses, one
for each, at the end of its range. -/

theorem meets_DecodeOfEncode :
    (Instr.load 8).wellFormed = true ∧ (Instr.pad 7).wellFormed = true ∧ (Instr.round 0x4b).wellFormed = true := by decide

theorem meets_EncodeOfDecode : decode 0x2008 = .ok (.load 8) ∧ decode 0x2307 = .ok (.pad 7) := ⟨rfl, rfl⟩

theorem meets_OpcodeMapDecodes :
    (0xf0#8 ∈ roundConstants ∧ 0x4b#8 ∈ roundConstants) ∧ (8#4).toNat ≤ 8 ∧ (0#4).toNat ≤ 8 ∧ (7#4).toNat ≤ 7 := by decide

theorem meets_IllegalWordsAreRefused_step :
    fetch { State.reset with turns := [.issue 0x2308] } = some (0x2308, State.reset) ∧ 0x2308#16 ∉ legalWords ∧
      20 ≤ State.reset.params.lenw := ⟨rfl, by decide, by decide⟩

theorem meets_IllegalWordsAreRefused_cmd :
    ({ State.reset with turns := [.host (.writeReg 0 0xa001)] } : State).turns = .host (.writeReg 0 0xa001) :: [] ∧
      0xa001 ≠ 0xa000 ∧ 0xa001 ≠ 0xa100 ∧ 20 ≤ State.reset.params.lenw := by decide

theorem meets_StepRunsDecodedInstruction :
    fetch (inCall mix .domsep .enc) = some (0x3300, inCall mix .domsep .enc) ∧ decode 0x3300 = .ok .domsep ∧
      20 ≤ (inCall mix .domsep .enc).params.lenw := ⟨rfl, rfl, by decide⟩

/-- LENW = 19, the largest value without a meaning, beside a legal LENW = 20 (R6). -/
def narrow (lenw : Nat) : State := { State.reset with params := { Config.Params.default with lenw := lenw } }

theorem meets_StepRunsDecodedInstruction_narrow : (narrow 19).params.lenw < 20 ∧ 20 ≤ (narrow 20).params.lenw := by decide

/-- R6, R12: the instance with LENW = 19 makes no step, that with LENW = 20 waits. -/
theorem test_narrow : step (narrow 19) = .refused .illegalParameter ∧ step (narrow 20) = .next (narrow 20) := ⟨rfl, rfl⟩

theorem meets_EngineTurnRunsSequencerStep :
    (inCall mix .domsep .enc).turns = [] ∧ nextStep (inCall mix .domsep .enc) = some .domsep ∧
      ({ State.reset with turns := [.engine] } : State).turns = .engine :: [] ∧ busy State.reset.phase = false ∧
      20 ≤ (inCall mix .domsep .enc).params.lenw ∧ 20 ≤ State.reset.params.lenw := by decide

theorem meets_AddcResult : 0x4b#8 ∈ roundConstants ∧ (inCall mix .idle .enc).x = some mix := by decide

theorem meets_SubstReplacesColumns : (inCall mix .idle .enc).x = some mix ∧ 63 < 64 := by decide

theorem meets_LdiffRotates : (inCall mix .idle .enc).x = some mix ∧ 63 < 64 := by decide

theorem meets_RoundIsThreeLayers : 0x4b#8 ∈ roundConstants ∧ (inCall mix .idle .enc).x = some mix := by decide

theorem meets_PermutationsAreTheirRounds : (inCall mix .idle .enc).x = some mix := by decide

theorem meets_AddcResult_illegal : 0x00#8 ∉ roundConstants ∧ 0xf1#8 ∉ roundConstants := by decide

theorem meets_LoadResult : (8#4).toNat ≤ 8 ∧ (0#4).toNat ≤ 8 := by decide

theorem meets_StoreResult : (8#4).toNat ≤ 8 ∧ 7 < (8#4).toNat := by decide

theorem meets_KeepResult : (8#4).toNat ≤ 8 ∧ (0#4).toNat ≤ 8 := by decide

theorem meets_PadResult : (7#4).toNat ≤ 7 ∧ (0#4).toNat ≤ 7 := by decide

theorem meets_CountsAreInRange : 8 < (9#4).toNat ∧ 7 < (8#4).toNat := by decide

theorem meets_CountsAreInRange_adfin :
    exec .adfin { inCall mix .absorbAd .enc with adLen := 7, ad := place 0 [1] } ≠ .refused .notEnabled :=
  fun h => nomatch h

theorem meets_CountsAreInRange_encfin :
    exec .encfin { inCall mix .process .enc with inLen := 7, mLen := 7 } ≠ .refused .notEnabled := fun h => nomatch h

theorem meets_CountsAreInRange_decfin :
    exec .decfin { inCall mix .process .dec with inLen := 23, mLen := 7 } ≠ .refused .notEnabled := fun h => nomatch h

theorem meets_CodecLaws : 8 ≤ 8 ∧ ([1, 2, 3, 4, 5, 6, 7, 8] : List Byte).length = 8 ∧ ([] : List Byte).length = 0 := by decide

theorem meets_ReadingNoValueFaults :
    State.reset.x = none ∧ nextStep { State.reset with phase := .domsep } = some .domsep ∧ Instr.domsep ≠ .init ∧
      ({ inCall mix .finalize .enc with k1 := none } : State).k1 = none := by decide

theorem meets_ExactlyOneStepEnabled :
    busy (inCall mix .verifyTag .dec).phase = true ∧ busy (inCall mix .init .enc).phase = true ∧
      busy State.reset.phase = false ∧ Instr.init.layer = .controllerStep := by decide

/-- One short state per operation in which it answers a next state. -/
def readyFor (i : Instr) : State := sequencingFor i (withOperands State.reset)

theorem meets_PhaseTransitions_unit :
    ([.addc 0xf0, .subst, .ldiff, .round 0x4b, .p6, .p12, .load 8, .store 8, .keep 8, .pad 7] : List Instr).all
      (fun i => answers (exec i (readyFor i)) fun _ => true) = true := by decide

theorem meets_PhaseTransitions_steps :
    ([.init, .adblk, .adfin, .domsep, .final, .encblk, .encfin, .tagout, .decblk, .decfin, .tagvfy] : List Instr).all
      (fun i => answers (exec i (readyFor i)) fun _ => true) = true := by decide

theorem meets_PhaseTransitions_commands :
    answers (exec .encrypt State.reset) (fun _ => true) = true ∧
      answers (exec .decrypt { State.reset with inLen := 16 }) (fun _ => true) = true ∧
      answers (exec .decrypt { State.reset with inLen := 15 }) (fun _ => true) = true := by decide

theorem meets_InitResult : ({ State.reset with phase := .init } : State).phase = .init := by decide

theorem meets_AdblkResult :
    (inCall mix .absorbAd .enc).phase = .absorbAd ∧ (inCall mix .absorbAd .enc).x = some mix ∧ 0 + 8 ≤ 8 := by decide

/-- The state for the AD steps: ADLEN = 7, nothing consumed. -/
def sevenLeft : State := { inCall mix .absorbAd .enc with adLen := 7 }

theorem meets_AdfinResult :
    sevenLeft.phase = .absorbAd ∧ sevenLeft.adPos + 7 = sevenLeft.adLen ∧ 7 < 8 ∧ sevenLeft.x = some mix := by decide

theorem meets_DomsepFlipsOneBit : (inCall mix .domsep .enc).phase = .domsep ∧ (inCall mix .domsep .enc).x = some mix := by decide

theorem meets_FinalResult :
    (inCall mix .finalize .dec).phase = .finalize ∧ (inCall mix .finalize .dec).x = some mix ∧
      (inCall mix .finalize .dec).k0 = some 0x0001020304050607 ∧
      (inCall mix .finalize .dec).k1 = some 0x08090a0b0c0d0e0f := by decide

/-- The longest message LENW = 64 admits for ENCRYPT: INLEN = 2^64 - 17 (R291). -/
theorem meets_EncryptStartsACall :
    busy State.reset.phase = false ∧ (2 ^ 64 - 17) + 17 ≤ 2 ^ State.reset.params.lenw ∧
      2 ^ State.reset.params.lenw < (2 ^ 64 - 16) + 17 ∧ busy (inCall mix .init .enc).phase = true := by decide

/-- A data phase with m bytes of message in IN and none consumed. -/
def message (md : Mode) (m : Nat) : State :=
  { inCall mix .process md with mLen := m, inLen := if md = .enc then m else m + 16, inp := place 0 [1, 2, 3] }

theorem meets_EncblkResult :
    (message .enc 8).phase = .process ∧ (message .enc 8).mode = .enc ∧
      (message .enc 8).inPos + 8 ≤ (message .enc 8).mLen ∧ (message .enc 8).mLen ≤ (message .enc 8).inLen ∧
      (message .enc 8).outPos + 8 ≤ 2 ^ (message .enc 8).params.lenw ∧ (message .enc 8).x = some mix ∧
      (message .enc 8).out.wf = true := by decide

theorem meets_EncfinResult :
    (message .enc 7).phase = .process ∧ (message .enc 7).mode = .enc ∧
      (message .enc 7).inPos + 7 = (message .enc 7).mLen ∧ 7 < 8 ∧ (message .enc 7).mLen ≤ (message .enc 7).inLen ∧
      (message .enc 7).outPos + 7 ≤ 2 ^ (message .enc 7).params.lenw ∧ (message .enc 7).x = some mix ∧
      (message .enc 7).out.wf = true := by decide

theorem meets_EncfinResult_empty :
    (message .enc 0).inPos + 0 = (message .enc 0).mLen ∧ (message .enc 0).x = some mix := by decide

theorem meets_TagoutResult :
    (inCall mix .emitTag .enc).phase = .emitTag ∧
      (inCall mix .emitTag .enc).outPos + 16 ≤ 2 ^ (inCall mix .emitTag .enc).params.lenw ∧
      (inCall mix .emitTag .enc).x = some mix ∧ (inCall mix .emitTag .enc).out.wf = true := by decide

theorem meets_DecryptStartsACall :
    busy State.reset.phase = false ∧ 16 ≤ ({ State.reset with inLen := 16 } : State).inLen ∧
      ({ State.reset with inLen := 15 } : State).inLen < 16 ∧ busy (inCall mix .init .dec).phase = true := by decide

theorem meets_DecblkResult :
    (message .dec 8).phase = .process ∧ (message .dec 8).mode = .dec ∧
      (message .dec 8).inPos + 8 ≤ (message .dec 8).mLen ∧ (message .dec 8).mLen ≤ (message .dec 8).inLen ∧
      (message .dec 8).outPos + 8 ≤ 2 ^ (message .dec 8).params.lenw ∧ (message .dec 8).x = some mix ∧
      (message .dec 8).out.wf = true := by decide

theorem meets_DecfinResult :
    (message .dec 7).phase = .process ∧ (message .dec 7).mode = .dec ∧
      (message .dec 7).inPos + 7 = (message .dec 7).mLen ∧ 7 < 8 ∧ (message .dec 7).mLen ≤ (message .dec 7).inLen ∧
      (message .dec 7).outPos + 7 ≤ 2 ^ (message .dec 7).params.lenw ∧ (message .dec 7).x = some mix ∧
      (message .dec 7).out.wf = true := by decide

/-- With either last byte: the tags equal, and the tags different. -/
theorem meets_TagvfyDecidesTheCall :
    (verifying 0xd0).phase = .verifyTag ∧ (verifying 0xd0).mLen + 16 ≤ (verifying 0xd0).inLen ∧
      (verifying 0xd0).mLen ≤ 2 ^ (verifying 0xd0).params.lenw ∧
      (verifying 0xd0).x = some { zero with x3 := 0xbdd3f63dc324f4c1, x4 := 0x673d14a2ad1713d0 } ∧
      (verifying 0xd0).out.wf = true := by decide

theorem meets_AccumulatorShowsDifferences : ([0xbd, 0xd3] : List Byte).length = ([0xbd, 0xd1] : List Byte).length ∧ 7 < 8 := by
  decide

theorem meets_CollapseTable : (0x00#8 = 0) ∧ (0x01#8 ≠ 0) ∧ (0xff#8 ≠ 0) := by decide

theorem meets_StatusFields :
    ({ State.reset with turns := [.host (.readReg 1)] } : State).turns = .host (.readReg 1) :: [] ∧
      ({ State.reset with turns := [.host (.writeReg 1 0)] } : State).turns = .host (.writeReg 1 0) :: [] ∧ 4 ≤ 15 ∧
      20 ≤ State.reset.params.lenw := by decide

theorem meets_RegisterNumbers :
    ({ State.reset with turns := [.host (.readReg 4)] } : State).turns = .host (.readReg 4) :: [] ∧
      ({ State.reset with turns := [.host (.writeReg 3 16)] } : State).turns = .host (.writeReg 3 16) :: [] ∧
      busy State.reset.phase = false ∧ 2 ^ 64 - 1 < 2 ^ State.reset.params.lenw ∧ 5 ≤ 5 ∧
      20 ≤ State.reset.params.lenw := by decide

theorem meets_CommandsThroughCmd :
    ({ State.reset with turns := [.host (.writeReg 0 0xa000)] } : State).turns = .host (.writeReg 0 0xa000) :: [] ∧
      ({ State.reset with turns := [.host (.readReg 0)] } : State).turns = .host (.readReg 0) :: [] ∧
      busy State.reset.phase = false ∧ busy (inCall mix .verifyTag .dec).phase = true ∧
      0xa001 ≠ 0xa000 ∧ 0xa001 ≠ 0xa100 ∧ 20 ≤ State.reset.params.lenw := by decide

theorem meets_LengthWrites :
    ({ State.reset with turns := [.host (.writeReg 2 (2 ^ 64 - 1))] } : State).turns =
        .host (.writeReg 2 (2 ^ 64 - 1)) :: [] ∧
      ({ State.reset with turns := [.host (.writeReg 3 (2 ^ 64))] } : State).turns = .host (.writeReg 3 (2 ^ 64)) :: [] ∧
      20 ≤ State.reset.params.lenw ∧ 2 ^ 64 - 1 < 2 ^ State.reset.params.lenw ∧ 2 ^ State.reset.params.lenw ≤ 2 ^ 64 ∧
      busy State.reset.phase = false ∧ busy (inCall mix .init .enc).phase = true := by decide

theorem meets_HostByteAccess_write :
    ({ State.reset with turns := [.host (.writeByte .key 15 0xff)] } : State).turns =
        .host (.writeByte .key 15 0xff) :: [] ∧
      20 ≤ State.reset.params.lenw ∧ busy State.reset.phase = false ∧ 15 < hostSize State.reset .key ∧ (mem State.reset .key).wf = true := by decide

theorem meets_HostByteAccess_read :
    ({ State.reset with turns := [.host (.readByte .out 0)], outAny := [0] } : State).turns =
        .host (.readByte .out 0) :: [] ∧
      20 ≤ State.reset.params.lenw ∧ 2 ^ 64 - 1 < hostSize State.reset .out ∧ ¬ (Space.out = .out ∧ 0 ∈ State.reset.outAny) ∧
      (Space.out = .out ∧ 0 ∈ ({ State.reset with outAny := [0] } : State).outAny) ∧
      busy (inCall mix .init .enc).phase = true := by decide

/-- Two states that differ in the words, the key latch and PHASE. -/
theorem meets_HostReadsShowNoSecret :
    (inCall mix .process .enc).params = (inCall zero .finalize .dec).params ∧
      (inCall mix .process .enc).result = (inCall zero .finalize .dec).result ∧
      (inCall mix .process .enc).outLen = (inCall zero .finalize .dec).outLen ∧
      busy (inCall mix .process .enc).phase = busy (inCall zero .finalize .dec).phase ∧
      ((inCall mix .process .enc).phase = .done ↔ (inCall zero .finalize .dec).phase = .done) ∧
      (∀ sp, mem (inCall mix .process .enc) sp = mem (inCall zero .finalize .dec) sp) ∧
      (inCall mix .process .enc).outAny = (inCall zero .finalize .dec).outAny ∧
      (inCall mix .process .enc).freeCtr = (inCall zero .finalize .dec).freeCtr :=
  ⟨rfl, rfl, rfl, rfl, by decide, fun sp => by cases sp <;> rfl, rfl, rfl⟩

theorem meets_HostReadsShowNoSecret_next :
    answers (hostAct (.readReg 1) (inCall mix .process .enc)) (fun t => decide (t.readData = 1)) = true ∧
      hostAct (.readByte .out 0) (inCall mix .process .enc) = .refused .spaceInUse := ⟨by decide, rfl⟩

/-- Reset during a call that has written 8 bytes of OUT. -/
theorem meets_ResetGivesResetState :
    ({ inCall mix .process .enc with outPos := 8, turns := [.host .reset] } : State).turns = .host .reset :: [] ∧
      20 ≤ (inCall mix .process .enc).params.lenw := by decide

theorem meets_EndedCallsHoldNoValue_tagvfy :
    exec .tagvfy (verifying 0xd1) = .next (after (exec .tagvfy (verifying 0xd1))) ∧
      (after (exec .tagvfy (verifying 0xd1))).phase = .done ∧ (verifying 0xd1).phase ≠ .done := ⟨rfl, by decide, by decide⟩

/-- From DONE, DECRYPT with INLEN = 15. -/
def shortDecrypt : State := { State.reset with phase := .done, result := .ok, inLen := 15 }

theorem meets_EndedCallsHoldNoValue_decrypt :
    exec .decrypt shortDecrypt = .next (after (exec .decrypt shortDecrypt)) ∧
      (after (exec .decrypt shortDecrypt)).phase = .done := ⟨rfl, by decide⟩

theorem meets_OnlyResetEndsACallEarly_reset :
    busy (inCall mix .process .enc).phase = true ∧
      step { inCall mix .process .enc with turns := [.host .reset] } = .next (resetEngine (inCall mix .process .enc)) ∧
      busy (resetEngine (inCall mix .process .enc)).phase = false := ⟨rfl, rfl, rfl⟩

theorem meets_OnlyResetEndsACallEarly_tagout :
    busy (inCall mix .emitTag .enc).phase = true ∧
      step (inCall mix .emitTag .enc) = .next (after (step (inCall mix .emitTag .enc))) ∧
      busy (after (step (inCall mix .emitTag .enc))).phase = false := ⟨rfl, rfl, by decide⟩

/-- TRACE_EN = 1. -/
def traced : State := { inCall mix .domsep .enc with params := { Config.Params.default with traceEn := true } }

theorem meets_TraceShowsControllerStepsOnly :
    exec .domsep traced = .next (after (exec .domsep traced)) ∧ traced.params.traceEn = true ∧
      Instr.domsep.layer = .controllerStep ∧ (inCall mix .domsep .enc).params.traceEn = false ∧
      Instr.subst.layer ≠ .controllerStep := ⟨rfl, by decide, rfl, rfl, by decide⟩

theorem meets_OperationsWriteOnlyOut :
    exec .encfin (message .enc 7) = .next (after (exec .encfin (message .enc 7))) ∧
      (writeAddresses .encfin (message .enc 7)).1 + (writeAddresses .encfin (message .enc 7)).2 ≤ 7 ∧
      ¬ (Instr.encfin = .tagvfy) := ⟨rfl, by decide, by decide⟩

/-! ### States that meet the invariant -/

/-- The state ENCRYPT leaves with INLEN = 9 and ADLEN = 1. -/
def started : State := { State.reset with phase := .init, adLen := 1, inLen := 9, mLen := 9 }

theorem started_inv : started.Inv :=
  { lenw := by decide
    memWf := fun sp => by cases sp <;> rfl
    memBelow := fun sp => by cases sp <;> rfl
    widths := by decide
    words := rfl
    keys := ⟨rfl, rfl⟩
    diff := rfl
    lengths := fun _ => ⟨by decide, by decide, fun _ => by decide, (fun h => nomatch h), rfl, rfl⟩
    positions := ⟨rfl, rfl, rfl⟩
    outAny := List.Pairwise.nil }

/-- The host about to write a command to CMD, with INLEN = n and ADLEN = 1. -/
def commanding (cmd n : Nat) : State :=
  { State.reset with adLen := 1, inLen := n, turns := [.host (.writeReg 0 cmd)] }

theorem zero_lt : 0 < 2 ^ 64 := by decide

theorem commanding_inv (cmd n : Nat) (h : n < 2 ^ 64) : (commanding cmd n).Inv :=
  { lenw := (by decide : 20 ≤ 64)
    memWf := fun sp => by cases sp <;> rfl
    memBelow := fun sp => by cases sp <;> rfl
    widths := ⟨(by decide : 1 < 2 ^ 64), h, zero_lt, zero_lt, zero_lt, zero_lt, zero_lt⟩
    words := rfl
    keys := ⟨rfl, rfl⟩
    diff := rfl
    lengths := fun h => nomatch h
    positions := ⟨rfl, rfl⟩
    outAny := List.Pairwise.nil }

theorem meets_StepKeepsInvariant : started.Inv ∧ step started = .next (after (step started)) := ⟨started_inv, rfl⟩

theorem meets_NoStepFaults : started.Inv ∧ started.hostOnly := ⟨started_inv, fun _ h => nomatch h⟩

theorem meets_EngineTurnNeverStops : started.Inv ∧ started.turns = [] := ⟨started_inv, rfl⟩

theorem meets_CallsTerminate :
    started.Inv ∧ started.turns = [] ∧ busy started.phase = true ∧ 6 < stepsLeft started ∧ started.phase = .init :=
  ⟨started_inv, rfl, rfl, by decide, rfl⟩

/-- Two states that differ in a key byte; a run of one step. -/
theorem meets_ControlIsDataIndependent :
    started.Inv ∧ SameControl started { started with key := [(0, 0x80)] } ∧
      Host.Core.run core 1 started = .next (after (step started)) :=
  ⟨started_inv, ⟨rfl, rfl, rfl, rfl, ⟨rfl, rfl, rfl⟩, ⟨rfl, rfl, rfl⟩, ⟨rfl, rfl, rfl⟩⟩, rfl⟩

/-- At the longest message LENW = 64 admits. -/
theorem meets_EncryptCallComputesEncrypt :
    (commanding 0xa000 (2 ^ 64 - 17)).Inv ∧ busy (commanding 0xa000 (2 ^ 64 - 17)).phase = false ∧
      (commanding 0xa000 (2 ^ 64 - 17)).turns = [.host (.writeReg 0 0xa000)] ∧
      (commanding 0xa000 (2 ^ 64 - 17)).inLen + 17 ≤ 2 ^ (commanding 0xa000 (2 ^ 64 - 17)).params.lenw :=
  ⟨commanding_inv _ _ (by decide), rfl, rfl, by decide⟩

/-- With INLEN = 16 and with INLEN = 15. -/
theorem meets_DecryptCallComputesDecrypt :
    (commanding 0xa100 16).Inv ∧ (commanding 0xa100 15).Inv ∧ busy (commanding 0xa100 16).phase = false ∧
      (commanding 0xa100 16).turns = [.host (.writeReg 0 0xa100)] ∧ (commanding 0xa100 15).inLen < 16 :=
  ⟨commanding_inv _ _ (by decide), commanding_inv _ _ (by decide), rfl, rfl, by decide⟩

theorem meets_DecryptInvertsEncrypt :
    (List.replicate 16 0xff#8).length = 16 ∧ (List.replicate 16 0x00#8).length = 16 := by decide

/-- The bytes 00 01 .. 0f as a sequence. -/
def countingBytes : List Byte :=
  [0x00, 0x01, 0x02, 0x03, 0x04, 0x05, 0x06, 0x07] ++ [0x08, 0x09, 0x0a, 0x0b, 0x0c, 0x0d, 0x0e, 0x0f]

/-- The published output for the empty message (95 section 1.3, count 1). -/
def emptyTag : List Byte :=
  [0xe3, 0x55, 0x15, 0x9f, 0x29, 0x29, 0x11, 0xf7] ++ [0x94, 0xcb, 0x14, 0x32, 0xa0, 0x10, 0x3a, 0x8a]

theorem test_published_empty : encryptFn [] [] countingBytes countingBytes = emptyTag := by decide +kernel

/-- The published tag, its first byte replaced. -/
theorem meets_TamperedTagIsRejected :
    countingBytes.length = 16 ∧ (0xe2#8 :: emptyTag.tail).length = 16 ∧ ([] : List Byte).length = ([] : List Byte).length ∧
      [] ++ (0xe2#8 :: emptyTag.tail) ≠ encryptFn [] [] countingBytes countingBytes ∧
      [] = (encryptFn [] [] countingBytes countingBytes).take ([] : List Byte).length := by
  rw [test_published_empty]
  decide

/-- ENCBLK on 8 bytes, and DECBLK on what it wrote. -/
theorem meets_DecryptStepUndoesEncryptStep_block :
    let s := message .enc 8
    let t := after (exec .encblk s)
    let u := { s with mode := .dec, inp := t.out }
    s.mLen ≤ s.inLen ∧ s.inPos ≤ s.mLen ∧ s.out.wf = true ∧ exec .encblk s = .next t ∧
      u = { s with mode := .dec, inp := u.inp } ∧
      u.inp.bytes s.inPos (writeAddresses .encblk s).2 = t.out.bytes s.outPos (writeAddresses .encblk s).2 :=
  ⟨by decide, by decide, by decide, rfl, rfl, rfl⟩

theorem meets_DecryptStepUndoesEncryptStep_final :
    let s := message .enc 7
    let t := after (exec .encfin s)
    let u := { s with mode := .dec, inp := t.out }
    s.mLen ≤ s.inLen ∧ s.inPos ≤ s.mLen ∧ s.out.wf = true ∧ exec .encfin s = .next t ∧
      u = { s with mode := .dec, inp := u.inp } ∧
      u.inp.bytes s.inPos (writeAddresses .encfin s).2 = t.out.bytes s.outPos (writeAddresses .encfin s).2 :=
  ⟨by decide, by decide, by decide, rfl, rfl, rfl⟩

/-! ### The word placed where the next step runs it -/

theorem test_withFetchWord_tagvfy :
    fetch (State.reset.withFetchWord 16 0x5200) = some (0x5200, readyFor .tagvfy) := by rfl

theorem test_withFetchWord_encrypt :
    answers (step (State.reset.withFetchWord 16 0xa000)) (fun t => decide (t.phase = .init)) = true := by decide

end Sys2Proof.Tests
end

section
/-! Registers that hold no value (R11): what each shared operation answers there, then what the operations built from it do. -/

namespace Sys2Proof.Machine

variable {s : State}

/-! ### The shared operations -/

theorem readSponge_none {k : Sponge → StepOutcome} (hx : s.x = none) : readSponge s k = .fault .noValue := by
  simp [readSponge, hx]

/-- One half of the key latch without a value is enough. -/
theorem readKey_none {k : Word → Word → StepOutcome} (hk : s.k0 = none ∨ s.k1 = none) :
    readKey s k = .fault .noValue := by
  rcases hk with h | h <;> simp [readKey, h]

theorem onSponge_none {f : Sponge → Sponge} (hx : s.x = none) : onSponge f s = .fault .noValue :=
  readSponge_none hx

theorem whenConstant_legal {c : Byte} {k : StepOutcome} (hc : c ∈ roundConstants) : whenConstant c k = k :=
  if_pos (List.contains_iff_mem.2 hc)

theorem whenEnabled_enabled {i : Instr} {k : StepOutcome} (h : nextStep s = some i) : whenEnabled i s k = k := if_pos h

/-! ### The operations -/

/-- An enabled step that begins by reading the words, as every controller step but INIT does. -/
theorem whenEnabled_readSponge_none {i : Instr} {k : Sponge → StepOutcome} (h : nextStep s = some i) (hx : s.x = none) :
    whenEnabled i s (readSponge s k) = .fault .noValue := by
  rw [whenEnabled_enabled h, readSponge_none hx]

theorem exec_nextStep_none {i : Instr} (h : nextStep s = some i) (hi : i ≠ .init) (hx : s.x = none) :
    exec i s = .fault .noValue := by
  have hl := nextStep_layer h
  cases i with
  | init => exact absurd rfl hi
  | adblk | adfin | domsep | final | encblk | encfin | tagout | decblk | decfin | tagvfy =>
    exact whenEnabled_readSponge_none h hx
  | addc | subst | ldiff | round | p6 | p12 | load | store | keep | pad | encrypt | decrypt => cases hl

/-- FINAL reads the words before the key latch; without a value in either half of the latch it faults whatever the words hold. -/
theorem execFinal_key_none (hp : s.phase = .finalize) (hk : s.k0 = none ∨ s.k1 = none) :
    execFinal s = .fault .noValue := by
  rw [execFinal, whenEnabled_enabled (nextStep_eq_final.2 hp)]
  cases hx : s.x with
  | none => exact readSponge_none hx
  | some S => simp only [readSponge, hx, readKey_none hk]

/-- Settles O19: the permutation functions through `onSponge`, the controller steps through the sequencer's choice. -/
theorem readingNoValueFaults : Obligations.ReadingNoValueFaults := by
  unfold Obligations.ReadingNoValueFaults
  refine ⟨fun s hx => ⟨fun c hc => ⟨?addc, ?round⟩, ?subst, ?ldiff, ?p6, ?p12, fun i h hi => ?step⟩,
    fun s hp hk => execFinal_key_none hp hk⟩
  case addc => exact (whenConstant_legal hc).trans (onSponge_none hx)
  case round => exact (whenConstant_legal hc).trans (onSponge_none hx)
  case subst | ldiff | p6 | p12 => exact onSponge_none hx
  case step => exact exec_nextStep_none h hi hx

end Sys2Proof.Machine
end

section
/-! The host port (R40 to R47): STATUS bit by bit, what a refused host action makes of its step, and what a read's answer depends on. -/

namespace Sys2Proof.Machine

variable {s t : State}

/-! ### STATUS (R42) -/

/-- BUSY by the code of PHASE. -/
theorem busy_iff_phaseCode (p : Phase) : busy p = true ↔ 1 ≤ (phaseCode p).toNat ∧ (phaseCode p).toNat ≤ 7 := by
  cases p <;> decide

theorem eq_done_iff_phaseCode (p : Phase) : p = .done ↔ (phaseCode p).toNat = 8 := by
  cases p <;> decide

theorem not_busy_and_done (p : Phase) : ¬ (busy p = true ∧ p = .done) := by
  rintro ⟨hb, rfl⟩
  cases hb

@[simp] theorem status_bit_busy : (status s).getLsbD 0 = busy s.phase := by
  simp [status]

@[simp] theorem status_bit_done : (status s).getLsbD 1 = decide (s.phase = .done) := by
  simp [status]

@[simp] theorem status_bits_result : (status s).extractLsb' 2 2 = resultCode s.result := by
  unfold status
  generalize resultCode s.result = r, decide (s.phase = .done) = d, busy s.phase = b
  revert r d b
  decide

theorem status_bit_high {j : Nat} (hj : 4 ≤ j) : (status s).getLsbD j = false := by
  have h2 : 2 ≤ j - 2 := by omega
  have h1 : j - 1 ≠ 0 := by omega
  have h0 : j ≠ 0 := by omega
  simp [status, BitVec.getLsbD_of_ge _ _ h2, h1, h0]

/-- STATUS is a function of PHASE (by BUSY and DONE) and RESULT alone. -/
theorem status_congr (hr : s.result = t.result) (hb : busy s.phase = busy t.phase)
    (hd : s.phase = .done ↔ t.phase = .done) : status s = status t := by
  simp only [status, hr, hb, hd]

/-! ### Refused host actions (R12, R41, R42) -/

/-- A step refused for `r` when LENW has a meaning is refused in any case. -/
theorem step_refused {r : Refusal} (h : 20 ≤ s.params.lenw → step s = .refused r) :
    ∃ r', step s = .refused r' ∧ (20 ≤ s.params.lenw → r' = r) := by
  by_cases hp : 20 ≤ s.params.lenw
  · exact ⟨r, h hp, fun _ => rfl⟩
  · exact ⟨_, step_illegalParameter (Nat.lt_of_not_le hp), fun hp' => absurd hp' hp⟩

theorem whenFree_busy {k : StepOutcome} (h : busy s.phase = true) : whenFree s k = .refused .callInProgress := if_pos h

theorem step_writeStatus {v : Nat} {rest : List Turn} (hp : 20 ≤ s.params.lenw)
    (h : s.turns = .host (.writeReg 1 v) :: rest) : step s = .refused .readOnlyRegister :=
  step_hostAct hp h nofun nofun

theorem step_readCmd {rest : List Turn} (hp : 20 ≤ s.params.lenw) (h : s.turns = .host (.readReg 0) :: rest) :
    step s = .refused .writeOnlyRegister :=
  step_hostAct hp h nofun nofun

/-- Any other word written to CMD, during a call or not. -/
theorem step_illegalCommand {v : Nat} {rest : List Turn} (hp : 20 ≤ s.params.lenw)
    (h : s.turns = .host (.writeReg 0 v) :: rest) (he : v ≠ 0xa000) (hd : v ≠ 0xa100) :
    step s = .refused .illegalCommand :=
  step_hostAct hp h (by simpa using he) (by simpa using hd)

/-- Any CMD write during a call: the commands are refused by ENCRYPT and DECRYPT themselves. -/
theorem step_writeCmd_busy {v : Nat} {rest : List Turn} (hp : 20 ≤ s.params.lenw)
    (h : s.turns = .host (.writeReg 0 v) :: rest) (hb : busy s.phase = true) : ∃ r, step s = .refused r := by
  by_cases he : v = 0xa000
  · subst he
    exact ⟨_, (step_encrypt hp h).trans (whenFree_busy hb)⟩
  by_cases hd : v = 0xa100
  · subst hd
    exact ⟨_, (step_decrypt hp h).trans (whenFree_busy hb)⟩
  exact ⟨_, step_illegalCommand hp h he hd⟩

/-! ### What a read's answer depends on (R47) -/

/-- What the host sees of an outcome: the value read, or that it was stopped and why. -/
def readAnswer : StepOutcome → Host.Outcome Nat Fault Refusal
  | .next s => .next s.readData
  | .fault r => .fault r
  | .refused r => .refused r

theorem readAnswer_eq_next {o : StepOutcome} {v : Nat} : readAnswer o = .next v ↔ ∃ u, o = .next u ∧ u.readData = v := by
  cases o <;> simp [readAnswer]

theorem readAnswer_eq_refused {o : StepOutcome} {r : Refusal} : readAnswer o = .refused r ↔ o = .refused r := by
  cases o <;> simp [readAnswer]

theorem hostSize_congr (hp : s.params = t.params) (sp : Space) : hostSize s sp = hostSize t sp := by
  cases sp <;> simp only [hostSize, hp]

theorem readAnswer_hostReadReg_congr (n : Nat) (hs : status s = status t) (ho : s.outLen = t.outLen) :
    readAnswer (hostReadReg n s) = readAnswer (hostReadReg n t) := by
  unfold hostReadReg
  split <;> simp only [readAnswer, hs, ho]

theorem readAnswer_whenSpaceFree_congr {sp : Space} {a : Nat} {k l : StepOutcome} (hp : s.params = t.params)
    (hb : busy s.phase = busy t.phase) (hk : readAnswer k = readAnswer l) :
    readAnswer (whenSpaceFree sp a s k) = readAnswer (whenSpaceFree sp a t l) := by
  simp only [whenSpaceFree, hb, hostSize_congr hp]
  split_ifs
  · rfl
  · exact hk
  · rfl

/-- Under a mark both reads draw the same free value; elsewhere both show the byte. -/
theorem readAnswer_hostReadByte_congr (sp : Space) (a : Nat) (hp : s.params = t.params)
    (hb : busy s.phase = busy t.phase) (hm : mem s sp = mem t sp) (ha : s.outAny = t.outAny)
    (hf : s.freeCtr = t.freeCtr) :
    readAnswer (hostReadByte sp a s) = readAnswer (hostReadByte sp a t) := by
  refine readAnswer_whenSpaceFree_congr hp hb ?_
  rw [ha]
  split_ifs
  · simp only [readAnswer, hf]
  · simp only [readAnswer, hm]

/-! ### The obligations -/

/-- Settles O38, STATUS bit by bit, then its values by evaluation. -/
theorem statusFields : Obligations.StatusFields := by
  intro s
  refine ⟨?busy, ?done, status_bits_result, fun _ => status_bit_high, ?apart, ?idle, ?ended, rfl, ?write⟩
  case busy => rw [status_bit_busy, busy_iff_phaseCode]
  case done => rw [status_bit_done, decide_eq_true_iff, eq_done_iff_phaseCode]
  case apart => rw [status_bit_busy, status_bit_done, decide_eq_true_iff]; exact not_busy_and_done s.phase
  case idle => intro hp hr; rw [status, hp, hr]; rfl
  case ended => intro hp; refine ⟨?_, ?_, ?_⟩ <;> (intro hr; rw [status, hp, hr]; rfl)
  case write => exact fun v rest h => step_refused fun hp => step_writeStatus hp h

/-- Settles O43: the answer to a register read depends on STATUS and OUTLEN, to a byte read on the spaces, the marks and BUSY. -/
theorem hostReadsShowNoSecret : Obligations.HostReadsShowNoSecret := by
  intro s t act hact hp hr ho hb hd hm ha hf
  have key : readAnswer (hostAct act s) = readAnswer (hostAct act t) := by
    rcases hact with ⟨n, rfl⟩ | ⟨sp, a, rfl⟩
    · exact readAnswer_hostReadReg_congr n (status_congr hr hb hd) ho
    · exact readAnswer_hostReadByte_congr sp a hp hb (hm sp) ha hf
  refine ⟨fun s' h => ?next, fun r h => ?refused⟩
  case next => exact readAnswer_eq_next.1 (key ▸ readAnswer_eq_next.2 ⟨s', h, rfl⟩)
  case refused => exact readAnswer_eq_refused.1 (key ▸ readAnswer_eq_refused.2 h)

/-- Settles O40: the two commands, any other word, any word during a call, and a read. -/
theorem commandsThroughCmd : Obligations.CommandsThroughCmd := by
  refine fun s rest => ⟨fun v h => ⟨?enc, ?dec, ?other, ?during⟩, fun h => step_refused fun hp => step_readCmd hp h⟩
  case enc => rintro hp - rfl; exact step_encrypt hp h
  case dec => rintro hp - rfl; exact step_decrypt hp h
  case other =>
    intro he hd
    obtain ⟨r, hr, -⟩ := step_refused fun hp => step_illegalCommand hp h he hd
    exact ⟨r, hr⟩
  case during =>
    intro hb
    by_cases hp : 20 ≤ s.params.lenw
    · exact step_writeCmd_busy hp h hb
    · exact ⟨_, step_illegalParameter (Nat.lt_of_not_le hp)⟩

end Sys2Proof.Machine
end

section
/-! Legal words (R92 to R94): a word that decodes is the word of a well-formed instruction, and the words of the well-formed
instructions are the 76 legal ones. -/

namespace Sys2Proof.Machine

variable {i j : Instr} {cw : BitVec 16} {u fn : BitVec 4} {arg : BitVec 8} {k : Nat}

/-- The fields of a control word are all of it (R91). -/
theorem fields_append (cw : BitVec 16) : unitOf cw ++ fnOf cw ++ argOf cw = cw := by
  simp only [unitOf, fnOf, argOf, BitVec.extractLsb'_append_extractLsb'_eq_extractLsb']
  exact BitVec.extractLsb'_eq_self

/-- `cw` is the control word of `i`, with an operand that `i` admits. -/
abbrev EncodesAs (i : Instr) (cw : BitVec 16) : Prop := i.wellFormed = true ∧ encode i = cw

/-! ### What the operand decoders accept (R93) -/

theorem encodesAs_of_decodeNoArg (hfn : fn.toNat = k) (hi : EncodesAs i (u ++ BitVec.ofNat 4 k ++ 0#8))
    (h : decodeNoArg i arg = .ok j) : EncodesAs j (u ++ fn ++ arg) := by
  rw [(BitVec.toNat_eq_nat.1 hfn).2]
  unfold decodeNoArg at h
  split at h
  · next harg => cases h; rwa [harg]
  · cases h

theorem encodesAs_of_decodeConstant {mk : BitVec 8 → Instr} (hfn : fn.toNat = k)
    (hmk : ∀ c ∈ roundConstants, EncodesAs (mk c) (u ++ BitVec.ofNat 4 k ++ c))
    (h : decodeConstant mk arg = .ok j) : EncodesAs j (u ++ fn ++ arg) := by
  rw [(BitVec.toNat_eq_nat.1 hfn).2]
  unfold decodeConstant at h
  split at h
  · next hc => cases h; exact hmk arg (List.contains_iff_mem.1 hc)
  · cases h

theorem encodesAs_of_decodeCount {mk : BitVec 4 → Instr} {max : Nat} (hfn : fn.toNat = k)
    (hmk : ∀ n ≤ max, EncodesAs (mk ((BitVec.ofNat 8 n).extractLsb' 0 4)) (u ++ BitVec.ofNat 4 k ++ BitVec.ofNat 8 n))
    (h : decodeCount max mk arg = .ok j) : EncodesAs j (u ++ fn ++ arg) := by
  rw [(BitVec.toNat_eq_nat.1 hfn).2]
  unfold decodeCount at h
  split at h
  · next hn => cases h; simpa only [BitVec.ofNat_toNat, BitVec.setWidth_eq] using hmk arg.toNat hn
  · cases h

theorem encodesAs_of_decodeRounds (hfn : fn.toNat = 4) (h : decodeRounds arg = .ok j) :
    EncodesAs j (1#4 ++ fn ++ arg) := by
  rw [(BitVec.toNat_eq_nat.1 hfn).2]
  unfold decodeRounds at h
  split at h
  · next harg => cases h; subst harg; decide
  · split at h
    · next harg => cases h; subst harg; decide
    · cases h

/-! ### What the units accept (R92) -/

theorem encodesAs_of_decodePerm (h : decodePerm fn arg = .ok i) : EncodesAs i (1#4 ++ fn ++ arg) := by
  unfold decodePerm at h
  split at h
  · next hfn => exact encodesAs_of_decodeConstant hfn (by decide) h
  · next hfn => exact encodesAs_of_decodeNoArg hfn (by decide) h
  · next hfn => exact encodesAs_of_decodeNoArg hfn (by decide) h
  · next hfn => exact encodesAs_of_decodeConstant hfn (by decide) h
  · next hfn => exact encodesAs_of_decodeRounds hfn h
  · cases h

theorem encodesAs_of_decodeCodec (h : decodeCodec fn arg = .ok i) : EncodesAs i (2#4 ++ fn ++ arg) := by
  unfold decodeCodec at h
  split at h
  case h_5 => cases h
  all_goals next hfn => exact encodesAs_of_decodeCount hfn (by decide) h

theorem encodesAs_of_decodeSponge (h : decodeSponge fn arg = .ok i) : EncodesAs i (3#4 ++ fn ++ arg) := by
  unfold decodeSponge at h
  split at h
  case h_6 => cases h
  all_goals next hfn => exact encodesAs_of_decodeNoArg hfn (by decide) h

theorem encodesAs_of_decodeEnc (h : decodeEnc fn arg = .ok i) : EncodesAs i (4#4 ++ fn ++ arg) := by
  unfold decodeEnc at h
  split at h
  case h_4 => cases h
  all_goals next hfn => exact encodesAs_of_decodeNoArg hfn (by decide) h

theorem encodesAs_of_decodeDec (h : decodeDec fn arg = .ok i) : EncodesAs i (5#4 ++ fn ++ arg) := by
  unfold decodeDec at h
  split at h
  case h_4 => cases h
  all_goals next hfn => exact encodesAs_of_decodeNoArg hfn (by decide) h

theorem encodesAs_of_decodeHost (h : decodeHost fn arg = .ok i) : EncodesAs i (10#4 ++ fn ++ arg) := by
  unfold decodeHost at h
  split at h
  case h_3 => cases h
  all_goals next hfn => exact encodesAs_of_decodeNoArg hfn (by decide) h

/-- A word that decodes is the word of the instruction it decodes to, unit by unit. -/
theorem encodesAs_of_decode (h : decode cw = .ok i) : EncodesAs i cw := by
  rw [← fields_append cw]
  unfold decode at h
  split at h
  · next hu => rw [(BitVec.toNat_eq_nat.1 hu).2]; exact encodesAs_of_decodePerm h
  · next hu => rw [(BitVec.toNat_eq_nat.1 hu).2]; exact encodesAs_of_decodeCodec h
  · next hu => rw [(BitVec.toNat_eq_nat.1 hu).2]; exact encodesAs_of_decodeSponge h
  · next hu => rw [(BitVec.toNat_eq_nat.1 hu).2]; exact encodesAs_of_decodeEnc h
  · next hu => rw [(BitVec.toNat_eq_nat.1 hu).2]; exact encodesAs_of_decodeDec h
  · next hu => rw [(BitVec.toNat_eq_nat.1 hu).2]; exact encodesAs_of_decodeHost h
  · cases h

/-! ### The legal words (R92, R94) -/

theorem legalWords_length : legalWords.length = 76 := by decide

theorem legalWords_nodup : legalWords.Nodup := by decide

/-- The well-formed instructions, in the order of R92. -/
def legalInstrs : List Instr :=
  roundConstants.map Instr.addc ++ [Instr.subst, .ldiff] ++ roundConstants.map Instr.round ++ [Instr.p6, .p12]
    ++ (List.range 9).map (Instr.load <| BitVec.ofNat 4 ·) ++ (List.range 9).map (Instr.store <| BitVec.ofNat 4 ·)
    ++ (List.range 9).map (Instr.keep <| BitVec.ofNat 4 ·) ++ (List.range 8).map (Instr.pad <| BitVec.ofNat 4 ·)
    ++ [Instr.init, .adblk, .adfin, .domsep, .final] ++ [Instr.encblk, .encfin, .tagout]
    ++ [Instr.decblk, .decfin, .tagvfy] ++ [Instr.encrypt, .decrypt]

theorem legalWords_eq_map_encode : legalWords = legalInstrs.map encode := by decide

theorem decode_encode_of_mem : ∀ i ∈ legalInstrs, decode (encode i) = .ok i := by decide

theorem mem_legalInstrs_of_wellFormed (h : i.wellFormed = true) : i ∈ legalInstrs := by
  have constants : ∀ c ∈ roundConstants, .addc c ∈ legalInstrs ∧ .round c ∈ legalInstrs := by decide
  have counts : ∀ n : BitVec 4, n.toNat ≤ 8 →
      .load n ∈ legalInstrs ∧ .store n ∈ legalInstrs ∧ .keep n ∈ legalInstrs := by decide
  have pads : ∀ n : BitVec 4, n.toNat ≤ 7 → .pad n ∈ legalInstrs := by decide
  cases i with
  | addc c => exact (constants c (List.contains_iff_mem.1 h)).1
  | round c => exact (constants c (List.contains_iff_mem.1 h)).2
  | load n => exact (counts n (of_decide_eq_true h)).1
  | store n => exact (counts n (of_decide_eq_true h)).2.1
  | keep n => exact (counts n (of_decide_eq_true h)).2.2
  | pad n => exact pads n (of_decide_eq_true h)
  | _ => decide

/-- Exactly the legal words decode. -/
theorem mem_legalWords_iff : cw ∈ legalWords ↔ ∃ i, decode cw = .ok i := by
  rw [legalWords_eq_map_encode]
  constructor
  · intro h
    obtain ⟨i, hi, rfl⟩ := List.mem_map.1 h
    exact ⟨i, decode_encode_of_mem i hi⟩
  · rintro ⟨i, h⟩
    obtain ⟨hwf, rfl⟩ := encodesAs_of_decode h
    exact List.mem_map_of_mem (mem_legalInstrs_of_wellFormed hwf)

theorem decode_error_of_not_legal (h : cw ∉ legalWords) : ∃ why, decode cw = .error why := by
  cases hd : decode cw with
  | ok i => exact absurd (mem_legalWords_iff.2 ⟨i, hd⟩) h
  | error why => exact ⟨why, rfl⟩

theorem step_illegalWord {s s' : State} {why : DecodeError} (hp : 20 ≤ s.params.lenw) (hf : fetch s = some (cw, s'))
    (hd : decode cw = .error why) : step s = .refused (.illegalWord why) := by
  simp only [step_legal hp, hf, hd]

/-- Settles O4: the decoder accepts exactly the legal words, and the sequencer's words decode. -/
theorem illegalWordsAreRefused : Obligations.IllegalWordsAreRefused := by
  refine ⟨legalWords_length, legalWords_nodup, fun _ => mem_legalWords_iff, ?step, ?cmd, ?sequencer⟩
  case step =>
    intro s s' cw hf hcw
    obtain ⟨why, hd⟩ := decode_error_of_not_legal hcw
    obtain ⟨r, hr, hwhy⟩ := step_refused fun hp => step_illegalWord hp hf hd
    exact ⟨r, hr, fun hp => ⟨why, hwhy hp⟩⟩
  case cmd => exact fun s value rest h he hd => step_refused fun hp => step_illegalCommand hp h he hd
  case sequencer => exact fun s i h => mem_legalWords_iff.2 ⟨i, decode_encode_controllerStep (nextStep_layer h)⟩

end Sys2Proof.Machine
end

section
/-! The Permutation Engine (R120 to R123, R127): each layer bit by bit, what the operations answer where the words hold a value, and
what they refuse. -/

namespace Sys2Proof.Machine

variable {s t : State} {S T : Sponge} {c : Byte} {j : Nat}

/-! ### The layers on the five words -/

/-- ADDC c undoes itself (R120). -/
theorem addConstant_addConstant (c : Byte) (S : Sponge) : addConstant c (addConstant c S) = S := by
  simp only [addConstant, BitVec.xor_assoc, BitVec.xor_self, BitVec.xor_zero]

/-- A constant reaches bits 7 to 0 only (R120). -/
theorem getLsbD_xor_constant (w : Word) (c : Byte) (hj : 8 ≤ j) :
    (w ^^^ c.setWidth 64).getLsbD j = w.getLsbD j := by
  rw [BitVec.getLsbD_xor, BitVec.getLsbD_setWidth, BitVec.getLsbD_of_ge c j hj, Bool.and_false, Bool.xor_false]

/-- The five equations of R127, from bit j of the words of `S` to bit j of the words of `T`. -/
def SboxEquations (S T : Sponge) (j : Nat) : Prop :=
  let x0 := S.x0.getLsbD j
  let x1 := S.x1.getLsbD j
  let x2 := S.x2.getLsbD j
  let x3 := S.x3.getLsbD j
  let x4 := S.x4.getLsbD j
  T.x0.getLsbD j = ((x4 && x1) ^^ x3 ^^ (x2 && x1) ^^ x2 ^^ (x1 && x0) ^^ x1 ^^ x0) ∧
  T.x1.getLsbD j = (x4 ^^ (x3 && x2) ^^ (x3 && x1) ^^ x3 ^^ (x2 && x1) ^^ x2 ^^ x1 ^^ x0) ∧
  T.x2.getLsbD j = ((x4 && x3) ^^ x4 ^^ x2 ^^ x1 ^^ true) ∧
  T.x3.getLsbD j = ((x4 && x0) ^^ x4 ^^ (x3 && x0) ^^ x3 ^^ x2 ^^ x1 ^^ x0) ∧
  T.x4.getLsbD j = ((x4 && x1) ^^ x4 ^^ x3 ^^ (x1 && x0) ^^ x1)

/-- The word form of SUBST (R121) meets the equations: its operations act on each column alone, and there are 32 columns. -/
theorem sboxEquations_substitute (S : Sponge) (hj : j < 64) : SboxEquations S (substitute S) j := by
  simp only [SboxEquations, substitute, BitVec.getLsbD_xor, BitVec.getLsbD_and, BitVec.getLsbD_not, hj, decide_true,
    Bool.true_and]
  generalize S.x0.getLsbD j = x0, S.x1.getLsbD j = x1, S.x2.getLsbD j = x2, S.x3.getLsbD j = x3, S.x4.getLsbD j = x4
  revert x0 x1 x2 x3 x4
  decide

/-- The equations and the table of R127 say the same of a column. -/
theorem sboxTable_column (h : SboxEquations S T j) : sboxTable[column S j]? = some (column T j) := by
  obtain ⟨h0, h1, h2, h3, h4⟩ := h
  rw [column, column, h0, h1, h2, h3, h4]
  generalize S.x0.getLsbD j = x0, S.x1.getLsbD j = x1, S.x2.getLsbD j = x2, S.x3.getLsbD j = x3, S.x4.getLsbD j = x4
  revert x0 x1 x2 x3 x4
  decide

/-- The rotation of R9 is the library's. -/
theorem ror_eq_rotateRight (w : Word) {k : Nat} (hk : k < 64) : ror w k = w.rotateRight k := by
  rw [BitVec.rotateRight, Nat.mod_eq_of_lt hk]
  rfl

/-- Rotation right, bit by bit (R9). -/
theorem getLsbD_ror (w : Word) {k : Nat} (hk : k < 64) (hj : j < 64) :
    (ror w k).getLsbD j = w.getLsbD ((j + k) % 64) := by
  rw [ror_eq_rotateRight w hk, BitVec.getLsbD_rotateRight, Nat.mod_eq_of_lt hk]
  by_cases h : j < 64 - k
  · rw [show (j + k) % 64 = k + j by omega]
    simp only [h, decide_true, cond_true]
  · rw [show (j + k) % 64 = j - (64 - k) by omega]
    simp only [h, hj, decide_true, decide_false, cond_false, Bool.true_and]

/-- A word XORed with two copies of itself rotated right, bit by bit: what LDIFF does to each word (R122). -/
theorem getLsbD_xor_ror_ror (w : Word) {a b : Nat} (ha : a < 64) (hb : b < 64) (hj : j < 64) :
    (w ^^^ ror w a ^^^ ror w b).getLsbD j =
      (w.getLsbD j ^^ w.getLsbD ((j + a) % 64) ^^ w.getLsbD ((j + b) % 64)) := by
  rw [BitVec.getLsbD_xor, BitVec.getLsbD_xor, getLsbD_ror w ha hj, getLsbD_ror w hb hj]

/-! ### The operations -/

theorem onSponge_some (f : Sponge → Sponge) (hx : s.x = some S) : onSponge f s = .next { s with x := some (f S) } :=
  onSponge_eq_next.2 ⟨S, hx, rfl⟩

theorem whenConstant_illegal {k : StepOutcome} (hc : c ∉ roundConstants) :
    whenConstant c k = .refused .illegalConstant :=
  if_neg (mt List.contains_iff_mem.1 hc)

theorem exec_addc_some (hc : c ∈ roundConstants) (hx : s.x = some S) :
    exec (.addc c) s = .next { s with x := some (addConstant c S) } :=
  (whenConstant_legal hc).trans (onSponge_some (addConstant c) hx)

theorem exec_subst_some (hx : s.x = some S) : exec .subst s = .next { s with x := some (substitute S) } :=
  onSponge_some substitute hx

theorem exec_ldiff_some (hx : s.x = some S) : exec .ldiff s = .next { s with x := some (diffuse S) } :=
  onSponge_some diffuse hx

theorem exec_round_some (hc : c ∈ roundConstants) (hx : s.x = some S) :
    exec (.round c) s = .next { s with x := some (roundFn c S) } :=
  (whenConstant_legal hc).trans (onSponge_some (roundFn c) hx)

/-- One operation of a sequence that answers a next state (R98). -/
theorem execAll_cons_next {i : Instr} {is : List Instr} (h : exec i s = .next t) : execAll (i :: is) s = execAll is t := by
  rw [execAll, h]

/-- The three layers one after the other are the round function (R123). -/
theorem execAll_layers (hc : c ∈ roundConstants) (hx : s.x = some S) :
    execAll [.addc c, .subst, .ldiff] s = .next { s with x := some (roundFn c S) } := by
  rw [execAll_cons_next (exec_addc_some hc hx), execAll_cons_next (exec_subst_some rfl),
    execAll_cons_next (exec_ldiff_some rfl)]
  rfl

/-! ### The obligations -/

/-- Settles O8: the word form gives the five equations, and these give the table. -/
theorem substReplacesColumns : Obligations.SubstReplacesColumns := by
  refine ⟨by decide, rfl, fun s S hx => ⟨substitute S, exec_subst_some hx, fun j hj => ?_⟩⟩
  have heq := sboxEquations_substitute S hj
  exact ⟨sboxTable_column heq, heq⟩

/-- Settles O9, word by word, each with its own two amounts. -/
theorem ldiffRotates : Obligations.LdiffRotates := by
  refine fun s S hx => ⟨diffuse S, exec_ldiff_some hx, fun j hj => ⟨?_, ?_, ?_, ?_, ?_⟩⟩ <;>
    exact getLsbD_xor_ror_ror _ (by decide) (by decide) hj

/-- Settles O7: an exclusive or with a byte, done again on the state it answered. -/
theorem addcResult : Obligations.AddcResult := by
  refine fun s c => ⟨fun S hc hx => ⟨exec_addc_some hc hx, fun j hj => getLsbD_xor_constant S.x2 c hj, ?twice⟩,
    whenConstant_illegal⟩
  case twice =>
    calc exec (.addc c) { s with x := some (addConstant c S) }
        = .next { s with x := some (addConstant c (addConstant c S)) } := exec_addc_some hc rfl
      _ = .next s := by rw [addConstant_addConstant, ← hx]

/-- Settles O10: ROUND and the three layers both answer the round function of the words. -/
theorem roundIsThreeLayers : Obligations.RoundIsThreeLayers :=
  fun _ c => ⟨fun S hc hx => ⟨roundFn c S, exec_round_some hc hx, execAll_layers hc hx⟩, whenConstant_illegal⟩

end Sys2Proof.Machine
end

section
/-! The Byte/Word Codec (R144, R145): the counts it refuses and the counts the controller steps pass, then its laws, each by byte
positions. -/

namespace Sys2Proof.Machine

variable {s : State}

/-! ### Counts and enabling -/

theorem whenCount_above {n max : Nat} {k : StepOutcome} (h : max < n) : whenCount n max k = .refused .illegalCount :=
  if_neg (Nat.not_le.2 h)

/-- Only the enabled controller step escapes the refusal of R96. -/
theorem nextStep_of_whenEnabled {i : Instr} {k : StepOutcome} (h : whenEnabled i s k ≠ .refused .notEnabled) :
    nextStep s = some i :=
  Decidable.byContradiction fun hn => h (if_neg hn)

/-- Settles O17: the count check refuses, and each FIN step is enabled only where fewer than 8 bytes remain. -/
theorem countsAreInRange : Obligations.CountsAreInRange := by
  unfold Obligations.CountsAreInRange
  refine ⟨fun s n hn => ⟨whenCount_above hn, whenCount_above hn, whenCount_above hn⟩,
    fun s n hn => whenCount_above hn, fun s h => ?adfin, fun s h => ?fin⟩
  case adfin =>
    obtain ⟨-, hleft⟩ := nextStep_eq_adfin.1 (nextStep_of_whenEnabled h)
    exact Nat.le_of_lt_succ hleft
  case fin =>
    rcases h with henc | hdec
    · obtain ⟨-, -, hleft⟩ := nextStep_eq_encfin.1 (nextStep_of_whenEnabled henc)
      exact Nat.le_of_lt_succ hleft
    · obtain ⟨-, -, hleft⟩ := nextStep_eq_decfin.1 (nextStep_of_whenEnabled hdec)
      exact Nat.le_of_lt_succ hleft

/-! ### The laws -/

variable {w : Word} {bs : List Byte} {n m : Nat}

/-- STORE gives the sequence whose bytes are the word's first byte positions (R141). -/
theorem store_eq_of_byteAt (hlen : bs.length = n) (h : ∀ (j : Nat) (hj : j < bs.length), byteAt w j = bs[j]) :
    store w n = bs :=
  List.ext_getElem (by rw [length_store, hlen]) fun j h₁ h₂ => (getElem_store w n j h₁).trans (h j h₂)

/-- LOAD at a byte position inside the sequence. -/
theorem byteAt_load_getElem (hn : n ≤ 8) (hlen : bs.length = n) {j : Nat} (hj : j < bs.length) :
    byteAt (load bs n) j = bs[j] := by
  rw [byteAt_load bs hn (by omega), if_pos (by omega), List.getD_eq_getElem _ _ hj]

theorem store_load (hn : n ≤ 8) (hlen : bs.length = n) : store (load bs n) n = bs :=
  store_eq_of_byteAt hlen fun _ hj => byteAt_load_getElem hn hlen hj

theorem load_store (w : Word) (hn : n ≤ 8) : load (store w n) n = maskKeep w n := by
  refine word_ext_bytes fun j hj => ?_
  rw [byteAt_load _ hn hj, byteAt_maskKeep w hn hj]
  by_cases hjn : j < n
  · rw [if_pos hjn, if_pos hjn, getD_store w hjn]
  · rw [if_neg hjn, if_neg hjn]

theorem maskKeep_load (bs : List Byte) (hn : n ≤ 8) : maskKeep (load bs n) n = load bs n := by
  refine word_ext_bytes fun j hj => ?_
  rw [byteAt_maskKeep _ hn hj, byteAt_load bs hn hj]
  split <;> rfl

theorem maskKeep_maskKeep (w : Word) (hn : n ≤ 8) (hm : m ≤ 8) : maskKeep (maskKeep w n) m = maskKeep w (min n m) := by
  refine word_ext_bytes fun j hj => ?_
  rw [byteAt_maskKeep _ hm hj, byteAt_maskKeep w hn hj, byteAt_maskKeep w (by omega) hj, ← ite_and]
  exact if_congr (by omega) rfl rfl

/-- The pad stands in the first byte position LOAD leaves zero. -/
theorem load_and_padWord (bs : List Byte) (hn : n ≤ 7) : load bs n &&& padWord n = 0#64 := by
  refine word_ext_bytes fun j hj => ?_
  rw [byteAt_and, byteAt_load bs (by omega) hj, byteAt_padWord (by omega) hj, byteAt_zero]
  by_cases hjn : j < n
  · rw [if_neg (Nat.ne_of_lt hjn)]; exact BitVec.and_zero
  · rw [if_neg hjn]; exact BitVec.zero_and

theorem store_xor_load (w : Word) (hn : n ≤ 8) (hlen : bs.length = n) :
    store (w ^^^ load bs n) n = List.zipWith (· ^^^ ·) (store w n) bs := by
  refine store_eq_of_byteAt (by simp [hlen]) fun j hj => ?_
  have hj' : j < bs.length := by simpa [hlen] using hj
  rw [List.getElem_zipWith, getElem_store, byteAt_xor, byteAt_load_getElem hn hlen hj']

/-- The decrypting update of R212: the first n byte positions become the sequence, the rest of the word stays. -/
theorem byteAt_xor_maskKeep_xor_load (w : Word) (bs : List Byte) (hn : n ≤ 8) {j : Nat} (hj : j < 8) :
    byteAt (w ^^^ maskKeep (w ^^^ load bs n) n) j = if j < n then bs.getD j 0 else byteAt w j := by
  rw [byteAt_xor, byteAt_maskKeep _ hn hj, byteAt_xor, byteAt_load bs hn hj]
  by_cases hjn : j < n
  · rw [if_pos hjn, if_pos hjn, if_pos hjn, ← BitVec.xor_assoc, BitVec.xor_self, BitVec.zero_xor]
  · rw [if_neg hjn, if_neg hjn]; exact BitVec.xor_zero

/-- Settles O18, law by law. -/
theorem codecLaws : Obligations.CodecLaws := fun w bs _ _ hn hm hlen =>
  ⟨store_load hn hlen, load_store w hn, maskKeep_load bs hn, maskKeep_maskKeep w hn hm, load_and_padWord bs,
    store_xor_load w hn hlen, fun _ hj => byteAt_xor_maskKeep_xor_load w bs hn hj⟩

end Sys2Proof.Machine
end

section
/-! The controller steps both directions share (R162 to R168): from the state each is enabled in, what it answers. -/

namespace Sys2Proof.Machine

variable {s u : State} {S : Sponge} {i : Instr} {n : Nat}

/-! ### The pieces of the results -/

/-- What a step answers, up to the trace, when all it does after its update is to emit its record (R51). -/
theorem exists_next_of_eq_emitTrace {o : StepOutcome} (h : o = .next (emitTrace i S u)) :
    ∃ t, o = .next t ∧ t = { u with trace := t.trace } :=
  ⟨emitTrace i S u, h, emitTrace_eq u i S⟩

theorem adLeft_eq_of_add_eq (h : s.adPos + n = s.adLen) : adLeft s = n := Nat.sub_eq_of_eq_add' h.symm

theorem afterFinal_eq_ite (md : Mode) : afterFinal md = if md = .enc then .emitTag else .verifyTag := by
  cases md <;> rfl

/-- DOMSEP's constant 1 is bit 0 alone (R167). -/
theorem getLsbD_xor_one (w : Word) {j : Nat} (hj : j < 64) :
    (w ^^^ 1).getLsbD j = if j = 0 then !w.getLsbD 0 else w.getLsbD j := by
  rw [BitVec.getLsbD_xor, BitVec.ofNat_eq_ofNat, BitVec.getLsbD_one]
  by_cases h : j = 0
  · subst h; exact Bool.xor_true _
  · simp only [h, decide_false, Bool.and_false, Bool.xor_false, if_false]

/-! ### The obligations -/

/-- Settles O23: PHASE alone enables INIT, and its key and nonce addresses always exist. -/
theorem initResult : Obligations.InitResult := fun _ hp =>
  exists_next_of_eq_emitTrace (execInit_eq_next.2 ⟨hp, rfl⟩)

/-- Settles O24: the block is inside AD, as 8 bytes are left. -/
theorem adblkResult : Obligations.AdblkResult := by
  intro s S hp hlen hx
  have hleft : 8 ≤ adLeft s := Nat.le_sub_of_add_le' hlen
  exact exists_next_of_eq_emitTrace (execAdblk_eq_next.2 ⟨⟨hp, hleft⟩, S, hx, hlen, rfl⟩)

/-- Settles O25: the step takes exactly the n bytes left, so ad_pos ends at ADLEN. -/
theorem adfinResult : Obligations.AdfinResult := by
  intro s S n hp hlen hn hx
  have hleft : adLeft s = n := adLeft_eq_of_add_eq hlen
  have h := execAdfin_eq_next.2 ⟨⟨hp, hleft.trans_lt hn⟩, S, hx, .inr (by rw [hleft, hlen]), rfl⟩
  rw [hleft, hlen] at h
  exact exists_next_of_eq_emitTrace h

/-- Settles O26: word 4 is XORed with 1. -/
theorem domsepFlipsOneBit : Obligations.DomsepFlipsOneBit := by
  intro s S hp hx
  obtain ⟨t, ht, hframe⟩ := exists_next_of_eq_emitTrace (execDomsep_eq_next.2 ⟨hp, S, hx, rfl⟩)
  exact ⟨t, S.x4 ^^^ 1, ht, hframe, fun _ hj => getLsbD_xor_one S.x4 hj⟩

/-- Settles O27: the tag is read from the words the frame gives. -/
theorem finalResult : Obligations.FinalResult := by
  intro s S K0 K1 hp hx h0 h1 P
  have h := execFinal_eq_next.2 ⟨hp, S, hx, K0, K1, h0, h1, rfl⟩
  rw [afterFinal_eq_ite] at h
  obtain ⟨t, ht, hframe⟩ := exists_next_of_eq_emitTrace h
  have hwords : t.x = some (finalSponge K0 K1 S) := congrArg State.x hframe
  refine ⟨t, ht, hframe, fun T hT => ?_⟩
  obtain rfl : finalSponge K0 K1 S = T := Option.some.inj (hwords.symm.trans hT)
  rfl

end Sys2Proof.Machine
end

section
/-! Runs the engine makes by itself (R160, R194): controller steps one after the other, whatever they record in the trace; then what
the steps both directions share, INIT to DOMSEP and FINAL, leave (R162 to R168). -/

namespace Sys2Proof.Machine

variable {s t u : State} {S : Sponge} {i : Instr} {j k n q r : Nat}

/-! ### Runs up to the trace -/

/-- The engine moves, in an instance that makes steps (R6). -/
def State.enginesTurn (s : State) : Prop := 20 ≤ s.params.lenw ∧ s.turns = []

/-- `k` steps lead from `s` to `t`, whatever they record in the trace (R51). -/
def RunsTo (k : Nat) (s t : State) : Prop := ∃ tr, Host.Core.run core k s = .next { t with trace := tr }

theorem RunsTo.refl (s : State) : RunsTo 0 s s := ⟨s.trace, rfl⟩

theorem RunsTo.trans (h : RunsTo j s t) (h' : ∀ tr, RunsTo k { t with trace := tr } u) : RunsTo (j + k) s u := by
  obtain ⟨tr, h⟩ := h
  obtain ⟨tr', h'⟩ := h' tr
  exact ⟨tr', (run_add j k h).trans h'⟩

/-- A controller step answers a next state only where it is the enabled one (R96). -/
theorem nextStep_of_exec_next (hl : i.layer = .controllerStep) (h : exec i s = .next t) : nextStep s = some i := by
  cases i with
  | init | adblk | adfin | domsep | final | encblk | encfin | tagout | decblk | decfin | tagvfy =>
    exact (whenEnabled_eq_next.1 h).1
  | addc | subst | ldiff | round | p6 | p12 | load | store | keep | pad | encrypt | decrypt => cases hl

/-- On the engine's turn a controller step that answers a next state is the step made. -/
theorem step_eq_exec (he : s.enginesTurn) (hl : i.layer = .controllerStep) (h : exec i s = .next t) :
    step s = exec i s := by
  obtain ⟨hp, hturns⟩ := he
  rw [step_engine hp (.inl ⟨hturns, rfl⟩), nextStep_of_exec_next hl h, ← hturns]

/-- One controller step, from what it answers up to the trace. -/
theorem runsTo_one (he : s.enginesTurn) (hl : i.layer = .controllerStep)
    (h : ∃ t', exec i s = .next t' ∧ t' = { t with trace := t'.trace }) : RunsTo 1 s t := by
  obtain ⟨t', hexec, hframe⟩ := h
  refine ⟨t'.trace, ?_⟩
  rw [run_succ 0 ((step_eq_exec he hl hexec).trans hexec), run_zero, ← hframe]

/-- One controller step, from what it answers with its trace record. -/
theorem runsTo_of_emitTrace (he : s.enginesTurn) (hl : i.layer = .controllerStep)
    (h : exec i s = .next (emitTrace i S t)) : RunsTo 1 s t :=
  runsTo_one he hl (exists_next_of_eq_emitTrace h)

/-! ### Blocks of bytes -/

/-- Bytes written after those just written. -/
theorem Memory.write_append (m : Memory) (a : Nat) (bs cs : List Byte) :
    m.write a (bs ++ cs) = (m.write a bs).write (a + bs.length) cs := by
  induction bs generalizing m a with
  | nil => rfl
  | cons b bs ih =>
    rw [List.cons_append, Memory.write, Memory.write, ih, List.length_cons, Nat.add_right_comm, Nat.add_assoc a]

/-- LOAD of a space's bytes looks at the first n only (R140). -/
theorem load_bytes_add (m : Memory) (a n k : Nat) : load (m.bytes a (n + k)) n = load (m.bytes a n) n := by
  rw [Memory.bytes_add, load_append (Memory.length_bytes m a n)]

theorem absorbBlocks_succ_bytes (m : Memory) (a : Nat) :
    absorbBlocks (q + 1) S (m.bytes a (8 + n)) =
      absorbBlocks q (permute (S.absorb (load (m.bytes a 8) 8)) 6) (m.bytes (a + 8) n) := by
  rw [absorbBlocks, load_bytes_add, Memory.bytes_drop]

theorem absorbData_zero_bytes (m : Memory) (a : Nat) : absorbData S (m.bytes a 0) = S := rfl

/-- The associated data of q blocks and r more bytes, not all of it empty. -/
theorem absorbData_bytes (m : Memory) (a : Nat) (hr : r < 8) (hpos : 0 < 8 * q + r) :
    absorbData S (m.bytes a (8 * q + r)) =
      permute ((absorbBlocks q S (m.bytes a (8 * q + r))).absorb (load (m.bytes (a + 8 * q) r) r ^^^ padWord r)) 6 := by
  have hq : (8 * q + r) / 8 = q := by omega
  rw [absorbData, Memory.length_bytes, if_neg (Nat.ne_of_gt hpos)]
  simp only [hq, Memory.bytes_drop, Memory.length_bytes]

/-! ### From INIT to DOMSEP -/

theorem runsTo_init (he : s.enginesTurn) (hp : s.phase = .init) :
    RunsTo 1 s { s with
      k0 := some (load (s.key.bytes 0 16) 8), k1 := some (load ((s.key.bytes 0 16).drop 8) 8)
      x := some (initSponge (load (s.key.bytes 0 16) 8) (load ((s.key.bytes 0 16).drop 8) 8)
        (load (s.nonce.bytes 0 16) 8) (load ((s.nonce.bytes 0 16).drop 8) 8))
      phase := if 0 < s.adLen then .absorbAd else .domsep } := by
  rw [load_bytes_add _ 0 8 8, load_bytes_add _ 0 8 8, Memory.bytes_drop _ 0 8 8, Memory.bytes_drop _ 0 8 8]
  exact runsTo_one he rfl (initResult s hp)

/-- One block of associated data (R164). -/
theorem runsTo_adblk (he : s.enginesTurn) (hp : s.phase = .absorbAd) (hx : s.x = some S)
    (hlen : s.adPos + 8 ≤ s.adLen) :
    RunsTo 1 s { s with
      x := some (permute (S.absorb (load (s.ad.bytes s.adPos 8) 8)) 6), adPos := s.adPos + 8 } :=
  runsTo_one he rfl (adblkResult s S hp hlen hx)

/-- q whole blocks of associated data, with r bytes left after them (R164). -/
theorem runsTo_adblks (he : s.enginesTurn) (hp : s.phase = .absorbAd) (hx : s.x = some S)
    (hlen : s.adPos + (8 * q + r) = s.adLen) :
    RunsTo q s { s with
      x := some (absorbBlocks q S (s.ad.bytes s.adPos (8 * q + r))), adPos := s.adPos + 8 * q } := by
  induction q generalizing s S with
  | zero => rw [absorbBlocks, ← hx]; exact RunsTo.refl s
  | succ q ih =>
    have hblk : s.adPos + 8 ≤ s.adLen := by omega
    have hrest : s.adPos + 8 + (8 * q + r) = s.adLen := by omega
    rw [show 8 * (q + 1) + r = 8 + (8 * q + r) by omega, show s.adPos + 8 * (q + 1) = s.adPos + 8 + 8 * q by omega,
      absorbBlocks_succ_bytes, Nat.add_comm q 1]
    exact (runsTo_adblk he hp hx hblk).trans fun _ => ih he hp rfl hrest

/-- The last n bytes of associated data, fewer than a block (R165). -/
theorem runsTo_adfin (he : s.enginesTurn) (hp : s.phase = .absorbAd) (hx : s.x = some S) (hlen : s.adPos + n = s.adLen)
    (hn : n < 8) :
    RunsTo 1 s { s with
      x := some (permute (S.absorb (load (s.ad.bytes s.adPos n) n ^^^ padWord n)) 6)
      adPos := s.adLen, phase := .domsep } := by
  rw [Sponge.absorb, ← BitVec.xor_assoc]
  exact runsTo_one he rfl (adfinResult s S n hp hlen hn hx)

/-- The associated-data phase, where there is associated data (R163 to R165). -/
theorem runsTo_absorbData (he : s.enginesTurn) (hp : s.phase = .absorbAd) (hx : s.x = some S) (hpos : s.adPos = 0)
    (hlen : 0 < s.adLen) :
    RunsTo (s.adLen / 8 + 1) s { s with
      x := some (absorbData S (s.ad.bytes 0 s.adLen)), adPos := s.adLen, phase := .domsep } := by
  obtain ⟨q, r, hr, hsplit⟩ : ∃ q r, r < 8 ∧ s.adLen = 8 * q + r :=
    ⟨_, _, Nat.mod_lt _ (by decide), (Nat.div_add_mod s.adLen 8).symm⟩
  have hblks := runsTo_adblks (q := q) (r := r) he hp hx (by omega)
  have hA := absorbData_bytes (S := S) s.ad s.adPos hr (hsplit ▸ hlen)
  rw [← hsplit, hpos] at hblks hA
  have hrest : 0 + 8 * q + r = s.adLen := by omega
  rw [hA, show s.adLen / 8 = q by omega]
  exact hblks.trans fun _ => runsTo_adfin he hp rfl hrest hr

theorem runsTo_domsep (he : s.enginesTurn) (hp : s.phase = .domsep) (hx : s.x = some S) :
    RunsTo 1 s { s with x := some (domainSeparate S), phase := .process } :=
  have h : exec .domsep s = .next _ := execDomsep_eq_next.2 ⟨hp, S, hx, rfl⟩
  runsTo_of_emitTrace he rfl h

/-- INIT and the associated data, to where DOMSEP is due: with no associated data INIT goes there itself (R166). -/
theorem runsTo_domsepDue (he : s.enginesTurn) (hp : s.phase = .init) (hpos : s.adPos = 0) :
    RunsTo (1 + if 0 < s.adLen then s.adLen / 8 + 1 else 0) s { s with
      k0 := some (load (s.key.bytes 0 16) 8), k1 := some (load ((s.key.bytes 0 16).drop 8) 8)
      x := some (absorbData (initSponge (load (s.key.bytes 0 16) 8) (load ((s.key.bytes 0 16).drop 8) 8)
        (load (s.nonce.bytes 0 16) 8) (load ((s.nonce.bytes 0 16).drop 8) 8)) (s.ad.bytes 0 s.adLen))
      adPos := s.adLen, phase := .domsep } := by
  have hinit := runsTo_init he hp
  by_cases hlen : 0 < s.adLen
  · rw [if_pos hlen] at hinit ⊢
    exact hinit.trans fun _ => runsTo_absorbData he rfl rfl hpos hlen
  · have hnil : s.adLen = 0 := Nat.eq_zero_of_not_pos hlen
    rw [if_neg hlen, hpos, hnil] at hinit
    rw [if_neg hlen, hnil, absorbData_zero_bytes]
    exact hinit

/-- The steps from INIT to DOMSEP leave the words of the spec's start of a call, and the key latched (R162 to R167). -/
theorem runsTo_startCall (he : s.enginesTurn) (hp : s.phase = .init) (hpos : s.adPos = 0) :
    RunsTo ((1 + if 0 < s.adLen then s.adLen / 8 + 1 else 0) + 1) s { s with
      k0 := some (load (s.key.bytes 0 16) 8), k1 := some (load ((s.key.bytes 0 16).drop 8) 8)
      x := some (startCall (s.ad.bytes 0 s.adLen) (s.key.bytes 0 16) (s.nonce.bytes 0 16))
      adPos := s.adLen, phase := .process } :=
  (runsTo_domsepDue he hp hpos).trans fun _ => runsTo_domsep he rfl rfl

/-! ### FINAL -/

/-- FINAL, in either direction (R168). -/
theorem runsTo_final {k0 k1 : Word} (he : s.enginesTurn) (hp : s.phase = .finalize) (hx : s.x = some S)
    (h0 : s.k0 = some k0) (h1 : s.k1 = some k1) :
    RunsTo 1 s { s with x := some (finalSponge k0 k1 S), phase := afterFinal s.mode } :=
  have h : exec .final s = .next _ := execFinal_eq_next.2 ⟨hp, S, hx, k0, k1, h0, h1, rfl⟩
  runsTo_of_emitTrace he rfl h

end Sys2Proof.Machine
end

section
/-! AEAD Encrypt (R190 to R195): the command and its refusals, each step from the state that enables it, then the call as a whole:
OUT takes the function's bytes from address 0 up, and the last step ends the call. -/

namespace Sys2Proof.Machine

variable {s : State} {S : Sponge} {k0 k1 : Word} {n q r : Nat}

/-! ### The command -/

theorem execEncrypt_busy (h : busy s.phase = true) : execEncrypt s = .refused .callInProgress := by
  rw [execEncrypt, whenFree_busy h]

theorem execEncrypt_tooLong (h : busy s.phase = false) (hlen : 2 ^ s.params.lenw < s.inLen + 17) :
    execEncrypt s = .refused .inputTooLong := by
  rw [execEncrypt, whenFree, h, if_neg Bool.false_ne_true, if_neg (Nat.not_le.2 hlen)]

/-- Settles O28: the two refusals are the two checks, in their order. -/
theorem encryptStartsACall : Obligations.EncryptStartsACall := fun _ =>
  ⟨fun hb hlen => execEncrypt_eq_next.2 ⟨hb, hlen, rfl⟩, execEncrypt_busy, execEncrypt_tooLong⟩

/-! ### The steps -/

theorem inLeft_eq_of_add_eq (h : s.inPos + n = s.mLen) : inLeft s = n := Nat.sub_eq_of_eq_add' h.symm

/-- ENCBLK where it is enabled and its bytes exist (R191). -/
theorem exec_encblk_enabled (hp : s.phase = .process) (hm : s.mode = .enc) (hlen : s.inPos + 8 ≤ s.mLen)
    (hin : s.mLen ≤ s.inLen) (hout : s.outPos + 8 ≤ 2 ^ s.params.lenw) (hx : s.x = some S) :
    exec .encblk s = .next (emitTrace .encblk (permute (S.absorb (load (s.inp.bytes s.inPos 8) 8)) 6)
      { s with
        x := some (permute (S.absorb (load (s.inp.bytes s.inPos 8) 8)) 6), inPos := s.inPos + 8, outPos := s.outPos + 8
        out := s.out.write s.outPos (store (S.absorb (load (s.inp.bytes s.inPos 8) 8)).x0 8) }) := by
  have hleft : 8 ≤ inLeft s := Nat.le_sub_of_add_le' hlen
  exact execEncblk_eq_next.2 ⟨⟨hp, hm, hleft⟩, S, hx, hlen.trans hin, hout, rfl⟩

/-- ENCFIN where it is enabled and its bytes exist: it takes exactly the n bytes left (R192). -/
theorem exec_encfin_enabled (hp : s.phase = .process) (hm : s.mode = .enc) (hlen : s.inPos + n = s.mLen) (hn : n < 8)
    (hin : s.mLen ≤ s.inLen) (hout : s.outPos + n ≤ 2 ^ s.params.lenw) (hx : s.x = some S) :
    exec .encfin s = .next (emitTrace .encfin ((S.absorb (load (s.inp.bytes s.inPos n) n)).absorb (padWord n))
      { s with
        x := some ((S.absorb (load (s.inp.bytes s.inPos n) n)).absorb (padWord n)), inPos := s.mLen
        outPos := s.outPos + n, phase := .finalize
        out := s.out.write s.outPos (store (S.absorb (load (s.inp.bytes s.inPos n) n)).x0 n) }) := by
  have hleft : inLeft s = n := inLeft_eq_of_add_eq hlen
  have hread : s.inPos + inLeft s ≤ s.inLen := by rw [hleft, hlen]; exact hin
  have hwrite : s.outPos + inLeft s ≤ 2 ^ s.params.lenw := by rw [hleft]; exact hout
  have h := execEncfin_eq_next.2 ⟨⟨hp, hm, hleft.trans_lt hn⟩, S, hx, .inr hread, .inr hwrite, rfl⟩
  rw [hleft, hlen] at h
  exact h

/-- TAGOUT where it is enabled and its addresses exist: the tag's 16 bytes, then the end of the call (R193). -/
theorem exec_tagout_enabled (hp : s.phase = .emitTag) (hout : s.outPos + 16 ≤ 2 ^ s.params.lenw) (hx : s.x = some S) :
    exec .tagout s = .next (emitTrace .tagout S
      { s with
        x := none, k0 := none, k1 := none, diff := none
        outPos := s.outPos + 16, outLen := s.outPos + 16, result := .ok, phase := .done
        outAny := clearOut (s.outPos + 16) s.outAny, out := s.out.write s.outPos (tagBytes S) }) := by
  have h : exec .tagout s = .next _ := execTagout_eq_next.2 ⟨hp, S, hx, hout, rfl⟩
  rw [tagBytes, Memory.write_append, length_store]
  simpa only [endCall, succeed] using h

/-! ### What the steps leave in OUT -/

/-- What a write leaves in a canonical memory: its bytes, every other byte as before, and the canonical form. -/
theorem Memory.write_result {m : Memory} {a : Nat} {bs : List Byte} (hwf : m.wf = true) (hlen : bs.length = n) :
    (m.write a bs).bytes a n = bs ∧ (∀ x, x < a ∨ a + n ≤ x → (m.write a bs).get x = m.get x) ∧
      (m.write a bs).wf = true :=
  ⟨hlen ▸ Memory.bytes_write_same a bs hwf, fun _ hx => Memory.get_write_outside bs (hlen.symm ▸ hx),
    Memory.wf_write a bs hwf⟩

/-- Settles O29: the block written is word 0 of the words before P6. -/
theorem encblkResult : Obligations.EncblkResult := by
  intro s S hp hm hlen hin hout hx hwf c
  obtain ⟨t, hexec, hframe⟩ := exists_next_of_eq_emitTrace (exec_encblk_enabled hp hm hlen hin hout hx)
  rw [hframe] at hexec
  exact ⟨_, hexec, rfl, Memory.write_result hwf (length_store c 8)⟩

/-- Settles O30: the bytes written are those of word 0 before the pad. -/
theorem encfinResult : Obligations.EncfinResult := by
  intro s S n hp hm hlen hn hin hout hx hwf c
  obtain ⟨t, hexec, hframe⟩ := exists_next_of_eq_emitTrace (exec_encfin_enabled hp hm hlen hn hin hout hx)
  rw [hframe] at hexec
  exact ⟨_, hexec, rfl, Memory.write_result hwf (length_store c n)⟩

@[simp] theorem length_tagBytes (S : Sponge) : (tagBytes S).length = 16 := by simp [tagBytes]

/-- Settles O31: the 16 bytes written are word 3's, then word 4's. -/
theorem tagoutResult : Obligations.TagoutResult := by
  intro s S hp hout hx hwf
  obtain ⟨t, hexec, hframe⟩ := exists_next_of_eq_emitTrace (exec_tagout_enabled hp hout hx)
  have hlen : (tagBytes S).length = 16 := length_tagBytes S
  have htag : tagBytes S = store S.x3 8 ++ store S.x4 8 := rfl
  generalize tagBytes S = T at hframe hlen htag
  rw [hframe] at hexec
  obtain ⟨hbytes, hothers, hwf'⟩ := Memory.write_result (a := s.outPos) hwf hlen
  rw [Memory.bytes_add _ s.outPos 8 8] at hbytes
  obtain ⟨h3, h4⟩ := List.append_inj (hbytes.trans htag) (by rw [Memory.length_bytes, length_store])
  exact ⟨_, hexec, rfl, h3, h4, hothers, hwf'⟩

/-! ### The call -/

theorem encBlocks_succ_bytes (m : Memory) (a : Nat) :
    encBlocks (q + 1) S (m.bytes a (8 + n)) =
      let A := S.absorb (load (m.bytes a 8) 8)
      let r := encBlocks q (permute A 6) (m.bytes (a + 8) n)
      (r.1, store A.x0 8 ++ r.2) := by
  rw [encBlocks, load_bytes_add, Memory.bytes_drop]

theorem length_encBlocks (q : Nat) (S : Sponge) (P : List Byte) : (encBlocks q S P).2.length = 8 * q := by
  induction q generalizing S P with
  | zero => rfl
  | succ q ih => rw [encBlocks, List.length_append, length_store, ih, Nat.mul_succ, Nat.add_comm]

/-- The plaintext of q blocks and r more bytes. -/
theorem encData_bytes (m : Memory) (a : Nat) (hr : r < 8) :
    encData S (m.bytes a (8 * q + r)) =
      let b := encBlocks q S (m.bytes a (8 * q + r))
      let A := b.1.absorb (load (m.bytes (a + 8 * q) r) r)
      (A.absorb (padWord r), b.2 ++ store A.x0 r) := by
  have hq : (8 * q + r) / 8 = q := by omega
  simp only [encData, Memory.length_bytes, hq, Memory.bytes_drop]

theorem length_encData (S : Sponge) (P : List Byte) : (encData S P).2.length = P.length := by
  simp only [encData, List.length_append, length_encBlocks, length_store, List.length_drop]
  omega

/-- encrypt gives the ciphertext, as long as the plaintext, and the 16 bytes of the tag (R195). -/
theorem length_encryptFn (P A K N : List Byte) : (encryptFn P A K N).length = P.length + 16 := by
  rw [encryptFn, List.length_append, length_encData, finishCall, length_tagBytes]

/-- The data phase of an ENCRYPT call on the engine's turn: OUT is written where IN is read, and has room for the tag (R190, R191,
R291). -/
structure State.Encrypting (s : State) : Prop where
  turn : s.enginesTurn
  phase : s.phase = .process
  mode : s.mode = .enc
  outPos : s.outPos = s.inPos
  read : s.mLen ≤ s.inLen
  room : s.mLen + 16 ≤ 2 ^ s.params.lenw

/-- One block of plaintext (R191). -/
theorem runsTo_encblk (h : s.Encrypting) (hx : s.x = some S) (hlen : s.inPos + 8 ≤ s.mLen) :
    RunsTo 1 s { s with
      x := some (permute (S.absorb (load (s.inp.bytes s.inPos 8) 8)) 6), inPos := s.inPos + 8, outPos := s.outPos + 8
      out := s.out.write s.outPos (store (S.absorb (load (s.inp.bytes s.inPos 8) 8)).x0 8) } := by
  obtain ⟨he, hp, hm, hpos, hin, hroom⟩ := h
  have hout : s.outPos + 8 ≤ 2 ^ s.params.lenw := by omega
  exact runsTo_of_emitTrace he rfl (exec_encblk_enabled hp hm hlen hin hout hx)

/-- q whole blocks of plaintext, with r bytes left after them (R191). -/
theorem runsTo_encblks (h : s.Encrypting) (hx : s.x = some S) (hlen : s.inPos + (8 * q + r) = s.mLen) :
    RunsTo q s { s with
      x := some (encBlocks q S (s.inp.bytes s.inPos (8 * q + r))).1
      inPos := s.inPos + 8 * q, outPos := s.outPos + 8 * q
      out := s.out.write s.outPos (encBlocks q S (s.inp.bytes s.inPos (8 * q + r))).2 } := by
  induction q generalizing s S with
  | zero => rw [encBlocks, ← hx]; exact RunsTo.refl s
  | succ q ih =>
    have hblk := runsTo_encblk h hx (by omega)
    have hrest : s.inPos + 8 + (8 * q + r) = s.mLen := by omega
    have hpos : s.outPos + 8 = s.inPos + 8 := congrArg (· + 8) h.outPos
    rw [show 8 * (q + 1) + r = 8 + (8 * q + r) by omega, show 8 * (q + 1) = 8 + 8 * q by omega,
      encBlocks_succ_bytes, Memory.write_append, length_store, ← Nat.add_assoc, ← Nat.add_assoc, Nat.add_comm q 1]
    exact hblk.trans fun _ => ih ⟨h.turn, h.phase, h.mode, hpos, h.read, h.room⟩ rfl hrest

/-- The last n bytes of plaintext, fewer than a block (R192). -/
theorem runsTo_encfin (h : s.Encrypting) (hx : s.x = some S) (hlen : s.inPos + n = s.mLen) (hn : n < 8) :
    RunsTo 1 s { s with
      x := some ((S.absorb (load (s.inp.bytes s.inPos n) n)).absorb (padWord n)), inPos := s.mLen
      outPos := s.mLen, phase := .finalize
      out := s.out.write s.outPos (store (S.absorb (load (s.inp.bytes s.inPos n) n)).x0 n) } := by
  obtain ⟨he, hp, hm, hpos, hin, hroom⟩ := h
  have hend : s.outPos + n = s.mLen := hpos ▸ hlen
  have hout : s.outPos + n ≤ 2 ^ s.params.lenw := by omega
  have hexec := exec_encfin_enabled hp hm hlen hn hin hout hx
  rw [hend] at hexec
  exact runsTo_of_emitTrace he rfl hexec

/-- The data phase: whole blocks, then ENCFIN (R194). -/
theorem runsTo_encData (h : s.Encrypting) (hx : s.x = some S) (hinPos : s.inPos = 0) :
    RunsTo (s.mLen / 8 + 1) s { s with
      x := some (encData S (s.inp.bytes 0 s.mLen)).1, inPos := s.mLen, outPos := s.mLen, phase := .finalize
      out := s.out.write 0 (encData S (s.inp.bytes 0 s.mLen)).2 } := by
  obtain ⟨q, r, hr, hsplit⟩ : ∃ q r, r < 8 ∧ s.mLen = 8 * q + r :=
    ⟨_, _, Nat.mod_lt _ (by decide), (Nat.div_add_mod s.mLen 8).symm⟩
  have hblks := runsTo_encblks (q := q) (r := r) h hx (by omega)
  have hdata := encData_bytes (S := S) (q := q) s.inp 0 hr
  rw [← hsplit, h.outPos, hinPos] at hblks
  rw [← hsplit] at hdata
  have hrest : 0 + 8 * q + r = s.mLen := by omega
  rw [hdata, show s.mLen / 8 = q by omega, Memory.write_append, length_encBlocks]
  exact hblks.trans fun _ => runsTo_encfin ⟨h.turn, h.phase, h.mode, rfl, h.read, h.room⟩ rfl hrest hr

/-- The tag written and the call ended (R193). -/
theorem runsTo_tagout (he : s.enginesTurn) (hp : s.phase = .emitTag) (hx : s.x = some S)
    (hout : s.outPos + 16 ≤ 2 ^ s.params.lenw) :
    RunsTo 1 s { s with
      x := none, k0 := none, k1 := none, diff := none
      outPos := s.outPos + 16, outLen := s.outPos + 16, result := .ok, phase := .done
      outAny := clearOut (s.outPos + 16) s.outAny, out := s.out.write s.outPos (tagBytes S) } :=
  runsTo_of_emitTrace he rfl (exec_tagout_enabled hp hout hx)

/-- FINAL and TAGOUT: the tag of the words the data phase leaves, then the end of the call (R194). -/
theorem runsTo_encTag (he : s.enginesTurn) (hp : s.phase = .finalize) (hm : s.mode = .enc) (hx : s.x = some S)
    (h0 : s.k0 = some k0) (h1 : s.k1 = some k1) (hout : s.outPos + 16 ≤ 2 ^ s.params.lenw) :
    RunsTo (1 + 1) s { s with
      x := none, k0 := none, k1 := none, diff := none
      outPos := s.outPos + 16, outLen := s.outPos + 16, result := .ok, phase := .done
      outAny := clearOut (s.outPos + 16) s.outAny
      out := s.out.write s.outPos (tagBytes (finalSponge k0 k1 S)) } := by
  have hfinal := runsTo_final he hp hx h0 h1
  have hphase : afterFinal s.mode = .emitTag := by rw [hm, afterFinal]
  rw [hphase] at hfinal
  exact hfinal.trans fun _ => runsTo_tagout he rfl rfl hout

/-- The steps after DOMSEP (R194): the ciphertext, then the tag behind it. -/
theorem runsTo_encDataTag (h : s.Encrypting) (hx : s.x = some S) (h0 : s.k0 = some k0) (h1 : s.k1 = some k1)
    (hinPos : s.inPos = 0) :
    RunsTo (s.mLen / 8 + 1 + (1 + 1)) s { s with
      x := none, k0 := none, k1 := none, diff := none
      inPos := s.mLen, outPos := s.mLen + 16, outLen := s.mLen + 16, result := .ok, phase := .done
      outAny := clearOut (s.mLen + 16) s.outAny
      out := s.out.write 0 ((encData S (s.inp.bytes 0 s.mLen)).2 ++
        tagBytes (finalSponge k0 k1 (encData S (s.inp.bytes 0 s.mLen)).1)) } := by
  rw [Memory.write_append, length_encData, Memory.length_bytes, Nat.zero_add s.mLen]
  exact (runsTo_encData h hx hinPos).trans fun _ => runsTo_encTag h.turn rfl h.mode rfl h0 h1 h.room

/-- The steps after ENCRYPT (R194): OUT takes encrypt's bytes from address 0 up. -/
theorem runsTo_encryptFn (he : s.enginesTurn) (hp : s.phase = .init) (hm : s.mode = .enc)
    (hpos : s.adPos = 0 ∧ s.inPos = 0 ∧ s.outPos = 0) (hin : s.mLen ≤ s.inLen)
    (hroom : s.mLen + 16 ≤ 2 ^ s.params.lenw) :
    RunsTo (callSteps s.adLen s.mLen) s { s with
      x := none, k0 := none, k1 := none, diff := none
      adPos := s.adLen, inPos := s.mLen, outPos := s.mLen + 16, outLen := s.mLen + 16, result := .ok, phase := .done
      outAny := clearOut (s.mLen + 16) s.outAny
      out := s.out.write 0
        (encryptFn (s.inp.bytes 0 s.mLen) (s.ad.bytes 0 s.adLen) (s.key.bytes 0 16) (s.nonce.bytes 0 16)) } := by
  obtain ⟨hadPos, hinPos, houtPos⟩ := hpos
  have hsteps : callSteps s.adLen s.mLen =
      ((1 + if 0 < s.adLen then s.adLen / 8 + 1 else 0) + 1) + (s.mLen / 8 + 1 + (1 + 1)) := by
    rw [callSteps]
    omega
  rw [hsteps]
  exact (runsTo_startCall he hp hadPos).trans fun _ =>
    runsTo_encDataTag ⟨he, rfl, hm, houtPos.trans hinPos.symm, hin, hroom⟩ rfl rfl rfl hinPos

/-- Settles O56: the command's step, then the call's; OUT is canonical, so the bytes written are the bytes read. -/
theorem encryptCallComputesEncrypt : Obligations.EncryptCallComputesEncrypt := by
  intro s hInv hb hturns hlen
  have hcmd : step s = .next _ :=
    (step_encrypt hInv.lenw hturns).trans (execEncrypt_eq_next.2 ⟨hb, hlen, rfl⟩)
  obtain ⟨tr, hrun⟩ := runsTo_encryptFn (s := { s with
      turns := [], mode := .enc, mLen := s.inLen, adPos := 0, inPos := 0, outPos := 0, result := .none, outLen := 0
      phase := .init })
    ⟨hInv.lenw, rfl⟩ rfl rfl ⟨rfl, rfl, rfl⟩ le_rfl (Nat.le_of_succ_le hlen)
  have hlength := length_encryptFn (s.inp.bytes 0 s.inLen) (s.ad.bytes 0 s.adLen) (s.key.bytes 0 16)
    (s.nonce.bytes 0 16)
  rw [Memory.length_bytes] at hlength
  obtain ⟨hbytes, hothers, -⟩ := Memory.write_result (a := 0) (hInv.memWf .out) hlength
  rw [Nat.zero_add] at hothers
  rw [Nat.add_comm 1, run_succ _ hcmd]
  exact ⟨_, hrun, rfl, rfl, rfl, hbytes, fun a ha => hothers a (.inr ha)⟩

end Sys2Proof.Machine
end

section
/-! The tag comparison (R215, R216): the accumulator pair by pair, the collapse by its table, and together the test for equality. -/

namespace Sys2Proof.Machine

variable {T U : List Byte} {k : Nat}

/-- What was accumulated before stays, and each pair adds its difference (R215). -/
theorem getLsbD_accumulate (diff : Byte) (hlen : T.length = U.length) :
    (accumulate diff T U).getLsbD k = true ↔ diff.getLsbD k = true ∨
      ∃ i, ∃ (h : i < T.length) (h' : i < U.length), T[i].getLsbD k ≠ U[i].getLsbD k := by
  induction T generalizing diff U with
  | nil => simp [accumulate]
  | cons t T ih =>
    obtain ⟨u, U, rfl⟩ := List.exists_cons_of_length_eq_add_one hlen.symm
    rw [accumulate, ih _ (Nat.succ.inj hlen)]
    conv_rhs => rw [← Nat.or_exists_add_one]
    simp [or_assoc]

/-- The accumulation ends at 0 only from 0 and over pairs that are all equal (R215). -/
theorem accumulate_eq_zero (diff : Byte) (hlen : T.length = U.length) :
    accumulate diff T U = 0 ↔ diff = 0 ∧ T = U := by
  induction T generalizing diff U with
  | nil =>
    obtain rfl := List.eq_nil_of_length_eq_zero hlen.symm
    simp [accumulate]
  | cons t T ih =>
    obtain ⟨u, U, rfl⟩ := List.exists_cons_of_length_eq_add_one hlen.symm
    rw [accumulate, ih _ (Nat.succ.inj hlen), List.cons.injEq, ← and_assoc]
    simp [BitVec.or_eq_zero_iff, BitVec.xor_eq_zero_iff]

/-- Settles O36: the accumulation starts from 0, so it shows the pairs' differences and nothing else. -/
theorem accumulatorShowsDifferences : Obligations.AccumulatorShowsDifferences := by
  intro T U hlen
  refine ⟨fun k _ => ?bit, ?zero⟩
  case bit => simpa using getLsbD_accumulate 0 hlen
  case zero => simpa using accumulate_eq_zero 0 hlen

/-- Settles O37, by evaluating the 256 values. -/
theorem collapseTable : Obligations.CollapseTable := by
  unfold Obligations.CollapseTable
  decide

theorem collapse_eq_zero (diff : Byte) : collapse diff = 0 ↔ diff = 0 := by
  obtain ⟨hzero, hother⟩ := collapseTable diff
  refine ⟨fun h => ?_, fun h => BitVec.eq_of_toInt_eq (hzero h)⟩
  by_contra hne
  have := hother hne
  rw [h] at this
  cases this

/-- TAGVFY's test (R213): the collapsed difference is 0 exactly for equal sequences. -/
theorem collapse_accumulate_eq_zero (hlen : T.length = U.length) : collapse (accumulate 0 T U) = 0 ↔ T = U := by
  rw [collapse_eq_zero, accumulate_eq_zero 0 hlen, eq_self_iff_true, true_and]

end Sys2Proof.Machine
end

section
/-! AEAD Decrypt and Verify (R211 to R213, R218): each step from the state that enables it and what it leaves in OUT, then the call as
a whole: the plaintext goes to OUT from address 0 up, and TAGVFY decides the outcome. -/

namespace Sys2Proof.Machine

variable {s : State} {S : Sponge} {k0 k1 : Word} {n q r : Nat}

/-! ### The steps -/

/-- DECBLK where it is enabled and its bytes exist (R211). -/
theorem exec_decblk_enabled (hp : s.phase = .process) (hm : s.mode = .dec) (hlen : s.inPos + 8 ≤ s.mLen)
    (hin : s.mLen ≤ s.inLen) (hout : s.outPos + 8 ≤ 2 ^ s.params.lenw) (hx : s.x = some S) :
    exec .decblk s = .next (emitTrace .decblk (permute { S with x0 := load (s.inp.bytes s.inPos 8) 8 } 6)
      { s with
        x := some (permute { S with x0 := load (s.inp.bytes s.inPos 8) 8 } 6)
        inPos := s.inPos + 8, outPos := s.outPos + 8
        out := s.out.write s.outPos (store (S.x0 ^^^ load (s.inp.bytes s.inPos 8) 8) 8) }) := by
  have hleft : 8 ≤ inLeft s := Nat.le_sub_of_add_le' hlen
  exact execDecblk_eq_next.2 ⟨⟨hp, hm, hleft⟩, S, hx, hlen.trans hin, hout, rfl⟩

/-- The words DECFIN leaves when the first n byte positions of word 0 become `bs` (R212). -/
def decfinWords (S : Sponge) (bs : List Byte) (n : Nat) : Sponge :=
  (S.absorb (maskKeep (S.x0 ^^^ load bs n) n)).absorb (padWord n)

/-- DECFIN where it is enabled and its bytes exist: it takes exactly the n bytes left (R212). -/
theorem exec_decfin_enabled (hp : s.phase = .process) (hm : s.mode = .dec) (hlen : s.inPos + n = s.mLen) (hn : n < 8)
    (hin : s.mLen ≤ s.inLen) (hout : s.outPos + n ≤ 2 ^ s.params.lenw) (hx : s.x = some S) :
    exec .decfin s = .next (emitTrace .decfin (decfinWords S (s.inp.bytes s.inPos n) n)
      { s with
        x := some (decfinWords S (s.inp.bytes s.inPos n) n), inPos := s.mLen
        outPos := s.outPos + n, phase := .finalize
        out := s.out.write s.outPos (store (S.x0 ^^^ load (s.inp.bytes s.inPos n) n) n) }) := by
  have hleft : inLeft s = n := inLeft_eq_of_add_eq hlen
  have hread : s.inPos + inLeft s ≤ s.inLen := by rw [hleft, hlen]; exact hin
  have hwrite : s.outPos + inLeft s ≤ 2 ^ s.params.lenw := by rw [hleft]; exact hout
  have h := execDecfin_eq_next.2 ⟨⟨hp, hm, hleft.trans_lt hn⟩, S, hx, .inr hread, .inr hwrite, rfl⟩
  rw [hleft, hlen] at h
  exact h

/-- One byte value written over the first n addresses of a canonical memory. -/
theorem Memory.get_write_replicate {m : Memory} (hwf : m.wf = true) (n : Nat) (b : Byte) (a : Nat) :
    (m.write 0 (List.replicate n b)).get a = if a < n then b else m.get a := by
  by_cases ha : a < n
  · have h := Memory.get_write_inside (a := 0) (bs := List.replicate n b) hwf (by rwa [List.length_replicate])
    rw [if_pos ha, ← Nat.zero_add a, h, List.getElem_replicate]
  · rw [if_neg ha, Memory.get_write_outside _ (.inr (by rw [List.length_replicate]; omega))]

/-- What OUT holds after a mismatch (R217). -/
def spoiled (s : State) : Memory :=
  if s.params.zeroizeOnFail then s.out.write 0 (List.replicate s.mLen 0) else s.out

theorem get_spoiled (hwf : s.out.wf = true) (a : Nat) :
    (spoiled s).get a = if s.params.zeroizeOnFail = true ∧ a < s.mLen then 0 else s.out.get a := by
  by_cases hz : s.params.zeroizeOnFail = true
  · simp only [spoiled, hz, if_true, true_and, Memory.get_write_replicate hwf]
  · simp only [spoiled, hz, Bool.false_eq_true, if_false, false_and]

theorem wf_spoiled (hwf : s.out.wf = true) : (spoiled s).wf = true := by
  unfold spoiled
  split
  · exact Memory.wf_write _ _ hwf
  · exact hwf

/-- TAGVFY where it is enabled, on equal tags (R213). -/
theorem exec_tagvfy_equal (hp : s.phase = .verifyTag) (hin : s.mLen + 16 ≤ s.inLen) (hx : s.x = some S)
    (htag : tagBytes S = s.inp.bytes s.mLen 16) :
    exec .tagvfy s = .next (emitTrace .tagvfy S (endCall (succeed s.outPos s))) := by
  have hcmp := (collapse_accumulate_eq_zero (by simp)).2 htag
  exact execTagvfy_eq_next.2 ⟨hp, S, hx, hin, .inl ⟨hcmp, rfl⟩⟩

/-- TAGVFY where it is enabled, on tags that differ (R213, R217). -/
theorem exec_tagvfy_differs (hp : s.phase = .verifyTag) (hin : s.mLen + 16 ≤ s.inLen)
    (hout : s.mLen ≤ 2 ^ s.params.lenw) (hx : s.x = some S) (htag : tagBytes S ≠ s.inp.bytes s.mLen 16) :
    exec .tagvfy s = .next (emitTrace .tagvfy S
      (raise .authFail { s with outAny := markOut s.mLen s.outAny, out := spoiled s })) := by
  have hcmp := mt (collapse_accumulate_eq_zero (by simp)).1 htag
  exact execTagvfy_eq_next.2 ⟨hp, S, hx, hin, .inr ⟨hcmp, fun _ => .inr hout, rfl⟩⟩

/-- Settles O33: OUT takes the old word 0 XORed with the block that replaces it. -/
theorem decblkResult : Obligations.DecblkResult := by
  intro s S hp hm hlen hin hout hx hwf c0
  obtain ⟨t, hexec, hframe⟩ := exists_next_of_eq_emitTrace (exec_decblk_enabled hp hm hlen hin hout hx)
  rw [hframe] at hexec
  exact ⟨_, hexec, rfl, Memory.write_result hwf (length_store _ 8)⟩

/-- Settles O34: word 0 before the pad is the decrypting update of its first n byte positions. -/
theorem decfinResult : Obligations.DecfinResult := by
  intro s S n hp hm hlen hn hin hout hx hwf bs
  obtain ⟨t, hexec, hframe⟩ := exists_next_of_eq_emitTrace (exec_decfin_enabled hp hm hlen hn hin hout hx)
  rw [hframe] at hexec
  exact ⟨_, _, hexec, rfl, fun _ hj => byteAt_xor_maskKeep_xor_load S.x0 bs hn.le hj,
    Memory.write_result hwf (length_store _ n)⟩

/-- Settles O35: the two outcomes exclude each other by the comparison of the tags. -/
theorem tagvfyDecidesTheCall : Obligations.TagvfyDecidesTheCall := by
  intro s S hp hin hout hx hwf
  by_cases htag : tagBytes S = s.inp.bytes s.mLen 16
  · obtain ⟨t, hexec, hframe⟩ := exists_next_of_eq_emitTrace (exec_tagvfy_equal hp hin hx htag)
    rw [hframe] at hexec
    exact ⟨_, hexec, fun _ => rfl, fun hne => absurd htag hne⟩
  · obtain ⟨t, hexec, hframe⟩ := exists_next_of_eq_emitTrace (exec_tagvfy_differs hp hin hout hx htag)
    rw [hframe] at hexec
    exact ⟨_, hexec, fun heq => absurd heq htag, fun _ => ⟨rfl, get_spoiled hwf, wf_spoiled hwf⟩⟩

/-! ### The call -/

theorem decBlocks_succ_bytes (m : Memory) (a : Nat) :
    decBlocks (q + 1) S (m.bytes a (8 + n)) =
      let c0 := load (m.bytes a 8) 8
      let r := decBlocks q (permute { S with x0 := c0 } 6) (m.bytes (a + 8) n)
      (r.1, store (S.x0 ^^^ c0) 8 ++ r.2) := by
  rw [decBlocks, load_bytes_add, Memory.bytes_drop]

theorem length_decBlocks (q : Nat) (S : Sponge) (C : List Byte) : (decBlocks q S C).2.length = 8 * q := by
  induction q generalizing S C with
  | zero => rfl
  | succ q ih => rw [decBlocks, List.length_append, length_store, ih, Nat.mul_succ, Nat.add_comm]

/-- The ciphertext of q blocks and r more bytes. -/
theorem decData_bytes (m : Memory) (a : Nat) (hr : r < 8) :
    decData S (m.bytes a (8 * q + r)) =
      let b := decBlocks q S (m.bytes a (8 * q + r))
      (decfinWords b.1 (m.bytes (a + 8 * q) r) r, b.2 ++ store (b.1.x0 ^^^ load (m.bytes (a + 8 * q) r) r) r) := by
  have hq : (8 * q + r) / 8 = q := by omega
  simp only [decData, decfinWords, Memory.length_bytes, hq, Memory.bytes_drop]

theorem length_decData (S : Sponge) (C : List Byte) : (decData S C).2.length = C.length := by
  simp only [decData, List.length_append, length_decBlocks, length_store, List.length_drop]
  omega

theorem decryptFn_short {CT : List Byte} (A K N : List Byte) (h : CT.length < 16) :
    decryptFn CT A K N = .structuralError := if_pos h

/-- decrypt on n bytes of ciphertext with the 16 bytes of the tag behind them (R218). -/
theorem decryptFn_bytes (m : Memory) (n : Nat) (A K N : List Byte) :
    decryptFn (m.bytes 0 (n + 16)) A K N =
      let r := decData (startCall A K N) (m.bytes 0 n)
      if finishCall K r.1 = m.bytes n 16 then .ok r.2 else .authenticationFailure := by
  have hlong : ¬ n + 16 < 16 := by omega
  simp only [decryptFn, Memory.length_bytes, if_neg hlong, Nat.add_sub_cancel, Memory.bytes_take, Memory.bytes_drop,
    Nat.zero_add]

/-- The data phase of a DECRYPT call on the engine's turn: OUT is written where IN is read (R211, R212). -/
structure State.Decrypting (s : State) : Prop where
  turn : s.enginesTurn
  phase : s.phase = .process
  mode : s.mode = .dec
  outPos : s.outPos = s.inPos
  read : s.mLen ≤ s.inLen
  room : s.mLen ≤ 2 ^ s.params.lenw

/-- One block of ciphertext (R211). -/
theorem runsTo_decblk (h : s.Decrypting) (hx : s.x = some S) (hlen : s.inPos + 8 ≤ s.mLen) :
    RunsTo 1 s { s with
      x := some (permute { S with x0 := load (s.inp.bytes s.inPos 8) 8 } 6)
      inPos := s.inPos + 8, outPos := s.outPos + 8
      out := s.out.write s.outPos (store (S.x0 ^^^ load (s.inp.bytes s.inPos 8) 8) 8) } := by
  obtain ⟨he, hp, hm, hpos, hin, hroom⟩ := h
  have hout : s.outPos + 8 ≤ 2 ^ s.params.lenw := by omega
  exact runsTo_of_emitTrace he rfl (exec_decblk_enabled hp hm hlen hin hout hx)

/-- q whole blocks of ciphertext, with r bytes left after them (R211). -/
theorem runsTo_decblks (h : s.Decrypting) (hx : s.x = some S) (hlen : s.inPos + (8 * q + r) = s.mLen) :
    RunsTo q s { s with
      x := some (decBlocks q S (s.inp.bytes s.inPos (8 * q + r))).1
      inPos := s.inPos + 8 * q, outPos := s.outPos + 8 * q
      out := s.out.write s.outPos (decBlocks q S (s.inp.bytes s.inPos (8 * q + r))).2 } := by
  induction q generalizing s S with
  | zero => rw [decBlocks, ← hx]; exact RunsTo.refl s
  | succ q ih =>
    have hblk := runsTo_decblk h hx (by omega)
    have hrest : s.inPos + 8 + (8 * q + r) = s.mLen := by omega
    have hpos : s.outPos + 8 = s.inPos + 8 := congrArg (· + 8) h.outPos
    rw [show 8 * (q + 1) + r = 8 + (8 * q + r) by omega, show 8 * (q + 1) = 8 + 8 * q by omega,
      decBlocks_succ_bytes, Memory.write_append, length_store, ← Nat.add_assoc, ← Nat.add_assoc, Nat.add_comm q 1]
    exact hblk.trans fun _ => ih ⟨h.turn, h.phase, h.mode, hpos, h.read, h.room⟩ rfl hrest

/-- The last n bytes of ciphertext, fewer than a block (R212). -/
theorem runsTo_decfin (h : s.Decrypting) (hx : s.x = some S) (hlen : s.inPos + n = s.mLen) (hn : n < 8) :
    RunsTo 1 s { s with
      x := some (decfinWords S (s.inp.bytes s.inPos n) n), inPos := s.mLen, outPos := s.mLen, phase := .finalize
      out := s.out.write s.outPos (store (S.x0 ^^^ load (s.inp.bytes s.inPos n) n) n) } := by
  obtain ⟨he, hp, hm, hpos, hin, hroom⟩ := h
  have hend : s.outPos + n = s.mLen := hpos ▸ hlen
  have hexec := exec_decfin_enabled hp hm hlen hn hin (hend ▸ hroom) hx
  rw [hend] at hexec
  exact runsTo_of_emitTrace he rfl hexec

/-- The data phase: whole blocks, then DECFIN (R218). -/
theorem runsTo_decData (h : s.Decrypting) (hx : s.x = some S) (hinPos : s.inPos = 0) :
    RunsTo (s.mLen / 8 + 1) s { s with
      x := some (decData S (s.inp.bytes 0 s.mLen)).1, inPos := s.mLen, outPos := s.mLen, phase := .finalize
      out := s.out.write 0 (decData S (s.inp.bytes 0 s.mLen)).2 } := by
  obtain ⟨q, r, hr, hsplit⟩ : ∃ q r, r < 8 ∧ s.mLen = 8 * q + r :=
    ⟨_, _, Nat.mod_lt _ (by decide), (Nat.div_add_mod s.mLen 8).symm⟩
  have hblks := runsTo_decblks (q := q) (r := r) h hx (by omega)
  have hdata := decData_bytes (S := S) (q := q) s.inp 0 hr
  rw [← hsplit, h.outPos, hinPos] at hblks
  rw [← hsplit] at hdata
  have hrest : 0 + 8 * q + r = s.mLen := by omega
  rw [hdata, show s.mLen / 8 = q by omega, Memory.write_append, length_decBlocks]
  exact hblks.trans fun _ => runsTo_decfin ⟨h.turn, h.phase, h.mode, rfl, h.read, h.room⟩ rfl hrest hr

/-- The data phase and FINAL, to where TAGVFY is due. -/
theorem runsTo_decFinal (h : s.Decrypting) (hx : s.x = some S) (h0 : s.k0 = some k0) (h1 : s.k1 = some k1)
    (hinPos : s.inPos = 0) :
    RunsTo (s.mLen / 8 + 1 + 1) s { s with
      x := some (finalSponge k0 k1 (decData S (s.inp.bytes 0 s.mLen)).1)
      inPos := s.mLen, outPos := s.mLen, phase := .verifyTag
      out := s.out.write 0 (decData S (s.inp.bytes 0 s.mLen)).2 } := by
  have hphase : afterFinal s.mode = .verifyTag := by rw [h.mode, afterFinal]
  rw [← hphase]
  exact (runsTo_decData h hx hinPos).trans fun _ => runsTo_final h.turn rfl rfl h0 h1

/-- Where TAGVFY is due: all of AD and the ciphertext consumed, `P` in OUT, the words `T` to compare the tag with. -/
def tagvfyDue (s : State) (T : Sponge) (P : List Byte) : State :=
  { s with
    k0 := some (load (s.key.bytes 0 16) 8), k1 := some (load ((s.key.bytes 0 16).drop 8) 8)
    x := some T, adPos := s.adLen, inPos := s.mLen, outPos := s.mLen, phase := .verifyTag, out := s.out.write 0 P }

/-- The steps of a DECRYPT call up to TAGVFY (R218): the plaintext is in OUT, and the words give the expected tag. -/
theorem runsTo_tagvfyDue (he : s.enginesTurn) (hp : s.phase = .init) (hm : s.mode = .dec)
    (hpos : s.adPos = 0 ∧ s.inPos = 0 ∧ s.outPos = 0) (hin : s.mLen ≤ s.inLen) (hroom : s.mLen ≤ 2 ^ s.params.lenw)
    {d : Sponge × List Byte} (hd : decData
      (startCall (s.ad.bytes 0 s.adLen) (s.key.bytes 0 16) (s.nonce.bytes 0 16)) (s.inp.bytes 0 s.mLen) = d) :
    ∃ T, tagBytes T = finishCall (s.key.bytes 0 16) d.1 ∧
      RunsTo (((1 + if 0 < s.adLen then s.adLen / 8 + 1 else 0) + 1) + (s.mLen / 8 + 1 + 1)) s (tagvfyDue s T d.2) := by
  obtain ⟨hadPos, hinPos, houtPos⟩ := hpos
  subst hd
  exact ⟨_, rfl, (runsTo_startCall he hp hadPos).trans fun _ =>
    runsTo_decFinal ⟨he, rfl, hm, houtPos.trans hinPos.symm, hin, hroom⟩ rfl rfl rfl hinPos⟩

theorem callSteps_eq (A M : Nat) :
    callSteps A M = ((1 + if 0 < A then A / 8 + 1 else 0) + 1) + (M / 8 + 1 + 1) + 1 := by
  rw [callSteps]
  omega

/-- One more controller step after a run: what holds of its answer, whatever the trace, holds at the run's end. -/
theorem RunsTo.exec {k : Nat} {t : State} {i : Instr} {P : State → Prop} (h : RunsTo k s t) (he : t.enginesTurn)
    (hl : i.layer = .controllerStep) (h' : ∀ tr, ∃ u, exec i { t with trace := tr } = .next u ∧ P u) :
    ∃ u : State, Host.Core.run core (k + 1) s = .next u ∧ P u := by
  obtain ⟨tr, hrun⟩ := h
  obtain ⟨u, hexec, hu⟩ := h' tr
  have hstep := (step_eq_exec (s := { t with trace := tr }) he hl hexec).trans hexec
  exact ⟨u, (run_add k 1 hrun).trans (run_succ 0 hstep), hu⟩

/-- A DECRYPT command whose INLEN has no room for a tag ends the call itself (R210, R241). -/
theorem step_decrypt_short (hp : 20 ≤ s.params.lenw) (hb : busy s.phase = false)
    (hturns : s.turns = [.host (.writeReg 0 0xa100)]) (hlen : s.inLen < 16) :
    step s = .next (raise .structErr
      { s with turns := [], mode := .dec, adPos := 0, inPos := 0, outPos := 0, outLen := 0, mLen := 0 }) :=
  (step_decrypt hp hturns).trans (execDecrypt_eq_next.2 ⟨hb, (if_pos hlen).symm⟩)

/-- A call to decrypt n bytes of ciphertext, before its INIT (R210). -/
def decryptStarted (s : State) (n : Nat) : State :=
  { s with
    turns := [], mode := .dec, adPos := 0, inPos := 0, outPos := 0, outLen := 0, result := .none, mLen := n
    phase := .init }

/-- A DECRYPT command with room for a tag starts the call on the ciphertext before it (R210). -/
theorem step_decrypt_long (hp : 20 ≤ s.params.lenw) (hb : busy s.phase = false)
    (hturns : s.turns = [.host (.writeReg 0 0xa100)]) (hlen : s.inLen = n + 16) :
    step s = .next (decryptStarted s n) := by
  have hlong : ¬ s.inLen < 16 := by omega
  obtain rfl : n = s.inLen - 16 := by omega
  exact (step_decrypt hp hturns).trans (execDecrypt_eq_next.2 ⟨hb, (if_neg hlong).symm⟩)

/-- Settles O57: the command's step, the call's up to TAGVFY, and TAGVFY by its two outcomes. -/
theorem decryptCallComputesDecrypt : Obligations.DecryptCallComputesDecrypt := by
  intro s hInv hb hturns
  by_cases hshort : s.inLen < 16
  · rw [if_pos hshort, decryptFn_short _ _ _ (by rwa [Memory.length_bytes])]
    exact ⟨_, run_succ 0 (step_decrypt_short hInv.lenw hb hturns hshort), rfl, hshort, rfl, rfl, rfl⟩
  obtain ⟨n, hlen⟩ : ∃ n, s.inLen = n + 16 := ⟨_, (Nat.sub_add_cancel (Nat.le_of_not_lt hshort)).symm⟩
  obtain ⟨-, hinLen, -⟩ := hInv.widths
  have hroom : n ≤ 2 ^ s.params.lenw := by omega
  rw [if_neg hshort, hlen, Nat.add_sub_cancel, decryptFn_bytes, Nat.add_comm 1,
    run_succ _ (step_decrypt_long hInv.lenw hb hturns hlen), callSteps_eq]
  generalize hd : decData _ _ = d
  have hlength : d.2.length = n := by rw [← hd, length_decData, Memory.length_bytes]
  obtain ⟨hbytes, hothers, hwf⟩ := Memory.write_result (a := 0) (hInv.memWf .out) hlength
  obtain ⟨T, hT, hrun⟩ := runsTo_tagvfyDue (s := decryptStarted s n)
    ⟨hInv.lenw, rfl⟩ rfl rfl ⟨rfl, rfl, rfl⟩ (Nat.le_of_add_right_le hlen.ge) hroom hd
  refine hrun.exec (i := .tagvfy) ⟨hInv.lenw, rfl⟩ rfl fun tr => ?_
  obtain ⟨t, hexec, hequal, hdiffers⟩ := tagvfyDecidesTheCall
    { tagvfyDue (decryptStarted s n) T d.2 with trace := tr } T rfl hlen.ge hroom rfl hwf
  refine ⟨t, hexec, ?_⟩
  by_cases htag : finishCall (s.key.bytes 0 16) d.1 = s.inp.bytes n 16
  case pos =>
    have ht := hequal (hT.trans htag)
    have hout : t.out = s.out.write 0 d.2 := congrArg State.out ht
    rw [if_pos htag, hout]
    exact ⟨congrArg State.phase ht, congrArg State.result ht, congrArg State.outLen ht, hbytes,
      fun a ha => hothers a (.inr (by omega))⟩
  case neg =>
    obtain ⟨ht, -⟩ := hdiffers fun h => htag (hT.symm.trans h)
    rw [if_neg htag]
    exact ⟨congrArg State.phase ht, congrArg State.result ht, congrArg State.outLen ht⟩

end Sys2Proof.Machine
end

section
/-! The round trip between instructions and control words (R91 to R94): both directions, then the rows of the opcode map. -/

namespace Sys2Proof.Machine

/-- Settles O1: a well-formed instruction is one of the finitely many legal ones. -/
theorem decodeOfEncode : Obligations.DecodeOfEncode :=
  fun i h => decode_encode_of_mem i (mem_legalInstrs_of_wellFormed h)

/-- Settles O2, unit by unit. -/
theorem encodeOfDecode : Obligations.EncodeOfDecode :=
  fun _ _ h => encodesAs_of_decode h

/-- Settles O3: each row's word is the word `encode` gives for its instruction. -/
theorem opcodeMapDecodes : Obligations.OpcodeMapDecodes := by
  refine ⟨fun c hc => decodeOfEncode (.addc c) (List.contains_iff_mem.2 hc), rfl, rfl,
    fun c hc => decodeOfEncode (.round c) (List.contains_iff_mem.2 hc), rfl, rfl,
    fun n hn => decodeOfEncode (.load n) (decide_eq_true hn), fun n hn => decodeOfEncode (.store n) (decide_eq_true hn),
    fun n hn => decodeOfEncode (.keep n) (decide_eq_true hn), fun n hn => decodeOfEncode (.pad n) (decide_eq_true hn), ?_⟩
  exact ⟨rfl, rfl, rfl, rfl, rfl, rfl, rfl, rfl, rfl, rfl, rfl, rfl, rfl⟩

end Sys2Proof.Machine
end

section
/-! One step (R12, R23): the state a fetch leaves, what runs on it, and the engine's own turn. -/

namespace Sys2Proof.Machine

variable {s s' t : State} {cw : BitVec 16} {i : Instr} {rest : List Turn}

/-- A fetch takes the turn and changes nothing else. -/
theorem fetch_eq_some (h : fetch s = some (cw, s')) : s' = { s with turns := s.turns.tail } := by
  unfold fetch at h
  split at h
  · next hl =>
    obtain ⟨w, -, heq⟩ := Option.map_eq_some_iff.1 h
    cases heq
    rw [hl, List.tail_nil, ← hl]
  · next hl =>
    obtain ⟨w, -, heq⟩ := Option.map_eq_some_iff.1 h
    cases heq
    rw [hl, List.tail_cons]
  · next hl => cases h; rw [hl, List.tail_cons]
  · next hl =>
    split at h
    · cases h; rw [hl, List.tail_cons]
    · cases h
  · cases h

/-- A word that decodes is run on the state the fetch leaves. -/
theorem step_of_fetch (hp : 20 ≤ s.params.lenw) (hf : fetch s = some (cw, s')) (hd : decode cw = .ok i) :
    step s = exec i s' := by
  simp only [step_legal hp, hf, hd]

/-- Settles O5: the word due decides the step, and a fetch takes its turn only. -/
theorem stepRunsDecodedInstruction : Obligations.StepRunsDecodedInstruction :=
  ⟨fun _ _ _ _ hp hf hd => ⟨step_of_fetch hp hf hd, fetch_eq_some hf⟩, fun _ => step_illegalParameter⟩

/-- On the engine's turn the enabled controller step runs. -/
theorem step_engine_some (hp : 20 ≤ s.params.lenw) (h : s.turns = [] ∧ rest = [] ∨ s.turns = .engine :: rest)
    (hn : nextStep s = some i) : step s = exec i { s with turns := rest } := by
  rw [step_engine hp h, hn]

/-- Outside a call the engine waits (R281). -/
theorem step_engine_idle (hp : 20 ≤ s.params.lenw) (h : s.turns = [] ∧ rest = [] ∨ s.turns = .engine :: rest)
    (hb : busy s.phase = false) : step s = .next { s with turns := rest } := by
  rw [step_engine hp h, nextStep_eq_none.2 hb]

/-- Settles O6, by what the sequencer selects. -/
theorem engineTurnRunsSequencerStep : Obligations.EngineTurnRunsSequencerStep :=
  fun _ _ hp h => ⟨fun _ hn => step_engine_some hp h hn, step_engine_idle hp h⟩

end Sys2Proof.Machine
end

section
/-! Which controller step is enabled (R24, R96, R160): an enabled step is never refused, any other always is. -/

namespace Sys2Proof.Machine

variable {s : State} {r : Refusal} {i : Instr}

/-! ### Past the enabling check nothing is refused -/

theorem next_ne_refused {t : State} : (.next t : StepOutcome) ≠ .refused r := nofun

theorem readSponge_ne_refused {k : Sponge → StepOutcome} (hk : ∀ S, k S ≠ .refused r) : readSponge s k ≠ .refused r := by
  unfold readSponge
  split
  · exact hk _
  · nofun

theorem readKey_ne_refused {k : Word → Word → StepOutcome} (hk : ∀ a b, k a b ≠ .refused r) :
    readKey s k ≠ .refused r := by
  unfold readKey
  split
  · exact hk _ _
  · nofun

theorem memRead_ne_refused {sp : Space} {a n : Nat} {k : List Byte → StepOutcome} (hk : ∀ bs, k bs ≠ .refused r) :
    memRead sp a n s k ≠ .refused r := by
  unfold memRead
  split
  · exact hk _
  · nofun

theorem memWriteOut_ne_refused {a : Nat} {bs : List Byte} {k : State → StepOutcome} (hk : ∀ u, k u ≠ .refused r) :
    memWriteOut a bs s k ≠ .refused r := by
  unfold memWriteOut
  split
  · exact hk _
  · nofun

theorem spoilOut_ne_refused {k : State → StepOutcome} (hk : ∀ u, k u ≠ .refused r) : spoilOut s k ≠ .refused r := by
  unfold spoilOut
  split
  · exact memWriteOut_ne_refused hk
  · exact hk _

theorem exec_ne_refused_of_nextStep (hn : nextStep s = some i) : exec i s ≠ .refused r := by
  have hl := nextStep_layer hn
  cases i with
  | init =>
    rw [exec, execInit, whenEnabled_enabled hn]
    exact memRead_ne_refused fun _ => memRead_ne_refused fun _ => memRead_ne_refused fun _ => memRead_ne_refused
      fun _ => next_ne_refused
  | adblk =>
    rw [exec, execAdblk, whenEnabled_enabled hn]
    exact readSponge_ne_refused fun _ => memRead_ne_refused fun _ => next_ne_refused
  | adfin =>
    rw [exec, execAdfin, whenEnabled_enabled hn]
    exact readSponge_ne_refused fun _ => memRead_ne_refused fun _ => next_ne_refused
  | domsep =>
    rw [exec, execDomsep, whenEnabled_enabled hn]
    exact readSponge_ne_refused fun _ => next_ne_refused
  | final =>
    rw [exec, execFinal, whenEnabled_enabled hn]
    exact readSponge_ne_refused fun _ => readKey_ne_refused fun _ _ => next_ne_refused
  | encblk =>
    rw [exec, execEncblk, whenEnabled_enabled hn]
    exact readSponge_ne_refused fun _ => memRead_ne_refused fun _ => memWriteOut_ne_refused fun _ => next_ne_refused
  | encfin =>
    rw [exec, execEncfin, whenEnabled_enabled hn]
    exact readSponge_ne_refused fun _ => memRead_ne_refused fun _ => memWriteOut_ne_refused fun _ => next_ne_refused
  | tagout =>
    rw [exec, execTagout, whenEnabled_enabled hn]
    exact readSponge_ne_refused fun _ => memWriteOut_ne_refused fun _ => memWriteOut_ne_refused fun _ => next_ne_refused
  | decblk =>
    rw [exec, execDecblk, whenEnabled_enabled hn]
    exact readSponge_ne_refused fun _ => memRead_ne_refused fun _ => memWriteOut_ne_refused fun _ => next_ne_refused
  | decfin =>
    rw [exec, execDecfin, whenEnabled_enabled hn]
    exact readSponge_ne_refused fun _ => memRead_ne_refused fun _ => memWriteOut_ne_refused fun _ => next_ne_refused
  | tagvfy =>
    rw [exec, execTagvfy, whenEnabled_enabled hn]
    refine readSponge_ne_refused fun _ => memRead_ne_refused fun _ => ?_
    dsimp only
    split
    · exact next_ne_refused
    · exact spoilOut_ne_refused fun _ => next_ne_refused
  | addc | subst | ldiff | round | p6 | p12 | load | store | keep | pad | encrypt | decrypt => cases hl

/-! ### The obligations -/

/-- A controller step is refused exactly where the sequencer selects another, or none. -/
theorem exec_eq_notEnabled_iff (hl : i.layer = .controllerStep) :
    exec i s = .refused .notEnabled ↔ ¬ nextStep s = some i := by
  refine ⟨fun h hn => exec_ne_refused_of_nextStep hn h, fun hn => ?_⟩
  cases i with
  | init | adblk | adfin | domsep | final | encblk | encfin | tagout | decblk | decfin | tagvfy => exact if_neg hn
  | addc | subst | ldiff | round | p6 | p12 | load | store | keep | pad | encrypt | decrypt => cases hl

/-- Settles O21: the enabling condition of each step is that the sequencer selects it. -/
theorem enablingConditions : Obligations.EnablingConditions := fun _ =>
  ⟨(exec_eq_notEnabled_iff rfl).trans (not_congr nextStep_eq_init),
    (exec_eq_notEnabled_iff rfl).trans (not_congr nextStep_eq_adblk),
    (exec_eq_notEnabled_iff rfl).trans (not_congr nextStep_eq_adfin),
    (exec_eq_notEnabled_iff rfl).trans (not_congr nextStep_eq_domsep),
    (exec_eq_notEnabled_iff rfl).trans (not_congr nextStep_eq_encblk),
    (exec_eq_notEnabled_iff rfl).trans (not_congr nextStep_eq_encfin),
    (exec_eq_notEnabled_iff rfl).trans (not_congr nextStep_eq_decblk),
    (exec_eq_notEnabled_iff rfl).trans (not_congr nextStep_eq_decfin),
    (exec_eq_notEnabled_iff rfl).trans (not_congr nextStep_eq_final),
    (exec_eq_notEnabled_iff rfl).trans (not_congr nextStep_eq_tagout),
    (exec_eq_notEnabled_iff rfl).trans (not_congr nextStep_eq_tagvfy)⟩

/-- The sequencer selects a step only during a call. -/
theorem busy_of_nextStep (hn : nextStep s = some i) : busy s.phase = true := by
  refine Bool.eq_true_of_not_eq_false fun hb => ?_
  rw [nextStep_eq_none.2 hb] at hn
  cases hn

/-- During a call the sequencer selects a step. -/
theorem exists_nextStep_of_busy (hb : busy s.phase = true) : ∃ i, nextStep s = some i := by
  refine Option.ne_none_iff_exists'.1 fun hn => ?_
  rw [nextStep_eq_none.1 hn] at hb
  cases hb

/-- Settles O20: the one step that is not refused is the one the sequencer selects. -/
theorem exactlyOneStepEnabled : Obligations.ExactlyOneStepEnabled := by
  intro s
  constructor
  · intro hb
    obtain ⟨i, hn⟩ := exists_nextStep_of_busy hb
    refine ⟨i, ⟨nextStep_layer hn, exec_ne_refused_of_nextStep hn⟩, ?_⟩
    rintro j ⟨hl, hj⟩
    rw [Ne, exec_eq_notEnabled_iff hl, not_not, hn] at hj
    exact (Option.some.inj hj).symm
  · intro hb i hl
    rw [exec_eq_notEnabled_iff hl, nextStep_eq_none.2 hb]
    nofun

end Sys2Proof.Machine
end

section
/-! What an operation changes, said once by its kind: a unit function (`exec_unitFunction`), a controller step within a call, the
two steps that end a call, the two commands. The frame statements (R51, R64, R160, R170, R251, R295) follow kind by kind. -/

namespace Sys2Proof.Machine

variable {s t : State} {i : Instr} {S : Sponge}

/-! ### Controller steps within a call -/

/-- The controller steps after which the call is still in progress: all but TAGOUT and TAGVFY (R160). -/
def staysInCall (i : Instr) : Bool :=
  decide (i.layer = .controllerStep) && decide (i ≠ .tagout) && decide (i ≠ .tagvfy)

/-- A step that stays in the call is a controller step other than the two that end it. -/
theorem staysInCall_iff : staysInCall i = true ↔ i.layer = .controllerStep ∧ i ≠ .tagout ∧ i ≠ .tagvfy := by
  simp [staysInCall, and_assoc]

/-- What a controller step within a call does: it moves the words, the key latch, the positions and PHASE, writes its bytes at
out_pos, and emits its record (R51, R64, R160). -/
structure StepInCall (i : Instr) (s t : State) : Prop where
  frame : t = { s with
    x := t.x, k0 := t.k0, k1 := t.k1, adPos := t.adPos, inPos := t.inPos, outPos := t.outPos, phase := t.phase
    out := t.out, trace := t.trace }
  busy_before : busy s.phase = true
  busy_after : busy t.phase = true
  out : ∃ bs, bs.length = (writeAddresses i s).2 ∧ t.out = s.out.write s.outPos bs
  trace : ∃ S, t.x = some S ∧
    t.trace = s.trace ++ if s.params.traceEn then [{ step := i, phase := t.phase, words := S }] else []

theorem stepInCall_emitTrace {k0 k1 : Option Word} {a n m : Nat} {p : Phase} (bs : List Byte)
    (hn : nextStep s = some i) (hp : busy p = true) (hbs : bs.length = (writeAddresses i s).2) :
    StepInCall i s (emitTrace i S { s with
      x := some S, k0 := k0, k1 := k1, adPos := a, inPos := n, outPos := m, phase := p
      out := s.out.write s.outPos bs }) where
  frame := by
    simp only [emitTrace_x, emitTrace_k0, emitTrace_k1, emitTrace_adPos, emitTrace_inPos, emitTrace_outPos,
      emitTrace_phase, emitTrace_out]
    exact emitTrace_eq _ i S
  busy_before := busy_of_nextStep hn
  busy_after := by rwa [emitTrace_phase]
  out := ⟨bs, hbs, emitTrace_out _ i S⟩
  trace := ⟨S, emitTrace_x _ i S, by rw [emitTrace_trace, emitTrace_phase]⟩

/-- Every controller step but TAGOUT and TAGVFY. -/
theorem stepInCall_of_exec (hi : staysInCall i = true) (h : exec i s = .next t) : StepInCall i s t := by
  have hn := nextStep_of_exec_next (staysInCall_iff.1 hi).1 h
  cases i with
  | init =>
    obtain ⟨-, rfl⟩ := execInit_eq_next.1 h
    exact stepInCall_emitTrace [] hn (by split <;> rfl) rfl
  | adblk =>
    obtain ⟨⟨hp, -⟩, S, -, -, rfl⟩ := execAdblk_eq_next.1 h
    exact stepInCall_emitTrace [] hn (by rw [hp]; rfl) rfl
  | adfin =>
    obtain ⟨-, S, -, -, rfl⟩ := execAdfin_eq_next.1 h
    exact stepInCall_emitTrace [] hn rfl rfl
  | domsep =>
    obtain ⟨-, S, -, rfl⟩ := execDomsep_eq_next.1 h
    exact stepInCall_emitTrace [] hn rfl rfl
  | final =>
    obtain ⟨-, S, -, a, b, -, -, rfl⟩ := execFinal_eq_next.1 h
    exact stepInCall_emitTrace [] hn (by cases s.mode <;> rfl) rfl
  | encblk =>
    obtain ⟨⟨hp, -, -⟩, S, -, -, -, rfl⟩ := execEncblk_eq_next.1 h
    exact stepInCall_emitTrace _ hn (by rw [hp]; rfl) (length_store _ 8)
  | encfin =>
    obtain ⟨-, S, -, -, -, rfl⟩ := execEncfin_eq_next.1 h
    exact stepInCall_emitTrace _ hn rfl (length_store _ _)
  | decblk =>
    obtain ⟨⟨hp, -, -⟩, S, -, -, -, rfl⟩ := execDecblk_eq_next.1 h
    exact stepInCall_emitTrace _ hn (by rw [hp]; rfl) (length_store _ 8)
  | decfin =>
    obtain ⟨-, S, -, -, -, rfl⟩ := execDecfin_eq_next.1 h
    exact stepInCall_emitTrace _ hn rfl (length_store _ _)
  | tagout | tagvfy | addc | subst | ldiff | round | p6 | p12 | load | store | keep | pad | encrypt | decrypt => cases hi

/-- The kinds of operation, by what they change. -/
theorem instr_kinds (i : Instr) :
    i.layer = .unitFunction ∨ staysInCall i = true ∨ i = .tagout ∨ i = .tagvfy ∨ i = .encrypt ∨ i = .decrypt := by
  cases i with
  | addc | subst | ldiff | round | p6 | p12 | load | store | keep | pad => exact .inl rfl
  | init | adblk | adfin | domsep | final | encblk | encfin | decblk | decfin => exact .inr (.inl rfl)
  | tagout | tagvfy | encrypt | decrypt => simp

/-! ### Phases (R160) -/

theorem busy_eq_false_iff {p : Phase} : busy p = false ↔ p = .idle ∨ p = .done := by
  cases p <;> simp [busy]

/-- Settles O22, operation by operation, from what each requires and answers. -/
theorem phaseTransitions : Obligations.PhaseTransitions := by
  intro s t i h
  cases i with
  | addc | subst | ldiff | round | p6 | p12 | load | store | keep | pad =>
    obtain ⟨x, p, rfl, -⟩ := exec_unitFunction rfl h
    rfl
  | init =>
    obtain ⟨hp, rfl⟩ := execInit_eq_next.1 h
    simp only [emitTrace_phase]
    exact ⟨hp, fun hlen => if_pos hlen, fun hlen => if_neg hlen.not_gt⟩
  | adblk =>
    obtain ⟨⟨hp, -⟩, S, -, -, rfl⟩ := execAdblk_eq_next.1 h
    simp only [emitTrace_phase, hp, and_self]
  | adfin =>
    obtain ⟨⟨hp, -⟩, S, -, -, rfl⟩ := execAdfin_eq_next.1 h
    simp only [emitTrace_phase, hp, and_self]
  | domsep =>
    obtain ⟨hp, S, -, rfl⟩ := execDomsep_eq_next.1 h
    simp only [emitTrace_phase, hp, and_self]
  | final =>
    obtain ⟨hp, S, -, a, b, -, -, rfl⟩ := execFinal_eq_next.1 h
    simp only [emitTrace_phase]
    exact ⟨hp, fun hm => hm ▸ rfl, fun hm => hm ▸ rfl⟩
  | encblk =>
    obtain ⟨⟨hp, -⟩, S, -, -, -, rfl⟩ := execEncblk_eq_next.1 h
    simp only [emitTrace_phase, hp, and_self]
  | encfin =>
    obtain ⟨⟨hp, -⟩, S, -, -, -, rfl⟩ := execEncfin_eq_next.1 h
    simp only [emitTrace_phase, hp, and_self]
  | tagout =>
    obtain ⟨hp, S, -, -, rfl⟩ := execTagout_eq_next.1 h
    simp only [emitTrace_phase, emitTrace_result, endCall_phase, endCall_result, succeed_phase, succeed_result, hp,
      and_self]
  | decblk =>
    obtain ⟨⟨hp, -⟩, S, -, -, -, rfl⟩ := execDecblk_eq_next.1 h
    simp only [emitTrace_phase, hp, and_self]
  | decfin =>
    obtain ⟨⟨hp, -⟩, S, -, -, -, rfl⟩ := execDecfin_eq_next.1 h
    simp only [emitTrace_phase, hp, and_self]
  | tagvfy =>
    obtain ⟨hp, S, -, -, ⟨-, rfl⟩ | ⟨-, -, rfl⟩⟩ := execTagvfy_eq_next.1 h
    · simp only [emitTrace_phase, emitTrace_result, endCall_phase, endCall_result, succeed_phase, succeed_result]
      exact ⟨hp, trivial, .inl trivial⟩
    · simp only [emitTrace_phase, emitTrace_result, raise_phase, raise_result]
      exact ⟨hp, trivial, .inr rfl⟩
  | encrypt =>
    obtain ⟨hb, -, rfl⟩ := execEncrypt_eq_next.1 h
    exact ⟨busy_eq_false_iff.1 hb, rfl⟩
  | decrypt =>
    obtain ⟨hb, rfl⟩ := execDecrypt_eq_next.1 h
    refine ⟨busy_eq_false_iff.1 hb, fun hlen => ?_, fun hlen => ?_⟩
    · rw [if_neg hlen.not_gt]
    · rw [if_pos hlen]
      exact ⟨rfl, rfl⟩

/-! ### Frames (R51, R64, R170, R251) -/

/-- A controller step emits one record under TRACE_EN = 1 (R51); the last two show the words as the call ended. -/
theorem trace_of_controllerStep (hl : i.layer = .controllerStep) (h : exec i s = .next t) :
    ∃ S, (t.trace = s.trace ++ if s.params.traceEn then [{ step := i, phase := t.phase, words := S }] else []) ∧
      (t.x = some S ∨ (t.x = none ∧ s.x = some S)) := by
  rcases instr_kinds i with hu | hi | rfl | rfl | rfl | rfl
  · rw [hl] at hu; cases hu
  · obtain ⟨S, hx, htrace⟩ := (stepInCall_of_exec hi h).trace
    exact ⟨S, htrace, .inl hx⟩
  · obtain ⟨-, S, hS, -, rfl⟩ := execTagout_eq_next.1 h
    exact ⟨S, by rw [emitTrace_trace, emitTrace_phase]; rfl, .inr ⟨by simp, hS⟩⟩
  · obtain ⟨-, S, hS, -, ⟨-, rfl⟩ | ⟨-, -, rfl⟩⟩ := execTagvfy_eq_next.1 h <;>
      exact ⟨S, by rw [emitTrace_trace, emitTrace_phase]; rfl, .inr ⟨by simp, hS⟩⟩
  · cases hl
  · cases hl

/-- Any other operation emits none. -/
theorem trace_of_not_controllerStep (hl : i.layer ≠ .controllerStep) (h : exec i s = .next t) : t.trace = s.trace := by
  rcases instr_kinds i with hu | hi | rfl | rfl | rfl | rfl
  · obtain ⟨x, p, rfl, -⟩ := exec_unitFunction hu h
    rfl
  · exact absurd (staysInCall_iff.1 hi).1 hl
  · exact absurd rfl hl
  · exact absurd rfl hl
  · obtain ⟨-, -, rfl⟩ := execEncrypt_eq_next.1 h
    rfl
  · obtain ⟨-, rfl⟩ := execDecrypt_eq_next.1 h
    split <;> rfl

/-- Settles O48, by whether the operation is a controller step. -/
theorem traceShowsControllerStepsOnly : Obligations.TraceShowsControllerStepsOnly := by
  intro s t i h
  by_cases hl : i.layer = .controllerStep
  · obtain ⟨S, htrace, hx⟩ := trace_of_controllerStep hl h
    refine ⟨fun hoff => ?_, fun hon _ => ⟨S, by rw [htrace, if_pos hon], hx⟩⟩
    have hoff' : s.params.traceEn = false := hoff.resolve_right (not_not.2 hl)
    rw [htrace, hoff', if_neg Bool.false_ne_true, List.append_nil]
  · exact ⟨fun _ => trace_of_not_controllerStep hl h, fun _ hl' => absurd hl' hl⟩

/-- Within a call and at its start the marks stay (R292). -/
theorem outAny_of_exec (hout : i ≠ .tagout) (hvfy : i ≠ .tagvfy) (h : exec i s = .next t) : t.outAny = s.outAny := by
  rcases instr_kinds i with hu | hi | rfl | rfl | rfl | rfl
  · obtain ⟨x, p, rfl, -⟩ := exec_unitFunction hu h
    rfl
  · rw [(stepInCall_of_exec hi h).frame]
  · exact absurd rfl hout
  · exact absurd rfl hvfy
  · obtain ⟨-, -, rfl⟩ := execEncrypt_eq_next.1 h
    rfl
  · obtain ⟨-, rfl⟩ := execDecrypt_eq_next.1 h
    split <;> rfl

/-- Settles O45: only the ends of a call, by success or mismatch, and a reset during one touch the marks. -/
theorem outMarksFollowTheCall : Obligations.OutMarksFollowTheCall := by
  refine ⟨fun s t i a h => ?exec, fun s t rest a hturns h => ?reset⟩
  case exec =>
    by_cases hout : i = .tagout
    · subst hout
      obtain ⟨-, S, -, -, rfl⟩ := execTagout_eq_next.1 h
      simp [mem_clearOut, and_comm]
    by_cases hvfy : i = .tagvfy
    · subst hvfy
      obtain ⟨-, S, -, -, ⟨-, rfl⟩ | ⟨-, -, rfl⟩⟩ := execTagvfy_eq_next.1 h
      · simp [mem_clearOut, and_comm]
      · simp [mem_markOut, or_comm, causeResult]
    simp [outAny_of_exec hout hvfy h, hout, hvfy]
  case reset =>
    have hp := lenw_of_step h
    rw [step_hostAct hp hturns nofun nofun, hostAct] at h
    obtain rfl := Host.Outcome.next.inj h
    by_cases hb : busy s.phase = true
    · simp [hb, mem_markOut, or_comm]
    · simp [hb]

/-- STATUS in DONE (R42). -/
theorem status_done (hp : s.phase = .done) :
    (s.result = .ok → status s = 0x0006) ∧ (s.result = .structErr → status s = 0x000a) ∧
      (s.result = .authFail → status s = 0x000e) := by
  obtain ⟨-, -, -, -, -, -, hdone, -⟩ := statusFields s
  exact hdone hp

/-- STATUS in IDLE (R42). -/
theorem status_idle (hp : s.phase = .idle) (hr : s.result = .none) : status s = 0 := by
  obtain ⟨-, -, -, -, -, hidle, -⟩ := statusFields s
  exact hidle hp hr

/-- Settles O46: an operation that ends a call is TAGOUT, TAGVFY or a DECRYPT that raises STRUCT_ERR. -/
theorem endedCallsHoldNoValue : Obligations.EndedCallsHoldNoValue := by
  intro s t i h hdone hstart
  obtain ⟨hok, hstruct, hauth⟩ := status_done hdone
  rcases instr_kinds i with hu | hi | rfl | rfl | rfl | rfl
  · obtain ⟨x, p, rfl, -⟩ := exec_unitFunction hu h
    rcases hstart with hne | rfl
    · exact absurd hdone hne
    · cases hu
  · exact absurd ⟨(stepInCall_of_exec hi h).busy_after, hdone⟩ (not_busy_and_done t.phase)
  · obtain ⟨-, S, -, -, rfl⟩ := execTagout_eq_next.1 h
    exact ⟨by simp, by simp, by simp, by simp, .inl ⟨by simp, hok (by simp)⟩⟩
  · obtain ⟨-, S, -, -, ⟨-, rfl⟩ | ⟨-, -, rfl⟩⟩ := execTagvfy_eq_next.1 h
    · exact ⟨by simp, by simp, by simp, by simp, .inl ⟨by simp, hok (by simp)⟩⟩
    · exact ⟨by simp, by simp, by simp, by simp,
        .inr (.inr ⟨by simp [causeResult], hauth (by simp [causeResult]), by simp⟩)⟩
  · obtain ⟨-, -, rfl⟩ := execEncrypt_eq_next.1 h
    cases hdone
  · obtain ⟨-, rfl⟩ := execDecrypt_eq_next.1 h
    split at hdone
    · next hlen =>
      rw [if_pos hlen] at hstruct ⊢
      exact ⟨rfl, rfl, rfl, rfl, .inr (.inl ⟨rfl, hstruct rfl, rfl⟩)⟩
    · cases hdone

/-- Settles O49, kind by kind. -/
theorem operationsWriteOnlyOut : Obligations.OperationsWriteOnlyOut := by
  intro s t i h
  rcases instr_kinds i with hu | hi | rfl | rfl | rfl | rfl
  · obtain ⟨x, p, rfl, -⟩ := exec_unitFunction hu h
    exact ⟨⟨rfl, rfl, rfl, rfl, rfl, rfl, rfl, rfl, rfl, rfl⟩, fun _ _ _ => rfl⟩
  · obtain ⟨hframe, -, -, ⟨bs, hlen, hout⟩, -⟩ := stepInCall_of_exec hi h
    refine ⟨?_, fun a ha _ => ?_⟩
    · rw [hframe]
      simp
    · have haddr : (writeAddresses i s).1 = s.outPos := by cases i <;> rfl
      rw [haddr, ← hlen] at ha
      rw [hout, Memory.get_write_outside bs ha]
  · obtain ⟨-, S, -, -, rfl⟩ := execTagout_eq_next.1 h
    refine ⟨by simp, fun a ha _ => ?_⟩
    simp only [writeAddresses] at ha
    simp only [emitTrace_out, endCall_out, succeed_out]
    rw [Memory.get_write_outside _ (by rw [length_store]; omega), Memory.get_write_outside _ (by rw [length_store]; omega)]
  · obtain ⟨-, S, -, -, ⟨-, rfl⟩ | ⟨-, -, rfl⟩⟩ := execTagvfy_eq_next.1 h
    · simp
    · refine ⟨by simp, fun a _ ha => ?_⟩
      rw [emitTrace_out, raise_out]
      split
      · next hz =>
        have hout : ¬ a < s.mLen := fun hlt => ha ⟨rfl, hz, by simp [causeResult], hlt⟩
        exact Memory.get_write_outside _ (.inr (by rw [List.length_replicate]; omega))
      · rfl
  · obtain ⟨-, -, rfl⟩ := execEncrypt_eq_next.1 h
    exact ⟨⟨rfl, rfl, rfl, rfl, rfl, rfl, rfl, rfl, rfl, rfl⟩, fun _ _ _ => rfl⟩
  · obtain ⟨-, rfl⟩ := execDecrypt_eq_next.1 h
    split <;> exact ⟨⟨rfl, rfl, rfl, rfl, rfl, rfl, rfl, rfl, rfl, rfl⟩, fun _ _ _ => rfl⟩

/-! ### Leaving BUSY (R295) -/

/-- Of the operations, only TAGOUT and TAGVFY leave BUSY. -/
theorem endsCall_of_exec (h : exec i s = .next t) (hs : busy s.phase = true) (ht : busy t.phase = false) :
    (i = .tagout ∨ i = .tagvfy) ∧ t.phase = .done := by
  have hphase := phaseTransitions s t i h
  rcases instr_kinds i with hu | hi | rfl | rfl | rfl | rfl
  · obtain ⟨x, p, rfl, -⟩ := exec_unitFunction hu h
    rw [hs] at ht
    cases ht
  · rw [(stepInCall_of_exec hi h).busy_after] at ht
    cases ht
  · obtain ⟨-, hdone, -⟩ := hphase
    exact ⟨.inl rfl, hdone⟩
  · obtain ⟨-, hdone, -⟩ := hphase
    exact ⟨.inr rfl, hdone⟩
  · rw [(execEncrypt_eq_next.1 h).1] at hs
    cases hs
  · rw [(execDecrypt_eq_next.1 h).1] at hs
    cases hs

/-- Of the host's actions, only reset leaves BUSY. -/
theorem reset_of_hostAct {act : HostAct} (h : hostAct act s = .next t) (hs : busy s.phase = true)
    (ht : busy t.phase = false) : act = .reset ∧ t.phase = .idle := by
  rcases hostAct_eq_next h with ⟨v, rfl⟩ | ⟨v, hb, -⟩ | ⟨v, hb, -⟩ | ⟨sp, a, b, l, hb, -⟩ | ⟨hact, rfl⟩
  · rw [hs] at ht
    cases ht
  · rw [hs] at hb
    cases hb
  · rw [hs] at hb
    cases hb
  · rw [hs] at hb
    cases hb
  · exact ⟨hact, rfl⟩

/-- During a call the engine's turn always has a word to run. -/
theorem fetch_engine_ne_none (hs : busy s.phase = true) (hl : s.turns = [] ∨ ∃ rest, s.turns = .engine :: rest) :
    fetch s ≠ none := by
  obtain ⟨i, hn⟩ := exists_nextStep_of_busy hs
  rcases hl with hl | ⟨rest, hl⟩ <;> simp [fetch, hl, sequencerWord, hn]

/-- Settles O47: a word that is run is TAGOUT's or TAGVFY's; with no word to run it is the host's turn. -/
theorem onlyResetEndsACallEarly : Obligations.OnlyResetEndsACallEarly := by
  intro s t hs h ht
  rw [step_legal (lenw_of_step h)] at h
  cases hf : fetch s with
  | some w =>
    obtain ⟨cw, s'⟩ := w
    have hs' : busy s'.phase = true := by rw [fetch_eq_some hf]; exact hs
    rw [hf] at h
    cases hd : decode cw with
    | error why => simp only [hd] at h; cases h
    | ok i =>
      simp only [hd] at h
      obtain ⟨hi, hdone⟩ := endsCall_of_exec h hs' ht
      rcases hi with rfl | rfl
      · exact .inr ⟨cw, s', rfl, .inl hd, hdone⟩
      · exact .inr ⟨cw, s', rfl, .inr hd, hdone⟩
  | none =>
    simp only [hf] at h
    unfold otherTurn at h
    split at h
    · next hl => exact absurd hf (fetch_engine_ne_none hs (.inl hl))
    · next rest hl => exact absurd hf (fetch_engine_ne_none hs (.inr ⟨rest, hl⟩))
    · next cw rest hl => simp [fetch, hl] at hf
    · next act rest hl =>
      obtain ⟨rfl, hidle⟩ := reset_of_hostAct h hs ht
      exact .inl ⟨rest, hl, hidle⟩

end Sys2Proof.Machine
end

section
/-! The invariant (R20 to R30, R61, R160): the reset state meets it, and every operation, host action and wait keeps it. -/

namespace Sys2Proof.Machine

variable {s t : State} {i : Instr} {S : Sponge}

/-- Settles O50, clause by clause. -/
theorem resetMeetsInvariant : Obligations.ResetMeetsInvariant where
  lenw := by decide
  memWf := fun sp => by cases sp <;> rfl
  memBelow := fun sp => by cases sp <;> rfl
  widths := by decide
  words := rfl
  keys := ⟨rfl, rfl⟩
  diff := rfl
  lengths := fun hb => nomatch hb
  positions := ⟨rfl, rfl⟩
  outAny := .nil

/-! ### What the invariant does not look at -/

/-- The trace and the fields that are the harness's and the host's own do not matter. -/
theorem State.Inv.auxiliary (h : s.Inv) (tr : List TraceRecord) (p : CodecPort) (l : List Turn) (v f : Nat) :
    State.Inv { s with trace := tr, port := p, turns := l, readData := v, freeCtr := f } :=
  { h with lengths := fun hb => { h.lengths hb with } }

theorem State.Inv.emitTrace (h : s.Inv) (i : Instr) (S : Sponge) : (emitTrace i S s).Inv := by
  rw [emitTrace_eq]
  exact h.auxiliary _ s.port s.turns s.readData s.freeCtr

/-! ### Contents of OUT -/

/-- A content OUT can have: canonical and inside the address range (R61). -/
def OutFits (s : State) (m : Memory) : Prop := m.wf = true ∧ m.below (2 ^ s.params.lenw) = true

theorem State.Inv.outFits (h : s.Inv) : OutFits s s.out := ⟨h.memWf .out, h.memBelow .out⟩

theorem OutFits.write {m : Memory} (h : OutFits s m) {a : Nat} {bs : List Byte}
    (ha : a + bs.length ≤ 2 ^ s.params.lenw) : OutFits s (m.write a bs) :=
  ⟨Memory.wf_write a bs h.1, Memory.all_write h.2 fun _ _ _ hk => decide_eq_true (hk.trans_le ha)⟩

theorem OutFits.spoiled (h : s.Inv) : OutFits s (spoiled s) := by
  obtain ⟨-, -, -, hmLen, -⟩ := h.widths
  unfold Machine.spoiled
  split
  · exact h.outFits.write (by rw [List.length_replicate]; omega)
  · exact h.outFits

/-- OUT may be given any content it can have, and any set of marks. -/
theorem State.Inv.withOut (h : s.Inv) {m : Memory} (hm : OutFits s m) {l : List Nat} (hl : l.Pairwise (· < ·)) :
    State.Inv { s with out := m, outAny := l } :=
  { h with
    memWf := fun
      | .out => hm.1
      | .key => h.memWf .key
      | .nonce => h.memWf .nonce
      | .ad => h.memWf .ad
      | .inp => h.memWf .inp
    memBelow := fun
      | .out => hm.2
      | .key => h.memBelow .key
      | .nonce => h.memBelow .nonce
      | .ad => h.memBelow .ad
      | .inp => h.memBelow .inp
    lengths := fun hb => { h.lengths hb with }
    outAny := hl }

/-! ### Where the positions stand, phase by phase (R25, R63, R163) -/

theorem positionsFit_init (hp : s.phase = .init) : s.positionsFit ↔ s.adPos = 0 ∧ s.inPos = 0 ∧ s.outPos = 0 := by
  simp only [State.positionsFit, hp]

theorem positionsFit_absorbAd (hp : s.phase = .absorbAd) :
    s.positionsFit ↔ 0 < s.adLen ∧ s.adPos % 8 = 0 ∧ s.inPos = 0 ∧ s.outPos = 0 := by
  simp only [State.positionsFit, hp]

theorem positionsFit_domsep (hp : s.phase = .domsep) :
    s.positionsFit ↔ s.adPos = s.adLen ∧ s.inPos = 0 ∧ s.outPos = 0 := by
  simp only [State.positionsFit, hp]

theorem positionsFit_process (hp : s.phase = .process) :
    s.positionsFit ↔ s.adPos = s.adLen ∧ s.inPos % 8 = 0 ∧ s.outPos = s.inPos := by
  simp only [State.positionsFit, hp]

theorem positionsFit_finalize (hp : s.phase = .finalize) :
    s.positionsFit ↔ s.adPos = s.adLen ∧ s.inPos = s.mLen ∧ s.outPos = s.mLen := by
  simp only [State.positionsFit, hp]

theorem positionsFit_emitTag (hp : s.phase = .emitTag) :
    s.positionsFit ↔ s.mode = .enc ∧ s.adPos = s.adLen ∧ s.inPos = s.mLen ∧ s.outPos = s.mLen := by
  simp only [State.positionsFit, hp]

theorem positionsFit_verifyTag (hp : s.phase = .verifyTag) :
    s.positionsFit ↔ s.mode = .dec ∧ s.adPos = s.adLen ∧ s.inPos = s.mLen ∧ s.outPos = s.mLen := by
  simp only [State.positionsFit, hp]

/-! ### A call goes on -/

/-- During a call OUT is never written ahead of IN, nor IN read past the message (R25, R63). -/
theorem State.positionsFit.outPos_le (h : s.positionsFit) (hb : busy s.phase = true) (hin : s.inPos ≤ s.mLen) :
    s.outPos ≤ s.mLen := by
  unfold State.positionsFit at h
  cases hp : s.phase with
  | idle | done => rw [hp] at hb; cases hb
  | init | absorbAd | domsep | process | finalize | emitTag | verifyTag => simp only [hp] at h; omega

/-- A call in progress stays inside the invariant when a step moves the words, the positions, PHASE and OUT as the phase it
reaches asks for. -/
theorem State.Inv.advance (h : s.Inv) (hb : busy s.phase = true) {x : Option Sponge} {k0 k1 : Option Word} {p : Phase}
    {a n m : Nat} {out : Memory} (hp : busy p = true) (hx : x.isSome = holdsWords p)
    (hk : k0.isSome = holdsWords p ∧ k1.isSome = holdsWords p) (ha : a ≤ s.adLen) (hn : n ≤ s.mLen) (hout : OutFits s out)
    (hpos : State.positionsFit { s with
      x := x, k0 := k0, k1 := k1, phase := p, adPos := a, inPos := n, outPos := m, out := out }) :
    State.Inv { s with
      x := x, k0 := k0, k1 := k1, phase := p, adPos := a, inPos := n, outPos := m, out := out } := by
  obtain ⟨had, hil, hol, hml, -, -, -⟩ := h.widths
  have hm : m ≤ s.mLen := hpos.outPos_le hp hn
  exact { h.withOut hout h.outAny with
    widths := ⟨had, hil, hol, hml, ha.trans_lt had, hn.trans_lt hml, hm.trans_lt hml⟩
    words := hx
    keys := hk
    lengths := fun _ => { h.lengths hb with adPos_le := ha, inPos_le := hn }
    positions := hpos }

theorem busy_of_holdsWords {p : Phase} (h : holdsWords p = true) : busy p = true := by
  cases p with
  | idle | init | done => cases h
  | absorbAd | domsep | process | finalize | emitTag | verifyTag => rfl

/-- The steps after INIT: the key latch stays and the words take new values. -/
theorem State.Inv.advanceWords (h : s.Inv) (hs : holdsWords s.phase = true) {p : Phase} {a n m : Nat} {out : Memory}
    (hp : holdsWords p = true) (ha : a ≤ s.adLen) (hn : n ≤ s.mLen) (hout : OutFits s out)
    (hpos : State.positionsFit { s with phase := p, adPos := a, inPos := n, outPos := m, out := out }) :
    State.Inv { s with x := some S, phase := p, adPos := a, inPos := n, outPos := m, out := out } := by
  obtain ⟨hk0, hk1⟩ := h.keys
  exact h.advance (busy_of_holdsWords hs) (busy_of_holdsWords hp) hp.symm
    ⟨(hk0.trans hs).trans hp.symm, (hk1.trans hs).trans hp.symm⟩ ha hn hout hpos

/-! ### The steps within a call -/

theorem inv_of_init (h : s.Inv) (hexec : execInit s = .next t) : t.Inv := by
  obtain ⟨hp, rfl⟩ := execInit_eq_next.1 hexec
  have hb : busy s.phase = true := by rw [hp]; rfl
  have hlen := h.lengths hb
  obtain ⟨hadPos, hinPos, houtPos⟩ := (positionsFit_init hp).1 h.positions
  refine (State.Inv.advance h hb ?_ ?_ ?_ hlen.adPos_le hlen.inPos_le h.outFits ?_).emitTrace _ _
  · split <;> rfl
  · split <;> rfl
  · split <;> exact ⟨rfl, rfl⟩
  · by_cases h0 : 0 < s.adLen
    · exact (positionsFit_absorbAd (if_pos h0)).2 ⟨h0, by rw [hadPos], hinPos, houtPos⟩
    · exact (positionsFit_domsep (if_neg h0)).2 ⟨hadPos.trans (Nat.eq_zero_of_not_pos h0).symm, hinPos, houtPos⟩

theorem inv_of_adblk (h : s.Inv) (hexec : execAdblk s = .next t) : t.Inv := by
  obtain ⟨⟨hp, -⟩, S, -, hread, rfl⟩ := execAdblk_eq_next.1 hexec
  have hs : holdsWords s.phase = true := by rw [hp]; rfl
  have hlen := h.lengths (busy_of_holdsWords hs)
  obtain ⟨h0, hmod, hpos⟩ := (positionsFit_absorbAd hp).1 h.positions
  have hmod' : (s.adPos + 8) % 8 = 0 := by omega
  refine (h.advanceWords hs hs hread hlen.inPos_le h.outFits ?_).emitTrace _ _
  exact (positionsFit_absorbAd (by exact hp)).2 ⟨h0, hmod', hpos⟩

theorem inv_of_adfin (h : s.Inv) (hexec : execAdfin s = .next t) : t.Inv := by
  obtain ⟨⟨hp, -⟩, S, -, -, rfl⟩ := execAdfin_eq_next.1 hexec
  have hs : holdsWords s.phase = true := by rw [hp]; rfl
  have hlen := h.lengths (busy_of_holdsWords hs)
  have hend : s.adPos + adLeft s = s.adLen := Nat.add_sub_cancel' hlen.adPos_le
  obtain ⟨-, -, hpos⟩ := (positionsFit_absorbAd hp).1 h.positions
  exact (h.advanceWords hs rfl hend.le hlen.inPos_le h.outFits
    ((positionsFit_domsep rfl).2 ⟨hend, hpos⟩)).emitTrace _ _

theorem inv_of_domsep (h : s.Inv) (hexec : execDomsep s = .next t) : t.Inv := by
  obtain ⟨hp, S, -, rfl⟩ := execDomsep_eq_next.1 hexec
  have hs : holdsWords s.phase = true := by rw [hp]; rfl
  have hlen := h.lengths (busy_of_holdsWords hs)
  obtain ⟨hadPos, hinPos, houtPos⟩ := (positionsFit_domsep hp).1 h.positions
  refine (h.advanceWords hs rfl hlen.adPos_le hlen.inPos_le h.outFits ?_).emitTrace _ _
  exact (positionsFit_process rfl).2 ⟨hadPos, by rw [hinPos], houtPos.trans hinPos.symm⟩

theorem inv_of_final (h : s.Inv) (hexec : execFinal s = .next t) : t.Inv := by
  obtain ⟨hp, S, -, a, b, -, -, rfl⟩ := execFinal_eq_next.1 hexec
  have hs : holdsWords s.phase = true := by rw [hp]; rfl
  have hlen := h.lengths (busy_of_holdsWords hs)
  have hpos := (positionsFit_finalize hp).1 h.positions
  refine (h.advanceWords hs ?_ hlen.adPos_le hlen.inPos_le h.outFits ?_).emitTrace _ _
  · cases s.mode <;> rfl
  · cases hm : s.mode with
    | enc => exact (positionsFit_emitTag rfl).2 ⟨rfl, hpos⟩
    | dec => exact (positionsFit_verifyTag rfl).2 ⟨rfl, hpos⟩

/-- In the data phase OUT is written where IN is read, with room for the rest of the message (R63, R291). -/
theorem State.Inv.process (h : s.Inv) (hp : s.phase = .process) :
    s.inPos + inLeft s = s.mLen ∧ s.outPos = s.inPos ∧ s.mLen < 2 ^ s.params.lenw := by
  have hlen := h.lengths (by rw [hp]; rfl)
  obtain ⟨-, -, -, hmLen, -⟩ := h.widths
  obtain ⟨-, -, hpos⟩ := (positionsFit_process hp).1 h.positions
  exact ⟨Nat.add_sub_cancel' hlen.inPos_le, hpos, hmLen⟩

/-- A block of the data phase, in either direction: 8 bytes go from IN to OUT (R191, R211). -/
theorem State.Inv.block (h : s.Inv) (hp : s.phase = .process) (hleft : 8 ≤ inLeft s) (bs : List Byte)
    (hbs : bs.length = 8) :
    State.Inv { s with
      out := s.out.write s.outPos bs, x := some S, inPos := s.inPos + 8, outPos := s.outPos + 8 } := by
  have hs : holdsWords s.phase = true := by rw [hp]; rfl
  have hlen := h.lengths (busy_of_holdsWords hs)
  obtain ⟨hend, hpos, hroom⟩ := h.process hp
  obtain ⟨hadPos, hmod, -⟩ := (positionsFit_process hp).1 h.positions
  have hmod' : (s.inPos + 8) % 8 = 0 := by omega
  refine h.advanceWords hs hs hlen.adPos_le (by omega) (h.outFits.write (by omega)) ?_
  exact (positionsFit_process (by exact hp)).2 ⟨hadPos, hmod', congrArg (· + 8) hpos⟩

/-- The last bytes of the data phase, in either direction (R192, R212). -/
theorem State.Inv.lastBytes (h : s.Inv) (hp : s.phase = .process) (bs : List Byte) (hbs : bs.length = inLeft s) :
    State.Inv { s with
      out := s.out.write s.outPos bs, x := some S, inPos := s.inPos + inLeft s, outPos := s.outPos + inLeft s
      phase := .finalize } := by
  have hs : holdsWords s.phase = true := by rw [hp]; rfl
  have hlen := h.lengths (busy_of_holdsWords hs)
  obtain ⟨hend, hpos, hroom⟩ := h.process hp
  obtain ⟨hadPos, -⟩ := (positionsFit_process hp).1 h.positions
  exact h.advanceWords hs rfl hlen.adPos_le hend.le (h.outFits.write (by omega))
    ((positionsFit_finalize rfl).2 ⟨hadPos, hend, by rw [hpos, hend]⟩)

/-! ### The start and the end of a call -/

/-- The state a command leaves where a call begins (R190, R210). -/
theorem State.Inv.started (h : s.Inv) (hb : busy s.phase = false) {md : Mode} {k : Nat} (hk : k < 2 ^ s.params.lenw)
    (henc : md = .enc → k = s.inLen ∧ s.inLen + 17 ≤ 2 ^ s.params.lenw) (hdec : md = .dec → k + 16 = s.inLen) :
    State.Inv { s with
      mode := md, mLen := k, adPos := 0, inPos := 0, outPos := 0, result := .none, outLen := 0, phase := .init } := by
  have hs : holdsWords s.phase = false := by rcases busy_eq_false_iff.1 hb with hp | hp <;> rw [hp] <;> rfl
  obtain ⟨hk0, hk1⟩ := h.keys
  obtain ⟨had, hil, -⟩ := h.widths
  have hzero : 0 < 2 ^ s.params.lenw := Nat.two_pow_pos _
  exact { h with
    widths := ⟨had, hil, hzero, hk, hzero, hzero, hzero⟩
    words := h.words.trans hs
    keys := ⟨hk0.trans hs, hk1.trans hs⟩
    lengths := fun _ => ⟨Nat.zero_le _, Nat.zero_le _, henc, hdec, rfl, rfl⟩
    positions := ⟨rfl, rfl, rfl⟩ }

/-- The end of a call with the given outcome (R170, R193, R213, R247). -/
theorem State.Inv.ended (h : s.Inv) {m n : Nat} {r : ResultCode} (hm : m < 2 ^ s.params.lenw)
    (hn : n < 2 ^ s.params.lenw) (hr : r ≠ .none) (hfail : r ≠ .ok → n = 0)
    (hok : r = .ok → n = s.mLen + if s.mode = .enc then 16 else 0) :
    State.Inv { s with
      x := none, k0 := none, k1 := none, diff := none, phase := .done, result := r, outPos := m, outLen := n } := by
  obtain ⟨had, hil, -, hml, hap, hip, -⟩ := h.widths
  exact { h with
    widths := ⟨had, hil, hn, hml, hap, hip, hm⟩
    words := rfl
    keys := ⟨rfl, rfl⟩
    diff := rfl
    lengths := nofun
    positions := ⟨hr, hfail, hok⟩ }

theorem inv_of_tagout (h : s.Inv) (hexec : execTagout s = .next t) : t.Inv := by
  obtain ⟨hp, S, -, hout, rfl⟩ := execTagout_eq_next.1 hexec
  have hlen := h.lengths (by rw [hp]; rfl)
  obtain ⟨hm, -, -, houtPos⟩ := (positionsFit_emitTag hp).1 h.positions
  obtain ⟨hmLen, hroom⟩ := hlen.enc hm
  have hfits := (h.outFits.write (a := s.outPos) (bs := store S.x3 8) (by rw [length_store]; omega)).write
    (a := s.outPos + 8) (bs := store S.x4 8) (by rw [length_store]; omega)
  have hend : s.outPos + 16 < 2 ^ s.params.lenw := by omega
  have houtLen : s.outPos + 16 = s.mLen + if s.mode = .enc then 16 else 0 := by rw [houtPos, if_pos hm]
  have h' := h.withOut hfits (clearOut_pairwise (s.outPos + 16) h.outAny)
  simpa only [endCall, succeed] using
    (h'.ended (r := .ok) hend hend nofun (fun hne => absurd rfl hne) fun _ => houtLen).emitTrace .tagout S

theorem inv_of_tagvfy (h : s.Inv) (hexec : execTagvfy s = .next t) : t.Inv := by
  obtain ⟨hp, S, -, -, hcase⟩ := execTagvfy_eq_next.1 hexec
  obtain ⟨hm, -, -, houtPos⟩ := (positionsFit_verifyTag hp).1 h.positions
  obtain ⟨-, -, -, -, -, -, hop⟩ := h.widths
  rcases hcase with ⟨-, rfl⟩ | ⟨-, -, rfl⟩
  · have houtLen : s.outPos = s.mLen + if s.mode = .enc then 16 else 0 := by simp [hm, houtPos]
    exact ((h.withOut h.outFits (clearOut_pairwise s.outPos h.outAny)).ended (r := .ok) hop hop nofun
      (fun hne => absurd rfl hne) fun _ => houtLen).emitTrace _ _
  · exact ((h.withOut (OutFits.spoiled h) (markOut_pairwise s.mLen h.outAny)).ended (r := .authFail) hop
      (Nat.two_pow_pos _) nofun (fun _ => rfl) nofun).emitTrace _ _

theorem inv_of_encrypt (h : s.Inv) (hexec : execEncrypt s = .next t) : t.Inv := by
  obtain ⟨hb, hlen, rfl⟩ := execEncrypt_eq_next.1 hexec
  obtain ⟨-, hil, -⟩ := h.widths
  exact h.started hb hil (fun _ => ⟨rfl, hlen⟩) nofun

theorem inv_of_decrypt (h : s.Inv) (hexec : execDecrypt s = .next t) : t.Inv := by
  obtain ⟨hb, rfl⟩ := execDecrypt_eq_next.1 hexec
  obtain ⟨had, hil, -⟩ := h.widths
  have hzero : 0 < 2 ^ s.params.lenw := Nat.two_pow_pos _
  split
  · exact { h with
      widths := ⟨had, hil, hzero, hzero, hzero, hzero, hzero⟩
      words := rfl
      keys := ⟨rfl, rfl⟩
      diff := rfl
      lengths := nofun
      positions := ⟨nofun, fun _ => rfl, nofun⟩ }
  · exact h.started hb (by omega) nofun fun _ => by omega

/-! ### Any operation -/

theorem inv_of_unitFunction (h : s.Inv) (hl : i.layer = .unitFunction) (hexec : exec i s = .next t) : t.Inv := by
  obtain ⟨x, p, rfl, hx⟩ := exec_unitFunction hl hexec
  exact { h with
    words := hx.trans h.words
    lengths := fun hb => { h.lengths hb with } }

theorem exec_keeps_inv (h : s.Inv) (hexec : exec i s = .next t) : t.Inv := by
  cases i with
  | addc | subst | ldiff | round | p6 | p12 | load | store | keep | pad => exact inv_of_unitFunction h rfl hexec
  | init => exact inv_of_init h hexec
  | adblk => exact inv_of_adblk h hexec
  | adfin => exact inv_of_adfin h hexec
  | domsep => exact inv_of_domsep h hexec
  | final => exact inv_of_final h hexec
  | encblk =>
    obtain ⟨⟨hp, -, hleft⟩, S, -, -, -, rfl⟩ := execEncblk_eq_next.1 hexec
    exact (h.block hp hleft _ (length_store _ 8)).emitTrace _ _
  | encfin =>
    obtain ⟨⟨hp, -⟩, S, -, -, -, rfl⟩ := execEncfin_eq_next.1 hexec
    exact (h.lastBytes hp _ (length_store _ _)).emitTrace _ _
  | tagout => exact inv_of_tagout h hexec
  | decblk =>
    obtain ⟨⟨hp, -, hleft⟩, S, -, -, -, rfl⟩ := execDecblk_eq_next.1 hexec
    exact (h.block hp hleft _ (length_store _ 8)).emitTrace _ _
  | decfin =>
    obtain ⟨⟨hp, -⟩, S, -, -, -, rfl⟩ := execDecfin_eq_next.1 hexec
    exact (h.lastBytes hp _ (length_store _ _)).emitTrace _ _
  | tagvfy => exact inv_of_tagvfy h hexec
  | encrypt => exact inv_of_encrypt h hexec
  | decrypt => exact inv_of_decrypt h hexec

/-! ### The host -/

/-- The lengths may take any value that fits while no call is in progress (R43, R44). -/
theorem State.Inv.withLengths (h : s.Inv) (hb : busy s.phase = false) {a n : Nat} (ha : a < 2 ^ s.params.lenw)
    (hn : n < 2 ^ s.params.lenw) : State.Inv { s with adLen := a, inLen := n } := by
  obtain ⟨-, -, hrest⟩ := h.widths
  have hpos := h.positions
  exact { h with
    widths := ⟨ha, hn, hrest⟩
    lengths := fun hb' => by rw [hb] at hb'; cases hb'
    positions := by
      rcases busy_eq_false_iff.1 hb with hp | hp <;> simpa only [State.positionsFit, hp] using hpos }

theorem inv_of_reset (h : s.Inv) : (resetEngine s).Inv := by
  have hzero : 0 < 2 ^ s.params.lenw := Nat.two_pow_pos _
  exact { h with
    widths := ⟨hzero, hzero, hzero, hzero, hzero, hzero, hzero⟩
    words := rfl
    keys := ⟨rfl, rfl⟩
    diff := rfl
    lengths := nofun
    positions := ⟨rfl, rfl⟩
    outAny := by
      rw [resetEngine_outAny]
      split
      · exact markOut_pairwise _ h.outAny
      · exact h.outAny }

/-- One byte of a space, with any of the marks dropped, while no call is in progress (R288). -/
theorem State.Inv.writeByte (h : s.Inv) {sp : Space} {a : Nat} (b : Byte)
    (ha : a < hostSize s sp) {l : List Nat} (hl : List.Sublist l s.outAny) :
    State.Inv { setMem s sp ((mem s sp).set a b) with outAny := l } := by
  have hmem (sp' : Space) : ((mem (setMem s sp ((mem s sp).set a b)) sp').wf = true ∧
      (mem (setMem s sp ((mem s sp).set a b)) sp').below (hostSize s sp') = true) := by
    by_cases hsp : sp' = sp
    · subst hsp
      rw [mem_setMem_same]
      exact ⟨Memory.wf_set a b (h.memWf sp'), Memory.all_set (h.memBelow sp') (decide_eq_true ha)⟩
    · rw [mem_setMem_ne s sp _ hsp]
      exact ⟨h.memWf sp', h.memBelow sp'⟩
  cases sp with
  | key | nonce | ad | inp | out =>
    exact { h with
      memWf := fun sp' => (hmem sp').1
      memBelow := fun sp' => (hmem sp').2
      lengths := fun hb => { h.lengths hb with }
      outAny := h.outAny.sublist hl }

theorem hostAct_keeps_inv {act : HostAct} (h : s.Inv) (hact : hostAct act s = .next t) : t.Inv := by
  obtain ⟨hadLen, hinLen, -⟩ := h.widths
  rcases hostAct_eq_next hact with
    ⟨v, rfl⟩ | ⟨v, -, rfl⟩ | ⟨v, hb, hv, rfl | rfl⟩ | ⟨sp, a, b, l, -, ha, rfl, hl⟩ | ⟨-, rfl⟩
  · exact h.auxiliary s.trace s.port s.turns v s.freeCtr
  · exact h.auxiliary s.trace s.port s.turns v _
  · exact h.withLengths hb hv hinLen
  · exact h.withLengths hb hadLen hv
  · exact h.writeByte b ha hl
  · exact inv_of_reset h

/-- Settles O51: every turn leads to an operation, a wait or a host action, and each keeps the invariant. -/
theorem stepKeepsInvariant : Obligations.StepKeepsInvariant := by
  intro s t h hstep
  obtain ⟨-, u, rfl, ⟨i, hexec, -⟩ | ⟨-, rfl, -⟩ | ⟨act, -, -, -, hact⟩⟩ := step_cases hstep
  · exact exec_keeps_inv (h.auxiliary s.trace s.port s.turns.tail s.readData s.freeCtr) hexec
  · exact h.auxiliary s.trace s.port s.turns.tail s.readData s.freeCtr
  · exact hostAct_keeps_inv (h.auxiliary s.trace s.port s.turns.tail s.readData s.freeCtr) hact

end Sys2Proof.Machine
end

section
/-! Progress (R12, R160, R169, R242): from a state that meets the invariant the enabled step runs and brings the call one step
nearer its end, and no step faults. -/

namespace Sys2Proof.Machine

variable {s t : State} {i : Instr} {f : Fault}

/-! ### The enabled step runs -/

theorem State.Inv.exists_words (h : s.Inv) (hs : holdsWords s.phase = true) :
    ∃ S K0 K1, s.x = some S ∧ s.k0 = some K0 ∧ s.k1 = some K1 := by
  obtain ⟨hk0, hk1⟩ := h.keys
  obtain ⟨S, hx⟩ := Option.isSome_iff_exists.1 (h.words.trans hs)
  obtain ⟨K0, h0⟩ := Option.isSome_iff_exists.1 (hk0.trans hs)
  obtain ⟨K1, h1⟩ := Option.isSome_iff_exists.1 (hk1.trans hs)
  exact ⟨S, K0, K1, hx, h0, h1⟩

/-- The message of a call is inside IN (R190, R210). -/
theorem State.CallLengths.mLen_le (h : s.CallLengths) : s.mLen ≤ s.inLen := by
  cases hm : s.mode with
  | enc => exact (h.enc hm).1.le
  | dec => exact Nat.le_of_add_right_le (h.dec hm).le

theorem exists_next_of_nextStep (h : s.Inv) (hn : nextStep s = some i) : ∃ t, exec i s = .next t := by
  have hl := nextStep_layer hn
  cases i with
  | init =>
    obtain ⟨t, ht, -⟩ := initResult s (nextStep_eq_init.1 hn)
    exact ⟨t, ht⟩
  | adblk =>
    obtain ⟨hp, hleft⟩ := nextStep_eq_adblk.1 hn
    obtain ⟨S, -, -, hx, -⟩ := h.exists_words (by rw [hp]; rfl)
    have hread : s.adPos + 8 ≤ s.adLen := by unfold adLeft at hleft; omega
    obtain ⟨t, ht, -⟩ := adblkResult s S hp hread hx
    exact ⟨t, ht⟩
  | adfin =>
    obtain ⟨hp, hleft⟩ := nextStep_eq_adfin.1 hn
    obtain ⟨S, -, -, hx, -⟩ := h.exists_words (by rw [hp]; rfl)
    have hlen := h.lengths (by rw [hp]; rfl)
    obtain ⟨t, ht, -⟩ := adfinResult s S (adLeft s) hp (Nat.add_sub_cancel' hlen.adPos_le) hleft hx
    exact ⟨t, ht⟩
  | domsep =>
    have hp := nextStep_eq_domsep.1 hn
    obtain ⟨S, -, -, hx, -⟩ := h.exists_words (by rw [hp]; rfl)
    obtain ⟨t, -, ht, -⟩ := domsepFlipsOneBit s S hp hx
    exact ⟨t, ht⟩
  | final =>
    have hp := nextStep_eq_final.1 hn
    obtain ⟨S, K0, K1, hx, h0, h1⟩ := h.exists_words (by rw [hp]; rfl)
    obtain ⟨t, ht, -⟩ := finalResult s S K0 K1 hp hx h0 h1
    exact ⟨t, ht⟩
  | encblk =>
    obtain ⟨hp, hm, hleft⟩ := nextStep_eq_encblk.1 hn
    obtain ⟨S, -, -, hx, -⟩ := h.exists_words (by rw [hp]; rfl)
    have hin := (h.lengths (by rw [hp]; rfl)).mLen_le
    obtain ⟨hend, hpos, hroom⟩ := h.process hp
    exact ⟨_, exec_encblk_enabled hp hm (by omega) hin (by omega) hx⟩
  | encfin =>
    obtain ⟨hp, hm, hleft⟩ := nextStep_eq_encfin.1 hn
    obtain ⟨S, -, -, hx, -⟩ := h.exists_words (by rw [hp]; rfl)
    have hin := (h.lengths (by rw [hp]; rfl)).mLen_le
    obtain ⟨hend, hpos, hroom⟩ := h.process hp
    exact ⟨_, exec_encfin_enabled hp hm hend hleft hin (by omega) hx⟩
  | tagout =>
    have hp := nextStep_eq_tagout.1 hn
    obtain ⟨S, -, -, hx, -⟩ := h.exists_words (by rw [hp]; rfl)
    have hlen := h.lengths (by rw [hp]; rfl)
    obtain ⟨hm, -, -, houtPos⟩ := (positionsFit_emitTag hp).1 h.positions
    obtain ⟨hmLen, hroom⟩ := hlen.enc hm
    exact ⟨_, exec_tagout_enabled hp (by omega) hx⟩
  | decblk =>
    obtain ⟨hp, hm, hleft⟩ := nextStep_eq_decblk.1 hn
    obtain ⟨S, -, -, hx, -⟩ := h.exists_words (by rw [hp]; rfl)
    have hin := (h.lengths (by rw [hp]; rfl)).mLen_le
    obtain ⟨hend, hpos, hroom⟩ := h.process hp
    exact ⟨_, exec_decblk_enabled hp hm (by omega) hin (by omega) hx⟩
  | decfin =>
    obtain ⟨hp, hm, hleft⟩ := nextStep_eq_decfin.1 hn
    obtain ⟨S, -, -, hx, -⟩ := h.exists_words (by rw [hp]; rfl)
    have hin := (h.lengths (by rw [hp]; rfl)).mLen_le
    obtain ⟨hend, hpos, hroom⟩ := h.process hp
    exact ⟨_, exec_decfin_enabled hp hm hend hleft hin (by omega) hx⟩
  | tagvfy =>
    have hp := nextStep_eq_tagvfy.1 hn
    obtain ⟨S, -, -, hx, -⟩ := h.exists_words (by rw [hp]; rfl)
    have hlen := h.lengths (by rw [hp]; rfl)
    obtain ⟨hm, -⟩ := (positionsFit_verifyTag hp).1 h.positions
    obtain ⟨-, -, -, hmLen, -⟩ := h.widths
    obtain ⟨t, ht, -⟩ := tagvfyDecidesTheCall s S hp (hlen.dec hm).le hmLen.le hx (h.memWf .out)
    exact ⟨t, ht⟩
  | addc | subst | ldiff | round | p6 | p12 | load | store | keep | pad | encrypt | decrypt => cases hl

/-- The engine's turn, however it comes: the enabled step runs, or the engine waits. -/
theorem exists_next_of_engine {rest : List Turn} (h : s.Inv)
    (hl : s.turns = [] ∧ rest = [] ∨ s.turns = .engine :: rest) : ∃ t, step s = .next t := by
  cases hn : nextStep s with
  | none => exact ⟨_, step_engine_idle h.lenw hl (nextStep_eq_none.1 hn)⟩
  | some i =>
    rw [step_engine_some h.lenw hl hn]
    exact exists_next_of_nextStep (h.auxiliary s.trace s.port rest s.readData s.freeCtr) hn

/-- Settles O53: the enabled step never stops. -/
theorem engineTurnNeverStops : Obligations.EngineTurnNeverStops := by
  rintro s h (hl | ⟨rest, hl⟩)
  · exact exists_next_of_engine h (.inl ⟨hl, rfl⟩)
  · exact exists_next_of_engine h (.inr hl)

/-! ### Nothing faults -/

theorem whenFree_ne_fault {k : StepOutcome} (hk : k ≠ .fault f) : whenFree s k ≠ .fault f := by
  unfold whenFree
  split
  · nofun
  · exact hk

theorem whenSpaceFree_ne_fault {sp : Space} {a : Nat} {k : StepOutcome} (hk : k ≠ .fault f) :
    whenSpaceFree sp a s k ≠ .fault f := by
  unfold whenSpaceFree
  split
  · nofun
  · split
    · exact hk
    · nofun

theorem writeLength_ne_fault {v : Nat} : writeLength v s t ≠ .fault f :=
  whenFree_ne_fault (by split <;> nofun)

theorem hostAct_ne_fault {act : HostAct} : hostAct act s ≠ .fault f := by
  cases act with
  | writeReg n v =>
    rw [hostAct]
    unfold hostWriteReg
    split
    case h_3 | h_4 => exact writeLength_ne_fault
    all_goals nofun
  | readReg n =>
    rw [hostAct]
    unfold hostReadReg
    split <;> nofun
  | writeByte sp a b => exact whenSpaceFree_ne_fault nofun
  | readByte sp a => exact whenSpaceFree_ne_fault (by split <;> nofun)
  | reset => nofun

theorem execEncrypt_ne_fault : execEncrypt s ≠ .fault f := whenFree_ne_fault (by split <;> nofun)

theorem execDecrypt_ne_fault : execDecrypt s ≠ .fault f := whenFree_ne_fault (by dsimp only; split <;> nofun)

/-- Settles O52, by whose turn it is. -/
theorem noStepFaults : Obligations.NoStepFaults := by
  intro s h hhost f
  have engine {rest : List Turn} (hl : s.turns = [] ∧ rest = [] ∨ s.turns = .engine :: rest) : step s ≠ .fault f := by
    obtain ⟨t, ht⟩ := exists_next_of_engine h hl
    rw [ht]
    nofun
  rcases hl : s.turns with _ | ⟨tn, rest⟩
  · exact engine (.inl ⟨hl, rfl⟩)
  · cases tn with
    | engine => exact engine (.inr hl)
    | issue cw => exact absurd (hl ▸ List.mem_cons_self) (hhost cw)
    | host act =>
      by_cases henc : act = .writeReg 0 0xa000
      · rw [step_encrypt h.lenw (henc ▸ hl)]
        exact execEncrypt_ne_fault
      by_cases hdec : act = .writeReg 0 0xa100
      · rw [step_decrypt h.lenw (hdec ▸ hl)]
        exact execDecrypt_ne_fault
      rw [step_hostAct h.lenw hl henc hdec]
      exact hostAct_ne_fault

/-! ### Every step of a call brings it one nearer its end (R169) -/

theorem stepsLeft_emitTrace (i : Instr) (S : Sponge) (s : State) : stepsLeft (emitTrace i S s) = stepsLeft s := by
  rw [emitTrace_eq]
  rfl

theorem stepsLeft_of_exec (h : s.Inv) (hl : i.layer = .controllerStep) (hexec : exec i s = .next t) :
    stepsLeft s = stepsLeft t + 1 := by
  cases i with
  | init =>
    obtain ⟨hp, rfl⟩ := execInit_eq_next.1 hexec
    obtain ⟨hadPos, -, -⟩ := (positionsFit_init hp).1 h.positions
    rw [stepsLeft_emitTrace]
    by_cases h0 : 0 < s.adLen
    · simp only [stepsLeft, hp, if_pos h0, adLeft]
      omega
    · simp only [stepsLeft, hp, if_neg h0]
      omega
  | adblk =>
    obtain ⟨⟨hp, hleft⟩, S, -, -, rfl⟩ := execAdblk_eq_next.1 hexec
    rw [stepsLeft_emitTrace]
    simp only [stepsLeft, hp, adLeft] at hleft ⊢
    omega
  | adfin =>
    obtain ⟨⟨hp, hleft⟩, S, -, -, rfl⟩ := execAdfin_eq_next.1 hexec
    rw [stepsLeft_emitTrace]
    simp only [stepsLeft, hp]
    omega
  | domsep =>
    obtain ⟨hp, S, -, rfl⟩ := execDomsep_eq_next.1 hexec
    obtain ⟨-, hinPos, -⟩ := (positionsFit_domsep hp).1 h.positions
    rw [stepsLeft_emitTrace]
    simp only [stepsLeft, hp, inLeft]
    omega
  | final =>
    obtain ⟨hp, S, -, a, b, -, -, rfl⟩ := execFinal_eq_next.1 hexec
    rw [stepsLeft_emitTrace]
    cases s.mode <;> simp only [stepsLeft, hp, afterFinal]
  | encblk =>
    obtain ⟨⟨hp, -, hleft⟩, S, -, -, -, rfl⟩ := execEncblk_eq_next.1 hexec
    rw [stepsLeft_emitTrace]
    simp only [stepsLeft, hp, inLeft] at hleft ⊢
    omega
  | encfin =>
    obtain ⟨⟨hp, -, hleft⟩, S, -, -, -, rfl⟩ := execEncfin_eq_next.1 hexec
    rw [stepsLeft_emitTrace]
    simp only [stepsLeft, hp]
    omega
  | tagout =>
    obtain ⟨hp, S, -, -, rfl⟩ := execTagout_eq_next.1 hexec
    rw [stepsLeft_emitTrace]
    simp only [stepsLeft, hp, endCall_phase, succeed_phase]
  | decblk =>
    obtain ⟨⟨hp, -, hleft⟩, S, -, -, -, rfl⟩ := execDecblk_eq_next.1 hexec
    rw [stepsLeft_emitTrace]
    simp only [stepsLeft, hp, inLeft] at hleft ⊢
    omega
  | decfin =>
    obtain ⟨⟨hp, -, hleft⟩, S, -, -, -, rfl⟩ := execDecfin_eq_next.1 hexec
    rw [stepsLeft_emitTrace]
    simp only [stepsLeft, hp]
    omega
  | tagvfy =>
    obtain ⟨hp, S, -, -, ⟨-, rfl⟩ | ⟨-, -, rfl⟩⟩ := execTagvfy_eq_next.1 hexec
    · rw [stepsLeft_emitTrace]
      simp only [stepsLeft, hp, endCall_phase, succeed_phase]
    · rw [stepsLeft_emitTrace]
      simp only [stepsLeft, hp, raise_phase]
  | addc | subst | ldiff | round | p6 | p12 | load | store | keep | pad | encrypt | decrypt => cases hl

/-- A controller step leaves the call in progress or in DONE. -/
theorem busy_or_done_of_exec (hl : i.layer = .controllerStep) (hexec : exec i s = .next t) :
    busy t.phase = true ∨ t.phase = .done := by
  have hs : busy s.phase = true := busy_of_nextStep (nextStep_of_exec_next hl hexec)
  cases ht : busy t.phase with
  | true => exact .inl rfl
  | false => exact .inr (endsCall_of_exec hexec hs ht).2

/-- One step of a call the engine runs by itself. -/
theorem exists_step_of_busy (h : s.Inv) (hturns : s.turns = []) (hb : busy s.phase = true) :
    ∃ t, step s = .next t ∧ t.Inv ∧ t.turns = [] ∧ stepsLeft s = stepsLeft t + 1 ∧
      (busy t.phase = true ∨ t.phase = .done) := by
  obtain ⟨i, hn⟩ := exists_nextStep_of_busy hb
  obtain ⟨t, hexec⟩ := exists_next_of_nextStep h hn
  have hl := nextStep_layer hn
  obtain ⟨⟨-, -, -, -, -, -, -, hturns', -⟩, -⟩ := operationsWriteOnlyOut s t i hexec
  exact ⟨t, (step_eq_exec ⟨h.lenw, hturns⟩ hl hexec).trans hexec, exec_keeps_inv h hexec, hturns'.trans hturns,
    stepsLeft_of_exec h hl hexec, busy_or_done_of_exec hl hexec⟩

theorem stepsLeft_eq_zero_iff : stepsLeft s = 0 ↔ busy s.phase = false := by
  cases hp : s.phase <;> simp [stepsLeft, hp, busy]

/-- A call that is in progress or over runs its remaining steps, in progress before each, to DONE. -/
theorem run_stepsLeft (n : Nat) (h : s.Inv) (hturns : s.turns = []) (hb : busy s.phase = true ∨ s.phase = .done)
    (hn : stepsLeft s = n) :
    (∃ t : State, Host.Core.run core n s = .next t ∧ t.phase = .done ∧ t.Inv) ∧
      ∀ k, k < n → ∃ u : State, Host.Core.run core k s = .next u ∧ busy u.phase = true := by
  induction n generalizing s with
  | zero =>
    have hdone := hb.resolve_left (Bool.eq_false_iff.1 (stepsLeft_eq_zero_iff.1 hn))
    exact ⟨⟨s, run_zero s, hdone, h⟩, nofun⟩
  | succ n ih =>
    have hbusy : busy s.phase = true := by
      refine Bool.eq_true_of_not_eq_false fun hb' => ?_
      rw [stepsLeft_eq_zero_iff.2 hb'] at hn
      cases hn
    obtain ⟨u, hstep, hInv, hturns', hleft, hb'⟩ := exists_step_of_busy h hturns hbusy
    obtain ⟨hend, hbefore⟩ := ih hInv hturns' hb' (Nat.succ.inj (hleft.symm.trans hn))
    refine ⟨by rwa [run_succ n hstep], fun k hk => ?_⟩
    cases k with
    | zero => exact ⟨s, run_zero s, hbusy⟩
    | succ k =>
      rw [run_succ k hstep]
      exact hbefore k (Nat.lt_of_succ_lt_succ hk)

/-- Settles O54: by induction on the steps left, each step leaving one fewer. -/
theorem callsTerminate : Obligations.CallsTerminate := by
  intro s h hturns hb
  obtain ⟨hend, hbefore⟩ := run_stepsLeft _ h hturns (.inl hb) rfl
  refine ⟨hend, hbefore, fun hp => ?_⟩
  simp only [stepsLeft, hp, callSteps]

end Sys2Proof.Machine
end

section
/-! Control does not depend on data (R300): of two states that differ only in data, if one makes a step so does the other, and
they still differ only in data. -/

namespace Sys2Proof.Machine

variable {s t u v : State} {i : Instr} {S T : Sponge}

/-! ### States that differ only in data -/

theorem SameControl.refl (s : State) : SameControl s s :=
  ⟨rfl, rfl, rfl, rfl, ⟨rfl, rfl, rfl⟩, ⟨rfl, rfl, rfl⟩, ⟨rfl, rfl, rfl⟩⟩

theorem SameControl.symm (h : SameControl s t) : SameControl t s := by
  obtain ⟨hpar, htu, hph, hmo, ⟨hp1, hp2, hp3⟩, ⟨hl1, hl2, hl3⟩, ⟨hh1, hh2, hh3⟩⟩ := h
  exact ⟨hpar.symm, htu.symm, hph.symm, hmo.symm, ⟨hp1.symm, hp2.symm, hp3.symm⟩, ⟨hl1.symm, hl2.symm, hl3.symm⟩,
    ⟨hh1.symm, hh2.symm, hh3.symm⟩⟩

theorem SameControl.trans (h : SameControl s t) (h' : SameControl t u) : SameControl s u := by
  obtain ⟨hpar, htu, hph, hmo, ⟨hp1, hp2, hp3⟩, ⟨hl1, hl2, hl3⟩, ⟨hh1, hh2, hh3⟩⟩ := h
  obtain ⟨hpar', htu', hph', hmo', ⟨hp1', hp2', hp3'⟩, ⟨hl1', hl2', hl3'⟩, ⟨hh1', hh2', hh3'⟩⟩ := h'
  exact ⟨hpar.trans hpar', htu.trans htu', hph.trans hph', hmo.trans hmo',
    ⟨hp1.trans hp1', hp2.trans hp2', hp3.trans hp3'⟩, ⟨hl1.trans hl1', hl2.trans hl2', hl3.trans hl3'⟩,
    ⟨hh1.trans hh1', hh2.trans hh2', hh3.trans hh3'⟩⟩

theorem SameControl.withTurns (h : SameControl s t) (l : List Turn) :
    SameControl { s with turns := l } { t with turns := l } := { h with turns := rfl }

theorem sameControl_emitTrace (i : Instr) (S : Sponge) (s : State) : SameControl (emitTrace i S s) s := by
  rw [emitTrace_eq]
  exact { SameControl.refl s with }

theorem SameControl.adLeft (h : SameControl s t) : adLeft s = adLeft t := by
  obtain ⟨hpos, -⟩ := h.positions
  obtain ⟨hlen, -⟩ := h.lengths
  simp only [Machine.adLeft, hpos, hlen]

theorem SameControl.inLeft (h : SameControl s t) : inLeft s = inLeft t := by
  obtain ⟨-, hpos, -⟩ := h.positions
  obtain ⟨-, -, hlen⟩ := h.lengths
  simp only [Machine.inLeft, hpos, hlen]

theorem SameControl.nextStep (h : SameControl s t) : nextStep s = nextStep t := by
  simp only [Machine.nextStep, h.phase, h.mode, h.adLeft, h.inLeft]

theorem SameControl.readAddresses (h : SameControl s t) (i : Instr) : readAddresses i s = readAddresses i t := by
  obtain ⟨had, hin, -⟩ := h.positions
  obtain ⟨-, -, hmLen⟩ := h.lengths
  simp only [Machine.readAddresses, had, hin, hmLen, h.adLeft, h.inLeft]

theorem SameControl.writeAddresses (h : SameControl s t) (i : Instr) : writeAddresses i s = writeAddresses i t := by
  obtain ⟨-, -, hout⟩ := h.positions
  simp only [Machine.writeAddresses, hout, h.inLeft]

theorem SameControl.spaceSize (h : SameControl s t) (sp : Space) : spaceSize s sp = spaceSize t sp := by
  obtain ⟨had, hin, -⟩ := h.lengths
  cases sp <;> simp only [spaceSize_key, spaceSize_nonce, spaceSize_ad, spaceSize_inp, spaceSize_out, had, hin, h.params]

/-- Both hold a value; which one does not matter. -/
theorem isSome_some_congr {α : Type} (a b : α) : (some a).isSome = (some b).isSome := rfl

/-! ### Outcomes that follow one another -/

/-- If the first outcome is a next state, the second is one that differs from it only in data. -/
def Follows (o o' : StepOutcome) : Prop := ∀ s', o = .next s' → ∃ t', o' = .next t' ∧ SameControl s' t'

theorem follows_next (h : SameControl s t) : Follows (.next s) (.next t) := by
  rintro s' ⟨⟩
  exact ⟨t, rfl, h⟩

theorem follows_emitTrace (h : SameControl s t) :
    Follows (.next (emitTrace i S s)) (.next (emitTrace i T t)) :=
  follows_next (((sameControl_emitTrace i S s).trans h).trans (sameControl_emitTrace i T t).symm)

theorem follows_refused {r : Refusal} {o : StepOutcome} : Follows (.refused r) o := by rintro _ ⟨⟩

theorem follows_fault {f : Fault} {o : StepOutcome} : Follows (.fault f) o := by rintro _ ⟨⟩

theorem follows_ite {p q : Prop} [Decidable p] [Decidable q] {a b c d : StepOutcome} (hpq : p ↔ q) (hab : Follows a b)
    (hcd : Follows c d) : Follows (if p then a else c) (if q then b else d) := by
  by_cases hp : p
  · rwa [if_pos hp, if_pos (hpq.1 hp)]
  · rwa [if_neg hp, if_neg (mt hpq.2 hp)]

theorem follows_whenEnabled {k l : StepOutcome} (h : SameControl s t) (hk : Follows k l) :
    Follows (whenEnabled i s k) (whenEnabled i t l) :=
  follows_ite (by rw [h.nextStep]) hk follows_refused

theorem follows_whenFree {k l : StepOutcome} (h : SameControl s t) (hk : Follows k l) :
    Follows (whenFree s k) (whenFree t l) :=
  follows_ite (by rw [h.phase]) follows_refused hk

theorem follows_whenSpaceFree {sp : Space} {a : Nat} {k l : StepOutcome} (h : SameControl s t) (hk : Follows k l) :
    Follows (whenSpaceFree sp a s k) (whenSpaceFree sp a t l) :=
  follows_ite (by rw [h.phase]) follows_refused (follows_ite (by rw [hostSize_congr h.params]) hk follows_refused)

theorem follows_readSponge {k l : Sponge → StepOutcome} (h : SameControl s t) (hk : ∀ S T, Follows (k S) (l T)) :
    Follows (readSponge s k) (readSponge t l) := by
  intro s' hs'
  obtain ⟨S, hS, hnext⟩ := readSponge_eq_next.1 hs'
  obtain ⟨hx, -⟩ := h.held
  obtain ⟨T, hT⟩ := Option.isSome_iff_exists.1 (hx.symm.trans (by rw [hS]; rfl))
  obtain ⟨t', ht', hst⟩ := hk S T s' hnext
  exact ⟨t', readSponge_eq_next.2 ⟨T, hT, ht'⟩, hst⟩

theorem follows_readKey {k l : Word → Word → StepOutcome} (h : SameControl s t)
    (hk : ∀ a b c d, Follows (k a b) (l c d)) : Follows (readKey s k) (readKey t l) := by
  intro s' hs'
  obtain ⟨a, b, ha, hb, hnext⟩ := readKey_eq_next.1 hs'
  obtain ⟨-, h0, h1⟩ := h.held
  obtain ⟨c, hc⟩ := Option.isSome_iff_exists.1 (h0.symm.trans (by rw [ha]; rfl))
  obtain ⟨d, hd⟩ := Option.isSome_iff_exists.1 (h1.symm.trans (by rw [hb]; rfl))
  obtain ⟨t', ht', hst⟩ := hk a b c d s' hnext
  exact ⟨t', readKey_eq_next.2 ⟨c, d, hc, hd, ht'⟩, hst⟩

theorem follows_memRead {sp : Space} {a b n m : Nat} {k l : List Byte → StepOutcome} (h : SameControl s t) (ha : a = b)
    (hn : n = m) (hk : ∀ bs cs, Follows (k bs) (l cs)) : Follows (memRead sp a n s k) (memRead sp b m t l) :=
  follows_ite (by rw [ha, hn, h.spaceSize]) (hk _ _) follows_fault

theorem follows_memWriteOut {a b : Nat} {bs cs : List Byte} {k l : State → StepOutcome} (h : SameControl s t)
    (ha : a = b) (hlen : bs.length = cs.length) (hk : ∀ u v, SameControl u v → Follows (k u) (l v)) :
    Follows (memWriteOut a bs s k) (memWriteOut b cs t l) :=
  follows_ite (by rw [ha, hlen, h.spaceSize]) (hk _ _ { h with }) follows_fault

/-! ### The operations -/

theorem follows_onSponge {f g : Sponge → Sponge} (h : SameControl s t) : Follows (onSponge f s) (onSponge g t) := by
  obtain ⟨-, hk⟩ := h.held
  exact follows_readSponge h fun S T => follows_next { h with held := ⟨isSome_some_congr _ _, hk⟩ }

theorem follows_init (h : SameControl s t) : Follows (execInit s) (execInit t) := by
  obtain ⟨hadLen, -⟩ := h.lengths
  refine follows_whenEnabled h <| follows_memRead h rfl rfl fun _ _ => follows_memRead h rfl rfl fun _ _ =>
    follows_memRead h rfl rfl fun _ _ => follows_memRead h rfl rfl fun _ _ => follows_emitTrace ?_
  exact { h with
    phase := by rw [hadLen]
    held := ⟨isSome_some_congr _ _, isSome_some_congr _ _, isSome_some_congr _ _⟩ }

theorem follows_adblk (h : SameControl s t) : Follows (execAdblk s) (execAdblk t) := by
  obtain ⟨hadPos, hpos⟩ := h.positions
  obtain ⟨-, hk⟩ := h.held
  refine follows_whenEnabled h <| follows_readSponge h fun _ _ => follows_memRead h hadPos rfl fun _ _ =>
    follows_emitTrace ?_
  exact { h with positions := ⟨congrArg (· + 8) hadPos, hpos⟩, held := ⟨isSome_some_congr _ _, hk⟩ }

theorem follows_adfin (h : SameControl s t) : Follows (execAdfin s) (execAdfin t) := by
  obtain ⟨hadPos, hpos⟩ := h.positions
  obtain ⟨-, hk⟩ := h.held
  refine follows_whenEnabled h <| follows_readSponge h fun _ _ => follows_memRead h hadPos h.adLeft fun _ _ =>
    follows_emitTrace ?_
  exact { h with
    phase := rfl
    positions := ⟨congrArg₂ (· + ·) hadPos h.adLeft, hpos⟩
    held := ⟨isSome_some_congr _ _, hk⟩ }

theorem follows_domsep (h : SameControl s t) : Follows (execDomsep s) (execDomsep t) := by
  obtain ⟨-, hk⟩ := h.held
  exact follows_whenEnabled h <| follows_readSponge h fun _ _ =>
    follows_emitTrace { h with phase := rfl, held := ⟨isSome_some_congr _ _, hk⟩ }

theorem follows_final (h : SameControl s t) : Follows (execFinal s) (execFinal t) := by
  obtain ⟨-, hk⟩ := h.held
  exact follows_whenEnabled h <| follows_readSponge h fun _ _ => follows_readKey h fun _ _ _ _ =>
    follows_emitTrace { h with phase := congrArg afterFinal h.mode, held := ⟨isSome_some_congr _ _, hk⟩ }

/-- The words move on, and the positions in IN and OUT alike. -/
theorem SameControl.moved (h : SameControl s t) (S T : Sponge) {a b c d : Nat} (hin : a = b) (hout : c = d) :
    SameControl { s with x := some S, inPos := a, outPos := c } { t with x := some T, inPos := b, outPos := d } := by
  obtain ⟨hadPos, -⟩ := h.positions
  obtain ⟨-, hk⟩ := h.held
  exact { h with positions := ⟨hadPos, hin, hout⟩, held := ⟨isSome_some_congr S T, hk⟩ }

theorem follows_encblk (h : SameControl s t) : Follows (execEncblk s) (execEncblk t) := by
  obtain ⟨-, hin, hout⟩ := h.positions
  exact follows_whenEnabled h <| follows_readSponge h fun _ _ => follows_memRead h hin rfl fun _ _ =>
    follows_memWriteOut h hout (by rw [length_store, length_store]) fun _ _ huv =>
    follows_emitTrace (huv.moved _ _ (congrArg (· + 8) hin) (congrArg (· + 8) hout))

theorem follows_decblk (h : SameControl s t) : Follows (execDecblk s) (execDecblk t) := by
  obtain ⟨-, hin, hout⟩ := h.positions
  exact follows_whenEnabled h <| follows_readSponge h fun _ _ => follows_memRead h hin rfl fun _ _ =>
    follows_memWriteOut h hout (by rw [length_store, length_store]) fun _ _ huv =>
    follows_emitTrace (huv.moved _ _ (congrArg (· + 8) hin) (congrArg (· + 8) hout))

theorem follows_encfin (h : SameControl s t) : Follows (execEncfin s) (execEncfin t) := by
  obtain ⟨-, hin, hout⟩ := h.positions
  exact follows_whenEnabled h <| follows_readSponge h fun _ _ => follows_memRead h hin h.inLeft fun _ _ =>
    follows_memWriteOut h hout (by rw [length_store, length_store, h.inLeft]) fun _ _ huv =>
    follows_emitTrace
      { huv.moved _ _ (congrArg₂ (· + ·) hin h.inLeft) (congrArg₂ (· + ·) hout h.inLeft) with phase := rfl }

theorem follows_decfin (h : SameControl s t) : Follows (execDecfin s) (execDecfin t) := by
  obtain ⟨-, hin, hout⟩ := h.positions
  exact follows_whenEnabled h <| follows_readSponge h fun _ _ => follows_memRead h hin h.inLeft fun _ _ =>
    follows_memWriteOut h hout (by rw [length_store, length_store, h.inLeft]) fun _ _ huv =>
    follows_emitTrace
      { huv.moved _ _ (congrArg₂ (· + ·) hin h.inLeft) (congrArg₂ (· + ·) hout h.inLeft) with phase := rfl }

theorem follows_tagout (h : SameControl s t) : Follows (execTagout s) (execTagout t) := by
  obtain ⟨-, -, hout⟩ := h.positions
  exact follows_whenEnabled h <| follows_readSponge h fun _ _ =>
    follows_memWriteOut h hout (by rw [length_store, length_store]) fun _ _ huv =>
    follows_memWriteOut huv (congrArg (· + 8) hout) (by rw [length_store, length_store]) fun _ _ huv' =>
    have ⟨hadPos, hin, _⟩ := huv'.positions
    follows_emitTrace { huv' with
      phase := rfl
      positions := ⟨hadPos, hin, congrArg (· + 16) hout⟩
      held := ⟨rfl, rfl, rfl⟩ }

/-- Whatever TAGVFY finds, control is that of the ended call. -/
theorem sameControl_tagvfy (hexec : exec .tagvfy s = .next u) : SameControl u (endCall { s with phase := .done }) := by
  obtain ⟨-, S, -, -, ⟨-, rfl⟩ | ⟨-, -, rfl⟩⟩ := execTagvfy_eq_next.1 hexec
  · exact (sameControl_emitTrace _ _ _).trans { SameControl.refl (endCall { s with phase := .done }) with }
  · exact (sameControl_emitTrace _ _ _).trans { SameControl.refl (endCall { s with phase := .done }) with }

/-- TAGVFY answers a next state for every tag, where zeroizing has room (R213, R217). -/
theorem exists_next_tagvfy (hp : s.phase = .verifyTag) (hin : s.mLen + 16 ≤ s.inLen) (hout : s.mLen ≤ 2 ^ s.params.lenw)
    (hx : s.x = some S) : ∃ t, exec .tagvfy s = .next t := by
  by_cases htag : tagBytes S = s.inp.bytes s.mLen 16
  · exact ⟨_, exec_tagvfy_equal hp hin hx htag⟩
  · exact ⟨_, exec_tagvfy_differs hp hin hout hx htag⟩

theorem follows_tagvfy (h : SameControl s t) (hInv : s.Inv) : Follows (exec .tagvfy s) (exec .tagvfy t) := by
  intro s' hs'
  obtain ⟨hp, S, hS, hin, -⟩ := execTagvfy_eq_next.1 hs'
  obtain ⟨-, -, -, hmLen, -⟩ := hInv.widths
  obtain ⟨hx, -⟩ := h.held
  obtain ⟨T, hT⟩ := Option.isSome_iff_exists.1 (hx.symm.trans (by rw [hS]; rfl))
  obtain ⟨-, hlen, hm⟩ := h.lengths
  rw [hlen, hm] at hin
  rw [hm, h.params] at hmLen
  obtain ⟨t', ht'⟩ := exists_next_tagvfy (h.phase.symm.trans hp) hin hmLen.le hT
  have hended : SameControl (endCall { s with phase := .done }) (endCall { t with phase := .done }) :=
    { h with phase := rfl, held := ⟨rfl, rfl, rfl⟩ }
  exact ⟨t', ht', ((sameControl_tagvfy hs').trans hended).trans (sameControl_tagvfy ht').symm⟩

theorem follows_encrypt (h : SameControl s t) : Follows (execEncrypt s) (execEncrypt t) := by
  obtain ⟨hadLen, hinLen, -⟩ := h.lengths
  refine follows_whenFree h (follows_ite (by rw [hinLen, h.params]) (follows_next ?_) follows_refused)
  exact { h with
    mode := rfl
    phase := rfl
    positions := ⟨rfl, rfl, rfl⟩
    lengths := ⟨hadLen, hinLen, hinLen⟩ }

theorem follows_decrypt (h : SameControl s t) : Follows (execDecrypt s) (execDecrypt t) := by
  obtain ⟨hadLen, hinLen, -⟩ := h.lengths
  refine follows_whenFree h (follows_ite (by rw [hinLen]) (follows_next ?_) (follows_next ?_))
  · exact { h with
      mode := rfl
      phase := rfl
      positions := ⟨rfl, rfl, rfl⟩
      lengths := ⟨hadLen, hinLen, rfl⟩
      held := ⟨rfl, rfl, rfl⟩ }
  · exact { h with
      mode := rfl
      phase := rfl
      positions := ⟨rfl, rfl, rfl⟩
      lengths := ⟨hadLen, hinLen, congrArg (· - 16) hinLen⟩ }

theorem follows_exec (h : SameControl s t) (hInv : s.Inv) (i : Instr) : Follows (exec i s) (exec i t) := by
  cases i with
  | addc | round => exact follows_ite Iff.rfl (follows_onSponge h) follows_refused
  | subst | ldiff | p6 | p12 => exact follows_onSponge h
  | load | store | keep | pad => exact follows_ite Iff.rfl (follows_next { h with }) follows_refused
  | init => exact follows_init h
  | adblk => exact follows_adblk h
  | adfin => exact follows_adfin h
  | domsep => exact follows_domsep h
  | final => exact follows_final h
  | encblk => exact follows_encblk h
  | encfin => exact follows_encfin h
  | tagout => exact follows_tagout h
  | decblk => exact follows_decblk h
  | decfin => exact follows_decfin h
  | tagvfy => exact follows_tagvfy h hInv
  | encrypt => exact follows_encrypt h
  | decrypt => exact follows_decrypt h

/-! ### The host -/

theorem follows_writeLength {n : Nat} (h : SameControl s t) (huv : SameControl u v) :
    Follows (writeLength n s u) (writeLength n t v) :=
  follows_whenFree h (follows_ite (by rw [h.params]) (follows_next huv) follows_refused)

theorem follows_hostWriteReg (h : SameControl s t) (n v : Nat) : Follows (hostWriteReg n v s) (hostWriteReg n v t) := by
  obtain ⟨hadLen, hinLen, hmLen⟩ := h.lengths
  match n with
  | 0 | 1 | 4 | _ + 5 => exact follows_refused
  | 2 => exact follows_writeLength h { h with lengths := ⟨rfl, hinLen, hmLen⟩ }
  | 3 => exact follows_writeLength h { h with lengths := ⟨hadLen, rfl, hmLen⟩ }

theorem follows_hostReadReg (h : SameControl s t) (n : Nat) : Follows (hostReadReg n s) (hostReadReg n t) := by
  match n with
  | 0 | 2 | 3 | _ + 5 => exact follows_refused
  | 1 | 4 => exact follows_next { h with }

theorem follows_hostWriteByte (h : SameControl s t) (sp : Space) (a : Nat) (b : Byte) :
    Follows (hostWriteByte sp a b s) (hostWriteByte sp a b t) := by
  refine follows_whenSpaceFree h (follows_next ?_)
  cases sp <;> exact { h with }

/-- The mark decides what the host sees of the byte, and nothing else. -/
theorem follows_hostReadByte (h : SameControl s t) (sp : Space) (a : Nat) :
    Follows (hostReadByte sp a s) (hostReadByte sp a t) := by
  refine follows_whenSpaceFree h ?_
  split <;> split <;> exact follows_next { h with }

theorem sameControl_resetEngine (h : SameControl s t) : SameControl (resetEngine s) (resetEngine t) :=
  ⟨h.params, h.turns, rfl, rfl, ⟨rfl, rfl, rfl⟩, ⟨rfl, rfl, rfl⟩, ⟨rfl, rfl, rfl⟩⟩

theorem follows_hostAct (h : SameControl s t) (act : HostAct) : Follows (hostAct act s) (hostAct act t) := by
  cases act with
  | writeReg n v => exact follows_hostWriteReg h n v
  | readReg n => exact follows_hostReadReg h n
  | writeByte sp a b => exact follows_hostWriteByte h sp a b
  | readByte sp a => exact follows_hostReadByte h sp a
  | reset => exact follows_next (sameControl_resetEngine h)

/-! ### Steps and runs -/

theorem follows_engine {rest : List Turn} (h : SameControl s t) (hInv : s.Inv)
    (hl : s.turns = [] ∧ rest = [] ∨ s.turns = .engine :: rest) : Follows (step s) (step t) := by
  have hp : 20 ≤ t.params.lenw := h.params ▸ hInv.lenw
  rw [step_engine hInv.lenw hl, step_engine hp (h.turns ▸ hl), h.nextStep]
  cases nextStep t with
  | none => exact follows_next (h.withTurns rest)
  | some i => exact follows_exec (h.withTurns rest) (hInv.auxiliary s.trace s.port rest s.readData s.freeCtr) i

theorem follows_step (h : SameControl s t) (hInv : s.Inv) : Follows (step s) (step t) := by
  have hp : 20 ≤ t.params.lenw := h.params ▸ hInv.lenw
  have hexec (rest : List Turn) (i : Instr) : Follows (exec i { s with turns := rest }) (exec i { t with turns := rest }) :=
    follows_exec (h.withTurns rest) (hInv.auxiliary s.trace s.port rest s.readData s.freeCtr) i
  rcases hl : s.turns with _ | ⟨tn, rest⟩
  · exact follows_engine h hInv (.inl ⟨hl, rfl⟩)
  have hl' : t.turns = tn :: rest := h.turns ▸ hl
  cases tn with
  | engine => exact follows_engine h hInv (.inr hl)
  | issue cw =>
    rw [step_issue hInv.lenw hl, step_issue hp hl']
    cases decode cw with
    | error why => exact follows_refused
    | ok i => exact hexec rest i
  | host act =>
    by_cases henc : act = .writeReg 0 0xa000
    · subst henc
      rw [step_encrypt hInv.lenw hl, step_encrypt hp hl']
      exact hexec rest _
    by_cases hdec : act = .writeReg 0 0xa100
    · subst hdec
      rw [step_decrypt hInv.lenw hl, step_decrypt hp hl']
      exact hexec rest _
    rw [step_hostAct hInv.lenw hl henc hdec, step_hostAct hp hl' henc hdec]
    exact follows_hostAct (h.withTurns rest) act

/-- The first step of a run that ends in a next state, for any machine. -/
theorem core_exists_step (M : Host.Core) {k : Nat} {s t : M.State} (h : M.run (k + 1) s = .next t) :
    ∃ u, M.step s = .next u ∧ M.run k u = .next t := by
  rw [Host.Core.run] at h
  cases hs : M.step s with
  | next u => rw [hs] at h; exact ⟨u, rfl, h⟩
  | fault f => rw [hs] at h; cases h
  | refused r => rw [hs] at h; cases h

theorem follows_run (h : SameControl s t) (hInv : s.Inv) (k : Nat) :
    Follows (Host.Core.run core k s) (Host.Core.run core k t) := by
  induction k generalizing s t with
  | zero => exact follows_next h
  | succ k ih =>
    intro s' hs'
    obtain ⟨u, hu, hrun⟩ := core_exists_step core hs'
    obtain ⟨v, hv, huv⟩ := follows_step h hInv u hu
    rw [run_succ k hv]
    exact ih huv (stepKeepsInvariant s u hInv hu) s' hrun

/-- Settles O55: the runs stay in states that differ only in data, and the tables do not look at data. -/
theorem controlIsDataIndependent : Obligations.ControlIsDataIndependent := by
  intro s t hInv h k s' hs'
  obtain ⟨t', ht', hst⟩ := follows_run h hInv k s' hs'
  exact ⟨t', ht', hst, hst.nextStep, fun i => ⟨hst.readAddresses i, hst.writeAddresses i⟩⟩

end Sys2Proof.Machine
end

section
/-! The permutation (R125): P12 and P6 round by round, and that every round, so every permutation, is a bijection. -/

namespace Sys2Proof.Machine

variable {s : State} {S T : Sponge} {j : Nat}

/-! ### Rounds one after the other -/

/-- The n rounds whose indices end at k + 1 (R124, R125). -/
def roundsDown (k : Nat) : Nat → List Instr
  | 0 => []
  | n + 1 => .round (rc (k + n + 1)) :: roundsDown k n

theorem rc_mem_roundConstants {i : Nat} (hi : i < 12) : rc (i + 1) ∈ roundConstants := by
  revert i
  decide

/-- The n rounds leave the words from which k more rounds complete the permutation of k + n, and change nothing else. -/
theorem execAll_roundsDown (k n : Nat) (hn : k + n ≤ 12) (hx : s.x = some S) :
    ∃ U, permute S (k + n) = permute U k ∧
      ∀ is, execAll (roundsDown k n ++ is) s = execAll is { s with x := some U } := by
  induction n generalizing s S with
  | zero => exact ⟨S, rfl, fun is => by rw [roundsDown, List.nil_append, ← hx]⟩
  | succ n ih =>
    obtain ⟨U, hU, hrun⟩ := ih (s := { s with x := some (roundFn (rc (k + n + 1)) S) }) (Nat.le_of_succ_le hn) rfl
    have hc : rc (k + n + 1) ∈ roundConstants := rc_mem_roundConstants hn
    refine ⟨U, hU, fun is => ?_⟩
    rw [roundsDown, List.cons_append, execAll_cons_next (exec_round_some hc hx), hrun]

theorem exec_p6_some (hx : s.x = some S) : exec .p6 s = .next { s with x := some (permute S 6) } :=
  onSponge_some (fun S => permute S 6) hx

theorem exec_p12_some (hx : s.x = some S) : exec .p12 s = .next { s with x := some (permute S 12) } :=
  onSponge_some (fun S => permute S 12) hx

/-- The last n rounds of a permutation are the permutation of n rounds. -/
theorem execAll_roundsDown_zero (n : Nat) (hn : n ≤ 12) (hx : s.x = some S) :
    execAll (roundsDown 0 n) s = .next { s with x := some (permute S n) } := by
  obtain ⟨U, hU, hrun⟩ := execAll_roundsDown 0 n (by rwa [Nat.zero_add]) hx
  rw [Nat.zero_add] at hU
  rw [hU, ← List.append_nil (roundsDown 0 n), hrun]
  rfl

/-- Settles O11: the rounds of R124 from index 12 down, all of them or cut after the sixth. -/
theorem permutationsAreTheirRounds : Obligations.PermutationsAreTheirRounds := by
  intro s S hx
  obtain ⟨U, hU, hrun⟩ := execAll_roundsDown 6 6 le_rfl hx
  refine ⟨permute S 12, permute S 6, exec_p12_some hx, exec_p6_some hx, execAll_roundsDown_zero 12 le_rfl hx,
    execAll_roundsDown_zero 6 (by decide) hx, ?_⟩
  have hp6 : execAll [.p6] { s with x := some U } = .next { s with x := some (permute U 6) } := by
    rw [execAll_cons_next (exec_p6_some rfl), execAll]
  rw [hU]
  exact (hrun [.p6]).trans hp6

/-! ### Each layer is injective -/

theorem addConstant_injective (c : Byte) : Function.Injective (addConstant c) :=
  Function.LeftInverse.injective (addConstant_addConstant c)

/-- A column is its five bits. -/
theorem column_bits (h : column S j = column T j) :
    S.x0.getLsbD j = T.x0.getLsbD j ∧ S.x1.getLsbD j = T.x1.getLsbD j ∧ S.x2.getLsbD j = T.x2.getLsbD j ∧
      S.x3.getLsbD j = T.x3.getLsbD j ∧ S.x4.getLsbD j = T.x4.getLsbD j := by
  revert h
  unfold column
  generalize S.x0.getLsbD j = x0, S.x1.getLsbD j = x1, S.x2.getLsbD j = x2, S.x3.getLsbD j = x3, S.x4.getLsbD j = x4
  generalize T.x0.getLsbD j = y0, T.x1.getLsbD j = y1, T.x2.getLsbD j = y2, T.x3.getLsbD j = y3, T.x4.getLsbD j = y4
  revert x0 x1 x2 x3 x4 y0 y1 y2 y3 y4
  decide

/-- The five words are their 64 columns. -/
theorem sponge_ext_column (h : ∀ j, j < 64 → column S j = column T j) : S = T := by
  obtain ⟨x0, x1, x2, x3, x4⟩ := S
  obtain ⟨y0, y1, y2, y3, y4⟩ := T
  have bits (j : Nat) (hj : j < 64) := column_bits (h j hj)
  simp only [imp_and, forall_and] at bits
  obtain ⟨h0, h1, h2, h3, h4⟩ := bits
  rw [BitVec.eq_of_getLsbD_eq h0, BitVec.eq_of_getLsbD_eq h1, BitVec.eq_of_getLsbD_eq h2, BitVec.eq_of_getLsbD_eq h3,
    BitVec.eq_of_getLsbD_eq h4]

/-- The S-box has no entry twice, and each column is substituted by itself (R127). -/
theorem substitute_injective : Function.Injective substitute := by
  intro S T h
  refine sponge_ext_column fun j hj => ?_
  have hS := sboxTable_column (sboxEquations_substitute S hj)
  have hT := sboxTable_column (sboxEquations_substitute T hj)
  have hnodup : sboxTable.Nodup := by decide
  obtain ⟨hlt, -⟩ := List.getElem?_eq_some_iff.1 hS
  exact (List.getElem?_inj hlt hnodup).1 (by rw [hS, hT, h])

/-- A word XORed with two copies of itself rotated right, as LDIFF does to each word (R122). -/
def xorRotated (a b : Nat) (w : Word) : Word := w ^^^ w.rotateRight a ^^^ w.rotateRight b

theorem getLsbD_rotateRight_mod (w : Word) (k : Nat) (hj : j < 64) :
    (w.rotateRight k).getLsbD j = w.getLsbD ((j + k) % 64) := by
  have hk : k % 64 < 64 := Nat.mod_lt _ (by decide)
  rw [← BitVec.rotateRight_mod_eq_rotateRight, ← ror_eq_rotateRight w hk, getLsbD_ror w hk hj, Nat.add_mod_mod]

theorem getLsbD_xorRotated (a b : Nat) (w : Word) (hj : j < 64) :
    (xorRotated a b w).getLsbD j =
      (w.getLsbD j ^^ w.getLsbD ((j + a) % 64) ^^ w.getLsbD ((j + b) % 64)) := by
  rw [xorRotated, BitVec.getLsbD_xor, BitVec.getLsbD_xor, getLsbD_rotateRight_mod w a hj, getLsbD_rotateRight_mod w b hj]

/-- Done twice, the amounts are doubled: the mixed copies meet in pairs and vanish. -/
theorem xorRotated_xorRotated (a b : Nat) (w : Word) :
    xorRotated a b (xorRotated a b w) = xorRotated (a + a) (b + b) w := by
  refine BitVec.eq_of_getLsbD_eq fun j hj => ?_
  have hmod (k : Nat) : (j + k) % 64 < 64 := Nat.mod_lt _ (by decide)
  rw [getLsbD_xorRotated a b _ hj, getLsbD_xorRotated a b w hj, getLsbD_xorRotated a b w (hmod a),
    getLsbD_xorRotated a b w (hmod b), getLsbD_xorRotated _ _ w hj]
  simp only [Nat.mod_add_mod, Nat.add_assoc, Nat.add_comm b a]
  generalize w.getLsbD j = p, w.getLsbD ((j + a) % 64) = q, w.getLsbD ((j + b) % 64) = r,
    w.getLsbD ((j + (a + a)) % 64) = x, w.getLsbD ((j + (a + b)) % 64) = y, w.getLsbD ((j + (b + b)) % 64) = z
  revert p q r x y z
  decide

theorem xorRotated_of_mod_eq_zero {a b : Nat} (ha : a % 64 = 0) (hb : b % 64 = 0) (w : Word) : xorRotated a b w = w := by
  refine BitVec.eq_of_getLsbD_eq fun j hj => ?_
  rw [getLsbD_xorRotated a b w hj, show (j + a) % 64 = j by omega, show (j + b) % 64 = j by omega, Bool.xor_self,
    Bool.false_xor]

/-- Doubled six times the amounts are multiples of 64, and the three copies are one. -/
theorem xorRotated_injective (a b : Nat) : Function.Injective (xorRotated a b) := by
  have halve {a b : Nat} (h : Function.Injective (xorRotated (a + a) (b + b))) : Function.Injective (xorRotated a b) := by
    rw [← funext (xorRotated_xorRotated a b)] at h
    exact Function.Injective.of_comp (f := xorRotated a b) h
  refine halve (halve (halve (halve (halve (halve fun w v h => ?_)))))
  rwa [xorRotated_of_mod_eq_zero (by omega) (by omega), xorRotated_of_mod_eq_zero (by omega) (by omega)] at h

theorem xor_ror_ror_injective {a b : Nat} (ha : a < 64) (hb : b < 64) {w v : Word}
    (h : w ^^^ ror w a ^^^ ror w b = v ^^^ ror v a ^^^ ror v b) : w = v := by
  rw [ror_eq_rotateRight w ha, ror_eq_rotateRight w hb, ror_eq_rotateRight v ha, ror_eq_rotateRight v hb] at h
  exact xorRotated_injective a b h

theorem diffuse_injective : Function.Injective diffuse := by
  rintro ⟨x0, x1, x2, x3, x4⟩ ⟨y0, y1, y2, y3, y4⟩ h
  simp only [diffuse, Sponge.mk.injEq] at h ⊢
  obtain ⟨h0, h1, h2, h3, h4⟩ := h
  exact ⟨xor_ror_ror_injective (by decide) (by decide) h0, xor_ror_ror_injective (by decide) (by decide) h1,
    xor_ror_ror_injective (by decide) (by decide) h2, xor_ror_ror_injective (by decide) (by decide) h3,
    xor_ror_ror_injective (by decide) (by decide) h4⟩

/-! ### Every permutation is a bijection -/

theorem roundFn_injective (c : Byte) : Function.Injective (roundFn c) :=
  diffuse_injective.comp (substitute_injective.comp (addConstant_injective c))

theorem permute_injective (n : Nat) : Function.Injective fun S => permute S n := by
  induction n with
  | zero => exact fun _ _ h => h
  | succ n ih => exact ih.comp (roundFn_injective (rc (n + 1)))

/-- There are finitely many states of the five words. -/
theorem finite_sponge : Finite Sponge := by
  refine Finite.of_injective (fun S : Sponge => (S.x0, S.x1, S.x2, S.x3, S.x4)) ?_
  rintro ⟨x0, x1, x2, x3, x4⟩ ⟨y0, y1, y2, y3, y4⟩ h
  simpa using h

theorem permute_bijective (n : Nat) : Function.Bijective fun S => permute S n :=
  have := finite_sponge
  (permute_injective n).bijective_of_finite

/-- Settles O12: a round's three layers are injective, and there are finitely many states. -/
theorem permutationIsBijective : Obligations.PermutationIsBijective := ⟨permute_bijective 12, permute_bijective 6⟩

end Sys2Proof.Machine
end

section
/-! The Byte/Word Codec applied by a harness (R140 to R143): what each function leaves at the port, by byte positions. -/

namespace Sys2Proof.Machine

variable {s : State} {n : BitVec 4}

/-- Settles O13: the port's bytes are the sequence LOAD places. -/
theorem loadResult : Obligations.LoadResult := by
  refine fun s n hn => ⟨_, execLoad_eq_next.2 ⟨hn, rfl⟩, fun j hj => ?_⟩
  rw [byteAt_load _ hn hj, List.getD_eq_getElem _ _ (by simpa using hj), Vector.getElem_toList]

/-- Settles O14: the bytes are the word's byte positions in order. -/
theorem storeResult : Obligations.StoreResult := by
  refine fun s n hn => ⟨_, execStore_eq_next.2 ⟨hn, rfl⟩, length_store _ _, fun j hj => ?_⟩
  rw [List.getElem?_eq_getElem (by simpa using hj), getElem_store]

/-- Settles O15, by what KEEP leaves at each byte position. -/
theorem keepResult : Obligations.KeepResult :=
  fun _ _ hn => ⟨_, execKeep_eq_next.2 ⟨hn, rfl⟩, fun _ hj => byteAt_maskKeep _ hn hj⟩

/-- The pad is the power of two of its one bit (R143). -/
theorem padWord_eq_twoPow {n : Nat} (hn : n ≤ 7) : padWord n = BitVec.twoPow 64 (63 - 8 * n) := by
  revert n
  decide

/-- Settles O16: a power of two has one bit. -/
theorem padResult : Obligations.PadResult := by
  refine fun s n hn => ⟨_, execPad_eq_next.2 ⟨hn, rfl⟩, fun j => ?_⟩
  rw [padWord_eq_twoPow hn, BitVec.getLsbD_twoPow]
  simp [eq_comm, show 63 - 8 * n.toNat < 64 by omega]

end Sys2Proof.Machine
end

section
/-! The host's accesses (R40 to R45, R55, R280, R288 to R292): the registers it reads and writes, the bytes of the spaces
between calls, reset, and the command DECRYPT. -/

namespace Sys2Proof.Machine

variable {s : State} {rest : List Turn} {n v a : Nat} {sp : Space} {b : Byte}

/-! ### Registers -/

/-- Any register access but a CMD write is the host action itself. -/
theorem step_readReg (hp : 20 ≤ s.params.lenw) (h : s.turns = .host (.readReg n) :: rest) :
    step s = hostReadReg n { s with turns := rest } :=
  step_hostAct hp h nofun nofun

theorem step_writeReg (hp : 20 ≤ s.params.lenw) (h : s.turns = .host (.writeReg n v) :: rest) (hn : n ≠ 0) :
    step s = hostWriteReg n v { s with turns := rest } :=
  step_hostAct hp h (fun e => hn (HostAct.writeReg.inj e).1) fun e => hn (HostAct.writeReg.inj e).1

theorem writeLength_free {t : State} (hb : busy s.phase = false) (hv : v < 2 ^ s.params.lenw) :
    writeLength v s t = .next t := by
  rw [writeLength, whenFree, hb, if_neg Bool.false_ne_true, if_pos hv]

theorem writeLength_tooWide {t : State} (hb : busy s.phase = false) (hv : 2 ^ s.params.lenw ≤ v) :
    writeLength v s t = .refused .valueTooWide := by
  rw [writeLength, whenFree, hb, if_neg Bool.false_ne_true, if_neg hv.not_gt]

/-- Settles O39, register by register. -/
theorem registerNumbers : Obligations.RegisterNumbers := by
  refine fun s rest n v hp => ⟨fun h => ?read, fun h => ?write⟩
  case read =>
    rw [step_readReg hp h]
    refine ⟨?_, ?_, ?_, fun hn => ?_⟩
    · rintro (rfl | rfl | rfl) <;> rfl
    · rintro rfl; rfl
    · rintro rfl; rfl
    · obtain ⟨n, rfl⟩ := Nat.exists_eq_add_of_le' hn
      rfl
  case write =>
    refine ⟨?_, fun hn => ?_, fun hb hv => ⟨?_, ?_⟩⟩
    · rintro (rfl | rfl) <;> exact step_writeReg hp h (by decide)
    · rw [step_writeReg hp h (by omega)]
      obtain ⟨n, rfl⟩ := Nat.exists_eq_add_of_le' hn
      rfl
    · rintro rfl
      exact (step_writeReg hp h (by decide)).trans (writeLength_free hb hv)
    · rintro rfl
      exact (step_writeReg hp h (by decide)).trans (writeLength_free hb hv)

/-- Settles O41: the two length registers take a write alike. -/
theorem lengthWrites : Obligations.LengthWrites := by
  rintro s rest n v hp (rfl | rfl) h
  all_goals
    rw [step_writeReg hp h (by decide)]
    exact ⟨writeLength_free, whenFree_busy, writeLength_tooWide⟩

/-! ### Bytes of the spaces -/

theorem whenSpaceFree_busy {k : StepOutcome} (hb : busy s.phase = true) :
    whenSpaceFree sp a s k = .refused .spaceInUse := if_pos hb

theorem whenSpaceFree_free {k : StepOutcome} (hb : busy s.phase = false) (ha : a < hostSize s sp) :
    whenSpaceFree sp a s k = k := by
  rw [whenSpaceFree, hb, if_neg Bool.false_ne_true, if_pos ha]

/-- The state a host byte write leaves: the byte, and no mark at it (R288). -/
def byteWritten (s : State) (sp : Space) (a : Nat) (b : Byte) : State :=
  { setMem s sp ((mem s sp).set a b) with
    outAny := if sp = .out then s.outAny.filter fun x => decide (x ≠ a) else s.outAny }

theorem hostWriteByte_free (hb : busy s.phase = false) (ha : a < hostSize s sp) :
    hostWriteByte sp a b s = .next (byteWritten s sp a b) := by
  rw [hostWriteByte, whenSpaceFree_free hb ha]
  cases sp <;> rfl

theorem mem_byteWritten_same : mem (byteWritten s sp a b) sp = (mem s sp).set a b := by
  cases sp <;> rfl

theorem mem_byteWritten_ne {sp' : Space} (h : sp' ≠ sp) : mem (byteWritten s sp a b) sp' = mem s sp' :=
  (by cases sp' <;> rfl : mem (byteWritten s sp a b) sp' = mem (setMem s sp ((mem s sp).set a b)) sp').trans
    (mem_setMem_ne s sp _ h)

theorem get_byteWritten_others {sp' : Space} {a' : Nat} (h : sp' ≠ sp ∨ a' ≠ a) :
    (mem (byteWritten s sp a b) sp').get a' = (mem s sp').get a' := by
  by_cases hsp : sp' = sp
  · subst hsp
    rw [mem_byteWritten_same, Memory.get_set_ne b (h.resolve_left (not_not.2 rfl))]
  · rw [mem_byteWritten_ne hsp]

theorem mem_outAny_byteWritten {x : Nat} :
    x ∈ (byteWritten s sp a b).outAny ↔ x ∈ s.outAny ∧ ¬ (sp = .out ∧ x = a) := by
  by_cases hsp : sp = .out <;> simp [byteWritten, hsp]

theorem hostReadByte_unmarked (hb : busy s.phase = false) (ha : a < hostSize s sp) (hmark : ¬ (sp = .out ∧ a ∈ s.outAny)) :
    hostReadByte sp a s = .next { s with readData := ((mem s sp).get a).toNat } := by
  rw [hostReadByte, whenSpaceFree_free hb ha, if_neg hmark]

theorem hostReadByte_marked (hb : busy s.phase = false) (ha : a < hostSize s sp) (hmark : sp = .out ∧ a ∈ s.outAny) :
    hostReadByte sp a s =
      .next { s with readData := (Config.freeByte s.freeCtr).toNat, freeCtr := s.freeCtr + 1 } := by
  rw [hostReadByte, whenSpaceFree_free hb ha, if_pos hmark]

/-- The turn taken, the spaces and their sizes are as they were. -/
theorem mem_withTurns (s : State) (sp : Space) : mem { s with turns := rest } sp = mem s sp := by
  cases sp <;> rfl

theorem hostSize_withTurns (s : State) (sp : Space) : hostSize { s with turns := rest } sp = hostSize s sp := by
  cases sp <;> rfl

/-- Settles O42: the write by what it leaves of each byte, the read by whether the byte is marked. -/
theorem hostByteAccess : Obligations.HostByteAccess := by
  intro s rest sp a b hp
  constructor
  · intro h
    have hstep : step s = hostWriteByte sp a b { s with turns := rest } := step_hostAct hp h nofun nofun
    refine ⟨fun hb => hstep.trans (whenSpaceFree_busy hb), fun hb ha hwf => ?_⟩
    rw [← mem_withTurns (rest := rest)] at hwf
    rw [← hostSize_withTurns (rest := rest)] at ha
    refine ⟨byteWritten { s with turns := rest } sp a b, hstep.trans (hostWriteByte_free hb ha), ?_, ?_, ?_, ?_,
      fun x => mem_outAny_byteWritten⟩
    · rw [mem_byteWritten_same]
      exact Memory.get_set_same hwf a b
    · rw [mem_byteWritten_same]
      exact Memory.wf_set a b hwf
    · intro sp' a' hne
      rw [get_byteWritten_others hne, mem_withTurns]
    · cases sp <;> rfl
  · intro h
    have hstep : step s = hostReadByte sp a { s with turns := rest } := step_hostAct hp h nofun nofun
    refine ⟨fun hb => hstep.trans (whenSpaceFree_busy hb), fun hb ha hmark => ?_, fun hb ha hmark => ?_⟩
    · rw [← hostSize_withTurns (rest := rest)] at ha
      rw [hstep, ← mem_withTurns (rest := rest) s]
      exact hostReadByte_unmarked hb ha hmark
    · rw [← hostSize_withTurns (rest := rest)] at ha
      exact ⟨_, hstep.trans (hostReadByte_marked hb ha hmark)⟩

/-! ### Reset, and DECRYPT -/

/-- Settles O44: what reset leaves is the reset state with the host's and the model's own fields kept. -/
theorem resetGivesResetState : Obligations.ResetGivesResetState :=
  fun _ _ hp h => ⟨_, step_hostAct hp h nofun nofun, rfl, status_idle rfl rfl⟩

/-- Settles O32: the length check, then the start of the call or the fault. -/
theorem decryptStartsACall : Obligations.DecryptStartsACall := by
  refine fun s => ⟨fun hb hlen => ?start, fun hb hlen => ?short, whenFree_busy⟩
  case start => exact execDecrypt_eq_next.2 ⟨hb, (if_neg hlen.not_gt).symm⟩
  case short => exact execDecrypt_eq_next.2 ⟨hb, (if_pos hlen).symm⟩

end Sys2Proof.Machine
end

section
/-! Decryption undoes encryption (R211, R212, R219): on the words and bytes of one block, on a whole message, on a call as a
function, and on the machine's steps. -/

namespace Sys2Proof.Machine

variable {S : Sponge} {w : Word} {bs : List Byte} {n : Nat}

/-! ### One block, whole or not -/

theorem maskKeep_eight (w : Word) : maskKeep w 8 = w :=
  word_ext_bytes fun j hj => by rw [byteAt_maskKeep w le_rfl hj, if_pos hj]

theorem load_store_eight (w : Word) : load (store w 8) 8 = w := (load_store w le_rfl).trans (maskKeep_eight w)

/-- Word 0 XORed with the ciphertext bytes, by byte positions: the plaintext, then what word 0 holds beyond it (R212). -/
theorem byteAt_xor_load_store (w : Word) (bs : List Byte) (hn : n ≤ 8) {j : Nat} (hj : j < 8) :
    byteAt (w ^^^ load (store (w ^^^ load bs n) n) n) j = if j < n then bs.getD j 0 else byteAt w j := by
  rw [load_store _ hn, byteAt_xor_maskKeep_xor_load w bs hn hj]

/-- The bytes decrypted are the bytes encrypted. -/
theorem store_xor_load_store (w : Word) (hn : n ≤ 8) (hlen : bs.length = n) :
    store (w ^^^ load (store (w ^^^ load bs n) n) n) n = bs :=
  store_eq_of_byteAt hlen fun j hj => by
    rw [byteAt_xor_load_store w bs hn (by omega), if_pos (by omega), List.getD_eq_getElem _ _ hj]

theorem maskKeep_xor_load_store (w : Word) (bs : List Byte) (hn : n ≤ 8) :
    maskKeep (w ^^^ load (store (w ^^^ load bs n) n) n) n = load bs n :=
  word_ext_bytes fun j hj => by
    rw [byteAt_maskKeep _ hn hj, byteAt_xor_load_store w bs hn hj, byteAt_load bs hn hj]
    by_cases hjn : j < n
    · rw [if_pos hjn, if_pos hjn, if_pos hjn]
    · rw [if_neg hjn, if_neg hjn]

/-- DECFIN leaves the words ENCFIN leaves (R192, R212). -/
theorem decfinWords_store (S : Sponge) (bs : List Byte) (hn : n ≤ 8) :
    decfinWords S (store (S.x0 ^^^ load bs n) n) n = (S.absorb (load bs n)).absorb (padWord n) := by
  rw [decfinWords, maskKeep_xor_load_store S.x0 bs hn]

/-! ### A message -/

theorem load_take (P : List Byte) (hlen : n ≤ P.length) : load (P.take n) n = load P n := by
  conv_rhs => rw [← List.take_append_drop n P, load_append (by rw [List.length_take]; omega)]

/-- Whole blocks: the same words, and the plaintext back, whatever follows the ciphertext. -/
theorem decBlocks_encBlocks (q : Nat) (S : Sponge) (P R : List Byte) (hlen : 8 * q ≤ P.length) :
    decBlocks q S ((encBlocks q S P).2 ++ R) = ((encBlocks q S P).1, P.take (8 * q)) := by
  induction q generalizing S P with
  | zero => rfl
  | succ q ih =>
    have hblock : 8 ≤ P.length := by omega
    have hplain : store (S.x0 ^^^ (S.absorb (load P 8)).x0) 8 = P.take 8 := by
      have h := store_xor_load_store (bs := P.take 8) S.x0 le_rfl (by rw [List.length_take]; omega)
      rwa [load_store_eight, load_take P hblock] at h
    have hih := ih (permute (S.absorb (load P 8)) 6) (P.drop 8) (by rw [List.length_drop]; omega)
    rw [encBlocks, decBlocks]
    simp only [List.append_assoc]
    rw [load_append (length_store _ 8), load_store_eight, List.drop_left' (length_store _ 8), hplain]
    rw [show ({ S with x0 := (S.absorb (load P 8)).x0 } : Sponge) = S.absorb (load P 8) from rfl, hih,
      show 8 * (q + 1) = 8 + 8 * q by omega, List.take_add]

/-- The data phase: the same words, and the plaintext back (R219). -/
theorem decData_encData (S : Sponge) (P : List Byte) : decData S (encData S P).2 = ((encData S P).1, P) := by
  have hq : 8 * (P.length / 8) ≤ P.length := Nat.mul_div_le _ _
  have hr : (P.drop (8 * (P.length / 8))).length ≤ 8 := by rw [List.length_drop]; omega
  have hlast : (encData S P).2.drop (8 * (P.length / 8)) = store ((encBlocks (P.length / 8) S P).1.x0 ^^^
      load (P.drop (8 * (P.length / 8))) (P.drop (8 * (P.length / 8))).length) (P.drop (8 * (P.length / 8))).length :=
    List.drop_left' (length_encBlocks _ S P)
  rw [decData, length_encData, hlast]
  simp only [encData, decBlocks_encBlocks _ S P _ hq, length_store]
  rw [store_xor_load_store _ hr rfl, List.take_append_drop]
  exact congrArg (·, P) (decfinWords_store _ _ hr)

/-! ### A call as a function -/

/-- decrypt on a ciphertext with 16 bytes of tag behind it (R218). -/
theorem decryptFn_append {T : List Byte} (C A K N : List Byte) (hT : T.length = 16) :
    decryptFn (C ++ T) A K N =
      let r := decData (startCall A K N) C
      if finishCall K r.1 = T then .ok r.2 else .authenticationFailure := by
  have hlen : (C ++ T).length = C.length + 16 := by rw [List.length_append, hT]
  have hlong : ¬ C.length + 16 < 16 := by omega
  simp only [decryptFn, hlen, if_neg hlong, Nat.add_sub_cancel, List.take_left, List.drop_left]

/-- decrypt on the ciphertext of encrypt, by the tag behind it. -/
theorem decryptFn_encData {T : List Byte} (P A K N : List Byte) (hT : T.length = 16) :
    decryptFn ((encData (startCall A K N) P).2 ++ T) A K N =
      if finishCall K (encData (startCall A K N) P).1 = T then .ok P else .authenticationFailure := by
  rw [decryptFn_append _ A K N hT, decData_encData]

/-- Settles O58: the data phase gives the words and the plaintext back, so the tags are equal. -/
theorem decryptInvertsEncrypt : Obligations.DecryptInvertsEncrypt := by
  intro P A K N _ _
  have hT : (finishCall K (encData (startCall A K N) P).1).length = 16 := length_tagBytes _
  rw [encryptFn, decryptFn_encData P A K N hT, if_pos rfl]

/-- Settles O59: the tag expected is the one encrypt gave. -/
theorem tamperedTagIsRejected : Obligations.TamperedTagIsRejected := by
  intro P A K N C T _ _ hT _ hne hC
  have hC' : C = (encData (startCall A K N) P).2 := hC.trans (List.take_left' (length_encData _ P))
  subst hC'
  rw [decryptFn_encData P A K N hT, if_neg fun htag => hne (by rw [encryptFn, htag])]

/-! ### The machine's steps -/

/-- The state a decrypting step starts from: the encrypting step's, in MODE DEC, with other bytes in IN. -/
def decrypting (s : State) (m : Memory) : State := { s with mode := .dec, inp := m }

variable {s t : State} {m : Memory}

theorem decblk_undoes_encblk (hwf : s.out.wf = true) (h : exec .encblk s = .next t)
    (hm : m.bytes s.inPos 8 = t.out.bytes s.outPos 8) :
    ∃ v, exec .decblk (decrypting s m) = .next v ∧ v.x = t.x ∧ v.inPos = t.inPos ∧ v.outPos = t.outPos ∧
      v.phase = t.phase ∧ v.out.bytes s.outPos 8 = s.inp.bytes s.inPos 8 := by
  obtain ⟨⟨hp, -, hleft⟩, S, hx, hread, hwrite, rfl⟩ := execEncblk_eq_next.1 h
  rw [emitTrace_out, (Memory.write_result hwf (length_store _ 8)).1] at hm
  have hc0 : load (m.bytes s.inPos 8) 8 = (S.absorb (load (s.inp.bytes s.inPos 8) 8)).x0 := by rw [hm, load_store_eight]
  have hplain : store (S.x0 ^^^ load (m.bytes s.inPos 8) 8) 8 = s.inp.bytes s.inPos 8 := by
    rw [hm]
    exact store_xor_load_store S.x0 le_rfl (Memory.length_bytes _ _ _)
  refine ⟨_, execDecblk_eq_next.2 ⟨⟨hp, rfl, hleft⟩, S, hx, hread, hwrite, rfl⟩, ?_, ?_, ?_, ?_, ?_⟩
  · rw [emitTrace_x, emitTrace_x]
    exact congrArg (fun w => some (permute { S with x0 := w } 6)) hc0
  · rw [emitTrace_inPos, emitTrace_inPos]
    rfl
  · rw [emitTrace_outPos, emitTrace_outPos]
    rfl
  · rw [emitTrace_phase, emitTrace_phase]
    rfl
  · rw [emitTrace_out]
    exact (Memory.write_result hwf (length_store _ 8)).1.trans hplain

theorem decfin_undoes_encfin (hwf : s.out.wf = true) (h : exec .encfin s = .next t)
    (hm : m.bytes s.inPos (inLeft s) = t.out.bytes s.outPos (inLeft s)) :
    ∃ v, exec .decfin (decrypting s m) = .next v ∧ v.x = t.x ∧ v.inPos = t.inPos ∧ v.outPos = t.outPos ∧
      v.phase = t.phase ∧ v.out.bytes s.outPos (inLeft s) = s.inp.bytes s.inPos (inLeft s) := by
  obtain ⟨⟨hp, -, hleft⟩, S, hx, hread, hwrite, rfl⟩ := execEncfin_eq_next.1 h
  rw [emitTrace_out, (Memory.write_result hwf (length_store _ _)).1] at hm
  have hwords : decfinWords S (m.bytes s.inPos (inLeft s)) (inLeft s) =
      (S.absorb (load (s.inp.bytes s.inPos (inLeft s)) (inLeft s))).absorb (padWord (inLeft s)) := by
    rw [hm]
    exact decfinWords_store S _ hleft.le
  have hplain : store (S.x0 ^^^ load (m.bytes s.inPos (inLeft s)) (inLeft s)) (inLeft s) =
      s.inp.bytes s.inPos (inLeft s) := by
    rw [hm]
    exact store_xor_load_store S.x0 hleft.le (Memory.length_bytes _ _ _)
  refine ⟨_, execDecfin_eq_next.2 ⟨⟨hp, rfl, hleft⟩, S, hx, hread, hwrite, rfl⟩, ?_, ?_, ?_, ?_, ?_⟩
  · rw [emitTrace_x, emitTrace_x]
    exact congrArg some hwords
  · rw [emitTrace_inPos, emitTrace_inPos]
    rfl
  · rw [emitTrace_outPos, emitTrace_outPos]
    rfl
  · rw [emitTrace_phase, emitTrace_phase]
  · rw [emitTrace_out]
    exact (Memory.write_result hwf (length_store _ _)).1.trans hplain

/-- Settles O60, for whole blocks and for the last bytes. -/
theorem decryptStepUndoesEncryptStep : Obligations.DecryptStepUndoesEncryptStep := by
  intro s t u e d hed _ _ hwf h hu hm
  generalize u.inp = m at hu hm
  subst hu
  rcases hed with ⟨rfl, rfl⟩ | ⟨rfl, rfl⟩
  · exact decblk_undoes_encblk hwf h hm
  · exact decfin_undoes_encfin hwf h hm

end Sys2Proof.Machine
end
